-- ==== Sys2Proof/Word.lean ====
section
/-! DEFINITION. The word types of the Alamouti STBC core (spec 00_scope.md R7, R9, R11; 20_memory.md R83). -/

namespace Sys2Proof

/-- XLEN = 64: the width of every host-visible register and of every host access (R7). -/
abbrev Word := BitVec 64

/-- One byte of the aperture (R83). -/
abbrev Byte := BitVec 8

/-- An IEEE 754 binary64 value, held as its 64-bit pattern (R11). Its arithmetic is in Machine/Float.lean. -/
abbrev F64 := BitVec 64

/-- An SNR value: a 32-bit two's-complement count of milli-dB (R7, R41). -/
abbrev Snr := BitVec 32

/-- A complex value: a pair of binary64 values (R11). -/
structure Cplx where
  /-- the real part, at the lower offset (R83) -/
  re : F64
  /-- the imaginary part, at the next 8 bytes (R83) -/
  im : F64
deriving DecidableEq, Repr

/-- A finite binary64 value by its fields: a biased exponent below 2047 rules out infinities and NaNs.
It is what the Gaussian generator returns, whose value is always finite (R8). -/
structure FiniteF64 where
  /-- the sign bit -/
  neg : Bool
  /-- the biased exponent, never 2047 -/
  expo : Fin 2047
  /-- the fraction -/
  frac : BitVec 52
deriving DecidableEq, Repr

end Sys2Proof
end

