-- ==== Sys2Proof/Config.lean ====
section
/-! DEFINITION. What is fixed for the block: its parameters (spec 00_scope.md R7, R8), its identification constants
(10_state.md R31, R32), and the FREE VALUES, opaque constants with no body: nothing can evaluate one or prove a value of it. -/

namespace Sys2Proof

/-- A generator GEN (R8): a pair of total functions keyed by (seed, stream, index). The Gaussian's value is finite by its type. -/
structure Gen where
  /-- GEN.bit -/
  bit : Word → Word → Word → Bool
  /-- GEN.gauss -/
  gauss : Word → Word → Word → FiniteF64

/-- RMAX, the largest legal receive-antenna count (R7). -/
def Config.rmax : Nat := 16

/-- MAX_POINTS, the largest number of points of one SWEEP and the number of RESULT entries (R7). -/
def Config.maxPoints : Nat := 256

/-- APERTURE, the size of the register aperture in bytes (R7, R80). -/
def Config.aperture : Nat := 0x4000

/-- The constant the ID register holds (R31). -/
def Config.idValue : Word := 0x00000001544D4C41#64

/-- The constant the PARAM register holds (R32). -/
def Config.paramValue : Word := 0x0000000001000010#64

/-- BASE, the platform's base address of the aperture (R80, U9): a parameter, log 7. -/
opaque Config.base : Nat

/-- GEN.bit of the block (R8, U8): a parameter, log 6. -/
opaque Config.genBit : Word → Word → Word → Bool

/-- GEN.gauss of the block by sign, biased exponent and fraction, so that it is always finite (R8, U8): a parameter, log 6. -/
opaque Config.genGauss : Word → Word → Word → Bool × Fin 2047 × BitVec 52

/-- The block's generator GEN (R8). -/
def Config.gen : Gen where
  bit := Config.genBit
  gauss := fun seed stream i =>
    let v := Config.genGauss seed stream i
    { neg := v.1, expo := v.2.1, frac := v.2.2 }

/-- The sign bit and the 51 payload bits of the quiet NaN with draw index d (R13, U3): free, log 5. -/
opaque Config.freeNaN : Nat → Bool × BitVec 51

/-- The value of the unspecified host read with draw index d (R88, U2; R54, U7): free, logs 3 and 4. -/
opaque Config.freeRead : Nat → Word

/-- ber(e, n) outside the domain for which R19 states it (e ≤ n, n > 0): free, log 13. -/
opaque Config.berOutside : Word → Word → F64

end Sys2Proof
end

