-- ==== Sys2Proof/Syntax.lean ====
section
/-! DEFINITION. The commands (spec 30_encoding.md R110, R111, R116): one constructor per row of the opcode table. -/

namespace Sys2Proof

/-- A command of ASTBC-CMD version 1 (R3, R111). No command has an immediate or a register number (R116); ENC alone has the
operand field NORM. -/
inductive Instr where
  /-- OPC 0x00: does nothing (R141) -/
  | nop
  /-- OPC 0x01: draws the two bits of a codeword (R142) -/
  | drawb
  /-- OPC 0x02: maps the bits to symbols (R143) -/
  | map
  /-- OPC 0x03: builds the transmit matrix; norm is CMD[8], true = scale by KN (R145) -/
  | enc (norm : Bool)
  /-- OPC 0x04: draws the channel coefficients (R173) -/
  | drawh
  /-- OPC 0x05: draws the noise samples (R174) -/
  | drawn
  /-- OPC 0x06: forms the received samples (R180) -/
  | chan
  /-- OPC 0x07: combines them into the decision statistics (R201) -/
  | comb
  /-- OPC 0x08: decides and accumulates the errors (R221) -/
  | det
  /-- OPC 0x09: clears the accumulators (R222) -/
  | clracc
  /-- OPC 0x0A: runs the whole pipeline for one codeword (R240) -/
  | cword
  /-- OPC 0x0B: runs one SNR point (R254) -/
  | runpt
  /-- OPC 0x0C: runs the whole SNR sweep (R255) -/
  | sweep
deriving DecidableEq, Repr

/-- One bus transaction of the host (R85, R119): a read or a write of `width` bytes at the aperture offset `off`. The block
admits only some of them (R84, WellFormed.lean). -/
inductive Access where
  | read (width off : Nat)
  | write (width off : Nat) (v : Word)
deriving DecidableEq, Repr

end Sys2Proof
end

