-- ==== Sys2Proof/WellFormed.lean ====
section
/-! DEFINITION. What is well formed: a command (spec 30_encoding.md R116) and a host access (20_memory.md R84). Which command
words are legal (R112) stands in Decode.lean. -/

namespace Sys2Proof

/-- A command is well formed for every operand: NORM is one bit and no command has another operand field (R116). -/
def Instr.wellFormed : Instr → Bool
  | .nop => true
  | .drawb => true
  | .map => true
  | .enc _ => true
  | .drawh => true
  | .drawn => true
  | .chan => true
  | .comb => true
  | .det => true
  | .clracc => true
  | .cword => true
  | .runpt => true
  | .sweep => true

/-- The width of an access in bytes. -/
def Access.width : Access → Nat
  | .read width _ => width
  | .write width _ _ => width

/-- The aperture offset of an access. -/
def Access.off : Access → Nat
  | .read _ off => off
  | .write _ off _ => off

/-- The block admits one width, 64 bits (R84). -/
def Access.widthOk (a : Access) : Bool := a.width = 8

/-- The offset is a multiple of 8 (R84). -/
def Access.aligned (a : Access) : Bool := a.off % 8 = 0

/-- The offset lies in the aperture (R80, R84). -/
def Access.inAperture (a : Access) : Bool := a.off < Config.aperture

/-- The accesses the block admits (R84). Every other one gets a bus error. -/
def Access.wellFormed (a : Access) : Bool := a.widthOk && a.aligned && a.inAperture

end Sys2Proof
end

