-- ==== Sys2Proof/Decode.lean ====
section
/-! DEFINITION. The decoder of command words and, after it, the encoder (spec 30_encoding.md R110 to R115). A command is one 64-bit
word; the decoder is total over all 2^64 of them (R112) and rejects an illegal word by the cause R113 gives it. -/

namespace Sys2Proof

/-- The OPC field of a command word, bits [7:0] (R110). -/
def opcOf (w : Word) : Nat := w.toNat % 256

/-- The NORM field of a command word, bit [8] (R110). -/
def normOf (w : Word) : Bool := w.getLsbD 8

/-- The reserved field of a command word, bits [63:9] (R110). -/
def reservedOf (w : Word) : Nat := w.toNat / 512

/-- First condition of R112: the opcode is one of the thirteen. -/
def opcodeKnown (w : Word) : Bool := opcOf w ≤ 0x0C

/-- Second condition of R112: bits [63:9] are 0. -/
def reservedClear (w : Word) : Bool := reservedOf w = 0

/-- Third condition of R112: NORM is 0, or the opcode is ENC. -/
def normAllowed (w : Word) : Bool := normOf w = false || opcOf w = 0x03

/-- A command word is legal exactly when all three conditions hold (R112). -/
def legalWord (w : Word) : Bool := opcodeKnown w && reservedClear w && normAllowed w

/-- Why a command word is illegal: the causes of ILLEGAL_COMMAND (R113, R283). -/
inductive DecodeError where
  /-- cause 1: `w[7:0] > 0x0C` -/
  | unknownOpcode
  /-- cause 2: `w[63:9] ≠ 0`, or `w[8] = 1` with an opcode other than ENC -/
  | reservedBits
deriving DecidableEq, Repr

/-- The command of an opcode and a NORM bit, by the opcode map (R111). -/
def instrOfOpcode (opc : Nat) (norm : Bool) : Option Instr :=
  match opc with
  | 0x00 => some .nop
  | 0x01 => some .drawb
  | 0x02 => some .map
  | 0x03 => some (.enc norm)
  | 0x04 => some .drawh
  | 0x05 => some .drawn
  | 0x06 => some .chan
  | 0x07 => some .comb
  | 0x08 => some .det
  | 0x09 => some .clracc
  | 0x0A => some .cword
  | 0x0B => some .runpt
  | 0x0C => some .sweep
  | _ => none

/-- Decode a command word. UNKNOWN_OPCODE is checked first, then RESERVED_BITS (R113, R287). -/
def decode (w : Word) : Except DecodeError Instr :=
  match instrOfOpcode (opcOf w) (normOf w) with
  | none => .error .unknownOpcode
  | some i => if reservedClear w && normAllowed w then .ok i else .error .reservedBits

/-- The opcode of a command (R111). -/
def opcodeOf : Instr → Nat
  | .nop => 0x00
  | .drawb => 0x01
  | .map => 0x02
  | .enc _ => 0x03
  | .drawh => 0x04
  | .drawn => 0x05
  | .chan => 0x06
  | .comb => 0x07
  | .det => 0x08
  | .clracc => 0x09
  | .cword => 0x0A
  | .runpt => 0x0B
  | .sweep => 0x0C

/-- The NORM bit of a command: 0 for every opcode but ENC (R110). -/
def normBit : Instr → Bool
  | .enc norm => norm
  | .nop => false
  | .drawb => false
  | .map => false
  | .drawh => false
  | .drawn => false
  | .chan => false
  | .comb => false
  | .det => false
  | .clracc => false
  | .cword => false
  | .runpt => false
  | .sweep => false

/-- The command word of a command: reserved zeros, NORM, OPC (R110, R111). -/
def encode (i : Instr) : Word :=
  0#55 ++ BitVec.ofBool (normBit i) ++ BitVec.ofNat 8 (opcodeOf i)

/-- The eight bytes of a word at the block's port, the first at the lowest offset: little-endian (20_memory.md R83). -/
def bytesOfWord (w : Word) : List Byte :=
  (List.range 8).map fun i => BitVec.ofNat 8 (w.toNat / 2 ^ (8 * i))

/-- The number whose little-endian bytes are given (20_memory.md R83). -/
def natOfBytes : List Byte → Nat
  | [] => 0
  | b :: bs => b.toNat + 256 * natOfBytes bs

/-- The word of eight little-endian bytes. -/
def wordOfBytes (bs : List Byte) : Word := BitVec.ofNat 64 (natOfBytes bs)

/-- Why a run of bytes is no command: it is not one 64-bit word (R115), or the word is illegal (R113). -/
inductive BytesError where
  /-- not exactly eight bytes: no other length exists (R115) -/
  | notOneWord
  /-- an illegal word -/
  | illegal (e : DecodeError)
deriving DecidableEq, Repr

/-- Decode the bytes of a command, total on any bytes (R112, R115; log 23). -/
def decodeBytes (bs : List Byte) : Except BytesError Instr :=
  if bs.length = 8 then
    match decode (wordOfBytes bs) with
    | .ok i => .ok i
    | .error e => .error (.illegal e)
  else .error .notOneWord

/-- The host's question: the command the decoder reads from the table's bits `w`, laid out as the block stores them.
A command is 64 bits long, so bits from 64 up cannot be part of one (R115). -/
def decodeTableWord (nbits w : Nat) : Option Instr :=
  if nbits ≤ 64 && decide (w < 2 ^ 64) then
    (decodeBytes (bytesOfWord (BitVec.ofNat 64 w))).toOption
  else none

end Sys2Proof
end

