-- ==== Sys2Proof/Machine/Float.lean ====
section
/-! DEFINITION. IEEE 754 binary64 arithmetic (spec 00_scope.md R11 to R19) and the complex operations over it (R14, R15).

A finite value is an exact whole number of units of 2^-1074, the smallest subnormal, so every operation computes its exact result in
integers and rounds once. An operation whose result is NaN delivers a quiet NaN with free sign and payload (R13, log 5):
its first argument `d` is the index of that free value, a different one for each operation of a run. -/

namespace Sys2Proof.Machine

/-- What a binary64 pattern stands for (R11). -/
inductive FVal where
  | nan
  | inf (neg : Bool)
  /-- the value ± units · 2^-1074, signed zeros included -/
  | fin (neg : Bool) (units : Nat)
deriving DecidableEq, Repr

/-- The pattern of +infinity, which is also where the patterns of the finite magnitudes end (R11). -/
def infPattern : Nat := 2047 * 2 ^ 52

/-- The magnitude, in units of 2^-1074, of the magnitude pattern `p` (sign bit left out): subnormals below 2^52, then 2^52 patterns
a binade (R11). At `infPattern` it gives 2^1024, the value that rounding compares with there. -/
def unitsOf (p : Nat) : Nat :=
  if p / 2 ^ 52 = 0 then p else (2 ^ 52 + p % 2 ^ 52) * 2 ^ (p / 2 ^ 52 - 1)

/-- Read a pattern (R11). -/
def fview (a : F64) : FVal :=
  let p := a.toNat % 2 ^ 63
  if infPattern < p then .nan
  else if p = infPattern then .inf a.msb
  else .fin a.msb (unitsOf p)

/-- A pattern from a sign and a magnitude pattern. -/
def fpack (neg : Bool) (p : Nat) : F64 :=
  BitVec.ofNat 64 (if neg then 2 ^ 63 + p else p)

/-- The magnitude pattern nearest to n / d units, ties to even, infinity from half a unit in the last place above the largest
finite value on (R12). Patterns of one binade follow each other and so do binades, so adding 1 to a pattern is the next magnitude. -/
def roundUnits (n d : Nat) : Nat :=
  let k := Nat.log2 (n / d) - 52
  let ulp := d * 2 ^ k
  let q := n / ulp
  let r := n % ulp
  let up := if ulp < 2 * r then 1 else if 2 * r = ulp then q % 2 else 0
  min (k * 2 ^ 52 + q + up) infPattern

/-- A signed quotient of units, rounded. -/
def roundSigned (neg : Bool) (n d : Nat) : F64 := fpack neg (roundUnits n d)

/-- An infinity. -/
def finf (neg : Bool) : F64 := fpack neg infPattern

/-- The quiet NaN with draw index `d`: sign and payload are free (R13, U3; log 5). -/
def quietNaN (d : Nat) : F64 :=
  BitVec.ofBool (Config.freeNaN d).1 ++ 0xFFF#12 ++ (Config.freeNaN d).2

/-- +0.0 (R9). -/
def fzero : F64 := 0x0000000000000000#64

/-- 1.0 (R9). -/
def fone : F64 := 0x3FF0000000000000#64

/-- The pattern of a finite value given by its fields, which is what GEN.gauss returns (R8). -/
def finitePattern (a : FiniteF64) : F64 :=
  BitVec.ofBool a.neg ++ BitVec.ofNat 11 a.expo.val ++ a.frac

/-- The exact sum of two signed counts of units, rounded. An exact zero is +0.0, but for two zeros of one sign, whose sum is that
zero (R12). -/
def addUnits (s : Bool) (m : Nat) (t : Bool) (n : Nat) : F64 :=
  if s = t then roundSigned s (m + n) 1
  else if m = n then fzero
  else if n < m then roundSigned s (m - n) 1
  else roundSigned t (n - m) 1

/-- IEEE 754 addition (R12). -/
def fadd (d : Nat) (a b : F64) : F64 :=
  match fview a, fview b with
  | .nan, _ => quietNaN d
  | _, .nan => quietNaN d
  | .inf s, .inf t => if s = t then finf s else quietNaN d
  | .inf s, .fin _ _ => finf s
  | .fin _ _, .inf t => finf t
  | .fin s m, .fin t n => addUnits s m t n

/-- Negation flips the sign bit of every pattern, NaNs included (R14). -/
def fneg (a : F64) : F64 := a ^^^ 0x8000000000000000#64

/-- IEEE 754 subtraction: the sum with the negated second operand (R12). -/
def fsub (d : Nat) (a b : F64) : F64 := fadd d a (fneg b)

/-- IEEE 754 multiplication (R12). -/
def fmul (d : Nat) (a b : F64) : F64 :=
  match fview a, fview b with
  | .nan, _ => quietNaN d
  | _, .nan => quietNaN d
  | .inf s, .inf t => finf (s ^^ t)
  | .inf s, .fin t n => if n = 0 then quietNaN d else finf (s ^^ t)
  | .fin s m, .inf t => if m = 0 then quietNaN d else finf (s ^^ t)
  | .fin s m, .fin t n => roundSigned (s ^^ t) (m * n) (2 ^ 1074)

/-- IEEE 754 division: a nonzero finite value over zero is a signed infinity, 0/0 and ∞/∞ are NaN (R12). -/
def fdiv (d : Nat) (a b : F64) : F64 :=
  match fview a, fview b with
  | .nan, _ => quietNaN d
  | _, .nan => quietNaN d
  | .inf _, .inf _ => quietNaN d
  | .inf s, .fin t _ => finf (s ^^ t)
  | .fin s _, .inf t => fpack (s ^^ t) 0
  | .fin s m, .fin t n =>
    if n = 0 then (if m = 0 then quietNaN d else finf (s ^^ t))
    else roundSigned (s ^^ t) (m * 2 ^ 1074) n

/-- The whole square root by bits: the largest r with `acc ≤ r < acc + 2^fuel` and r² ≤ x. -/
def isqrtFrom : Nat → Nat → Nat → Nat
  | 0, acc, _ => acc
  | fuel + 1, acc, x =>
    let t := acc + 2 ^ fuel
    if t * t ≤ x then isqrtFrom fuel t x else isqrtFrom fuel acc x

/-- The whole square root of x. -/
def isqrt (x : Nat) : Nat := isqrtFrom (Nat.log2 x / 2 + 1) 0 x

/-- IEEE 754 square root (R12). The root of m units is the root of m · 2^1074, a number of at least 538 bits, so a half added to its
whole part when it is not exact rounds as the root itself does. -/
def fsqrt (d : Nat) (a : F64) : F64 :=
  match fview a with
  | .nan => quietNaN d
  | .inf s => if s then quietNaN d else finf false
  | .fin s m =>
    if m = 0 then a
    else if s then quietNaN d
    else
      let x := m * 2 ^ 1074
      let q := isqrt x
      roundSigned false (2 * q + if q * q = x then 0 else 1) 2

/-- The ordered comparison `a > +0.0`: false for zeros, negative values and NaNs (R16). -/
def fgt0 (a : F64) : Bool :=
  match fview a with
  | .nan => false
  | .inf s => !s
  | .fin s m => !s && decide (0 < m)

/-- The comparison `a = 0.0`, true for both zeros (R201). -/
def feq0 (a : F64) : Bool :=
  match fview a with
  | .nan => false
  | .inf _ => false
  | .fin _ m => decide (m = 0)

/-- KN, the value of 1/√2 evaluated in binary64, square root first (R17). -/
def kn : F64 := 0x3FE6A09E667F3BCC#64

/-- ber(e, n): the binary64 value nearest to e / n, ties to even (R19). Outside the stated domain it is free (log 13). -/
def ber (e n : Word) : F64 :=
  if n.toNat = 0 ∨ n.toNat < e.toNat then Config.berOutside e n
  else roundSigned false (e.toNat * 2 ^ 1074) n.toNat

/-- The root that turns milli-dB into a power of ten: sigma(snr) is 10^(-snr/20000) (R18). -/
def sigmaRoot : Nat := 20000

/-- Does 10^(a/20000) round to a magnitude above the pattern `c`? It does when it is past the midpoint between `c` and `c + 1`, or
is that midpoint and `c + 1` is even (R18). The midpoint is p · 2^k units of 2^-1075, with p odd, and both
sides are compared at the power `sigmaRoot`, in whole numbers. -/
def roundsAbove (a : Int) (c : Nat) : Bool :=
  let k := c / 2 ^ 52 - 1
  let p := 2 * (if c / 2 ^ 52 = 0 then c else 2 ^ 52 + c % 2 ^ 52) + 1
  let power := 10 ^ a.toNat * (2 ^ (1075 - k)) ^ sigmaRoot
  let midpoint := p ^ sigmaRoot * (2 ^ (k - 1075)) ^ sigmaRoot * 10 ^ (-a).toNat
  if midpoint < power then true else decide (midpoint = power) && decide (c % 2 = 1)

/-- The largest pattern in `lo ≤ b < lo + 2^fuel`, not above infinity, that is `lo` or has `above (b - 1)`, for an `above` that goes
from true to false once. -/
def bisect (above : Nat → Bool) : Nat → Nat → Nat
  | 0, lo => lo
  | fuel + 1, lo =>
    let t := lo + 2 ^ fuel
    if decide (t ≤ infPattern) && above (t - 1) then bisect above fuel t else bisect above fuel lo

/-- sigma(snr) = 10^(-snr/20000) for snr milli-dB, correctly rounded (R18). The outer arms are the bounds R180 states: from
6472145 on the value rounds to +0.0, down from -6165095 it exceeds every finite value, and at 0 it is 1.0 (log 17). -/
def sigma (snr : Snr) : F64 :=
  if 6472145 ≤ snr.toInt then fzero
  else if snr.toInt ≤ -6165095 then finf false
  else if snr.toInt = 0 then fone
  else fpack false (bisect (roundsAbove (-snr.toInt)) 63 0)

/-! Complex operations (R14, R15). Each names the free values of its parts by consecutive indices from `d`. -/

/-- conj(z) (R14) -/
def conj (z : Cplx) : Cplx := ⟨z.re, fneg z.im⟩

/-- cneg(z) (R14) -/
def cneg (z : Cplx) : Cplx := ⟨fneg z.re, fneg z.im⟩

/-- cadd (R15): 2 operations -/
def cadd (d : Nat) (a b : Cplx) : Cplx := ⟨fadd d a.re b.re, fadd (d + 1) a.im b.im⟩

/-- csub (R15): 2 operations -/
def csub (d : Nat) (a b : Cplx) : Cplx := ⟨fsub d a.re b.re, fsub (d + 1) a.im b.im⟩

/-- cmul (R15): 6 operations -/
def cmul (d : Nat) (a b : Cplx) : Cplx :=
  ⟨fsub d (fmul (d + 1) a.re b.re) (fmul (d + 2) a.im b.im),
   fadd (d + 3) (fmul (d + 4) a.re b.im) (fmul (d + 5) a.im b.re)⟩

/-- rscale (R15): 2 operations -/
def rscale (d : Nat) (k : F64) (a : Cplx) : Cplx := ⟨fmul d k a.re, fmul (d + 1) k a.im⟩

/-- abs2 (R15): 3 operations -/
def abs2 (d : Nat) (a : Cplx) : F64 := fadd d (fmul (d + 1) a.re a.re) (fmul (d + 2) a.im a.im)

/-- cdivr (R15): 2 operations -/
def cdivr (d : Nat) (a : Cplx) (k : F64) : Cplx := ⟨fdiv d a.re k, fdiv (d + 1) a.im k⟩

/-- (+0.0, +0.0) -/
def czero : Cplx := ⟨fzero, fzero⟩

end Sys2Proof.Machine
end

