-- ==== Sys2Proof/Machine/State.lean ====
section
/-! DEFINITION. The state of the block (spec 10_state.md), its reset (70_reset_and_hazards.md R330, R331), and the reasons a step can stop. -/

namespace Sys2Proof.Machine

/-- STATUS.STATE (R35). -/
inductive CmdState where
  | idle | busy | done | error | aborted
deriving DecidableEq, Repr

/-- PHASE, the position of a multi-step command (R56). -/
inductive Phase where
  | none | swStart | ptInit | ptCw | ptFinal
deriving DecidableEq, Repr

/-- One coming turn (R21, R91; log 10): which agent moves, and what the host does when it is the host. -/
inductive Event where
  /-- the host performs one access (R85) -/
  | host (a : Access)
  /-- the core takes its step, if it has one (R261) -/
  | core
  /-- the reset input is applied (R330) -/
  | reset
deriving DecidableEq, Repr

/-- The RESULT memory as (aperture offset, byte) pairs, offsets strictly rising, no byte equal to what an unlisted offset reads as
(R54; log 2). -/
abbrev Memory := List Host.Cell

/-- The state. Registers keep the spec's names. ID and PARAM are constants (Config), CTRL stores nothing (R33), irq is a function
of the state (Flags.lean). -/
structure State where
  /-- CMD, the last word whose write was not dropped (R34) -/
  cmd : Word
  /-- STATUS.STATE (R35) -/
  state : CmdState
  /-- STATUS.DROP (R35) -/
  drop : Bool
  /-- STATUS.DEGEN (R35) -/
  degen : Bool
  /-- STATUS.ERR_CODE (R35) -/
  errCode : BitVec 8
  /-- STATUS.ERR_CAUSE (R35) -/
  errCause : BitVec 8
  /-- ERR_INFO (R36) -/
  errInfo : Word
  /-- INT_STATUS: bit 0 DONE, bit 1 ERROR, bit 2 DEGEN (R37) -/
  intStatus : BitVec 3
  /-- INT_ENABLE, the same bits (R37) -/
  intEnable : BitVec 3
  /-- NBITS (R39) -/
  nbits : Word
  /-- NRX (R40) -/
  nrx : Word
  /-- SNR_START (R41) -/
  snrStart : Snr
  /-- SNR_END (R41) -/
  snrEnd : Snr
  /-- SNR_STEP (R41) -/
  snrStep : Snr
  /-- SNR_CUR (R41) -/
  snrCur : Snr
  /-- SEED (R42) -/
  seed : Word
  /-- STREAM (R42) -/
  stream : Word
  /-- BIT_IDX (R43) -/
  bitIdx : Word
  /-- GAUSS_IDX (R43) -/
  gaussIdx : Word
  /-- ERRCNT (R44) -/
  errcnt : Word
  /-- BITCNT (R44) -/
  bitcnt : Word
  /-- DEGEN_CNT (R44) -/
  degenCnt : Word
  /-- BER (R45) -/
  ber : F64
  /-- SIGMA (R45) -/
  sigma : F64
  /-- RESULT_COUNT (R46) -/
  resultCount : Word
  /-- BITS: bit 0 is B1, bit 1 is B2 (R47) -/
  bits : BitVec 2
  /-- BHAT: bit 0 is BH1, bit 1 is BH2 (R47) -/
  bhat : BitVec 2
  /-- S1 (R48) -/
  s1 : Cplx
  /-- S2 (R48) -/
  s2 : Cplx
  /-- X00, antenna 0, slot 0 (R49) -/
  x00 : Cplx
  /-- X01, antenna 0, slot 1 (R49) -/
  x01 : Cplx
  /-- X10, antenna 1, slot 0 (R49) -/
  x10 : Cplx
  /-- X11, antenna 1, slot 1 (R49) -/
  x11 : Cplx
  /-- Z1 (R53) -/
  z1 : Cplx
  /-- Z2 (R53) -/
  z2 : Cplx
  /-- DEN (R53) -/
  den : F64
  /-- the H file: `H[a][r]` is entry 16·a + r (R50) -/
  h : Vector Cplx 32
  /-- the NZ file: `NZ[r][t]` is entry 2·r + t (R51) -/
  nz : Vector Cplx 32
  /-- the Y file: `Y[r][t]` is entry 2·r + t (R52) -/
  y : Vector Cplx 32
  /-- the RESULT memory (R54) -/
  result : Memory
  /-- ABORT_REQ, hidden (R55) -/
  abortReq : Bool
  /-- PHASE, hidden (R56) -/
  phase : Phase
  /-- K, the point index, hidden (R56; log 16) -/
  k : Nat
  /-- P, the number of points of the current SWEEP, hidden (R56; log 16) -/
  p : Nat
  /-- CWDONE, the codewords completed in the current point, hidden (R56) -/
  cwdone : Word
  /-- THE MODEL'S OWN: the index of the next free value (R13, R88; log 15) -/
  draws : Nat
  /-- THE MODEL'S OWN: what the host's last access returned, nothing for a write (R85; log 15) -/
  resp : Option Word
  /-- THE MODEL'S OWN: the coming turns, first one first; when none is left the core moves (R21, R91; log 10) -/
  events : List Event
deriving DecidableEq, Repr

/-- Why the machine stops with a fault. -/
inductive Fault where
  /-- Raised by the host port: the access has another width, is misaligned, or lies outside the aperture, and gets a bus error
  (R84, U6). No state changes. SAFE: the run stops where the block would go on unchanged (log 8). -/
  | busError (width off : Nat)
  /-- Raised by RUNPT and SWEEP when the sequencer has no phase while they run, for which R261 has no step: stuck. SAFE: no run
  reaches it (log 11). -/
  | noPhase
deriving DecidableEq, Repr

/-- Why the machine refuses. -/
inductive Refusal where
  /-- An instruction with no meaning yet. SAFE. No arm of exec answers it. -/
  | notModelled (mnemonic : String)
  /-- Raised by the core's step when CMD holds an illegal word while BUSY, which the issue rule excludes (R260). SAFE: no run
  reaches it (log 11). -/
  | illegalWordWhileBusy (w : Word)
deriving DecidableEq, Repr

/-- A file of 32 complex registers as reset leaves it (R50 to R52; the value is log 1's). -/
def resetFile : Vector Cplx 32 := Vector.replicate 32 ⟨0#64, 0#64⟩

/-- The machine right after reset (R330, R331). Registers the spec leaves unspecified hold zero: DESIGN CHOICE, log 1. -/
def State.reset : State where
  cmd := 0#64
  state := .idle
  drop := false
  degen := false
  errCode := 0#8
  errCause := 0#8
  errInfo := 0#64
  intStatus := 0#3
  intEnable := 0#3
  nbits := 0#64
  nrx := 1#64
  snrStart := 0#32
  snrEnd := 0#32
  snrStep := 1000#32
  snrCur := 0#32
  seed := 0#64
  stream := 0#64
  bitIdx := 0#64
  gaussIdx := 0#64
  errcnt := 0#64
  bitcnt := 0#64
  degenCnt := 0#64
  ber := 0x0000000000000000#64
  sigma := 0x3FF0000000000000#64
  resultCount := 0#64
  bits := 0#2
  bhat := 0#2
  s1 := ⟨0#64, 0#64⟩
  s2 := ⟨0#64, 0#64⟩
  x00 := ⟨0#64, 0#64⟩
  x01 := ⟨0#64, 0#64⟩
  x10 := ⟨0#64, 0#64⟩
  x11 := ⟨0#64, 0#64⟩
  z1 := ⟨0#64, 0#64⟩
  z2 := ⟨0#64, 0#64⟩
  den := 0#64
  h := resetFile
  nz := resetFile
  y := resetFile
  result := []
  abortReq := false
  phase := .none
  k := 0
  p := 0
  cwdone := 0#64
  draws := 0
  resp := none
  events := []

end Sys2Proof.Machine
end

