-- ==== Sys2Proof/Machine/Flags.lean ====
section
/-! DEFINITION. The status fields and flags (spec 10_state.md R35, R37, R57), the interrupt output (60_exceptions.md R300, R301) and the
hard decision (43_detector.md R220). No command reads a flag as an input (R57). -/

namespace Sys2Proof.Machine

/-- The encoding of STATUS.STATE; 5 to 7 never occur (R35). -/
def stateCode : CmdState → BitVec 3
  | .idle => 0#3
  | .busy => 1#3
  | .done => 2#3
  | .error => 3#3
  | .aborted => 4#3

/-- STATUS as the host reads it: STATE [2:0], DROP [3], DEGEN [4], ERR_CODE [15:8], ERR_CAUSE [23:16], all other bits 0 (R35). -/
def statusWord (s : State) : Word :=
  0#40 ++ s.errCause ++ s.errCode ++ 0#3 ++ BitVec.ofBool s.degen ++ BitVec.ofBool s.drop ++ stateCode s.state

/-- INT_STATUS.DONE <- 1 (R262, R301): setting a bit that is 1 leaves it 1. -/
def setIntDone (f : BitVec 3) : BitVec 3 := f ||| 1#3

/-- INT_STATUS.ERROR <- 1 (R290, R301) -/
def setIntError (f : BitVec 3) : BitVec 3 := f ||| 2#3

/-- INT_STATUS.DEGEN <- 1 (R204, R301) -/
def setIntDegen (f : BitVec 3) : BitVec 3 := f ||| 4#3

/-- The host's write to INT_STATUS clears each bit written as 1 and leaves the others (R37). -/
def acknowledge (f : BitVec 3) (v : Word) : BitVec 3 := f &&& ~~~(v.setWidth 3)

/-- The interrupt output: some source is both set and enabled (R300). A function of the state, not a step. -/
def irq (s : State) : Bool := s.intStatus &&& s.intEnable != 0#3

/-- The hard decision of a statistic: its real part is positive; the imaginary part is not read (R220). -/
def dec (z : Cplx) : Bool := fgt0 z.re

/-- A two-bit register from its bit 0 and its bit 1 (R47). -/
def pairBits (b0 b1 : Bool) : BitVec 2 := BitVec.ofBool b1 ++ BitVec.ofBool b0

/-- How many of the two decisions differ from the transmitted bits: 0, 1 or 2 (R221). -/
def mismatches (bh1 bh2 : Bool) (bits : BitVec 2) : Nat :=
  (if bh1 = bits.getLsbD 0 then 0 else 1) + (if bh2 = bits.getLsbD 1 then 0 else 1)

end Sys2Proof.Machine
end

