-- ==== Sys2Proof/Machine/Operands.lean ====
section
/-! DEFINITION. The operand forms of the commands and of the host's accesses: the named registers, the register files by their indices
(spec 10_state.md R48 to R53), and the register map of the aperture (R30; 20_memory.md R81). -/

namespace Sys2Proof.Machine

/-- The word of a complex register: re at the lower offset, im at the next (R83, R89). -/
inductive Part where
  | re | im
deriving DecidableEq, Repr

/-- The complex registers outside the files (R48, R49, R53). -/
inductive CReg where
  | s1 | s2 | x00 | x01 | x10 | x11 | z1 | z2
deriving DecidableEq, Repr

/-- What stands at an aligned offset of the aperture (R30, R81). -/
inductive Reg where
  | id | param | ctrl | cmd | status | errInfo | intStatus | intEnable
  | nbits | nrx | snrStart | snrEnd | snrStep | snrCur | seed | stream | bitIdx | gaussIdx
  | errcnt | bitcnt | degenCnt | ber | sigma | resultCount | bits | bhat
  | complex (r : CReg) (part : Part)
  | den
  | h (i : Fin 32) (part : Part)
  | nz (i : Fin 32) (part : Part)
  | y (i : Fin 32) (part : Part)
  /-- word `word` of RESULT entry k: SNR, ERR, BER, BITS (R54, R117) -/
  | result (k : Fin 256) (word : Fin 4)
  /-- a reserved offset (R81, R82) -/
  | reserved
deriving DecidableEq, Repr

/-- The words at offsets 0x000 to 0x0CF (R30). -/
def controlReg (n : Nat) : Reg :=
  match n with
  | 0 => .id
  | 1 => .param
  | 2 => .ctrl
  | 3 => .cmd
  | 4 => .status
  | 5 => .errInfo
  | 6 => .intStatus
  | 7 => .intEnable
  | 8 => .nbits
  | 9 => .nrx
  | 10 => .snrStart
  | 11 => .snrEnd
  | 12 => .snrStep
  | 13 => .snrCur
  | 14 => .seed
  | 15 => .stream
  | 16 => .bitIdx
  | 17 => .gaussIdx
  | 18 => .errcnt
  | 19 => .bitcnt
  | 20 => .degenCnt
  | 21 => .ber
  | 22 => .sigma
  | 23 => .resultCount
  | 24 => .bits
  | 25 => .bhat
  | _ => .reserved

/-- The complex registers from 0x100 on, 16 bytes each (R30). -/
def cregOf (n : Nat) : CReg :=
  match n with
  | 0 => .s1
  | 1 => .s2
  | 2 => .x00
  | 3 => .x01
  | 4 => .x10
  | 5 => .x11
  | 6 => .z1
  | _ => .z2

/-- Which word of a complex register an aligned offset names: all of them start at multiples of 16 (R30, R83). -/
def partAt (off : Nat) : Part := if off % 16 = 0 then .re else .im

/-- The register map (R30, R81), for an offset that is a multiple of 8 and below 0x4000. -/
def regAt (off : Nat) : Reg :=
  if off < 0x0D0 then controlReg (off / 8)
  else if off < 0x100 then .reserved
  else if off < 0x180 then .complex (cregOf ((off - 0x100) / 16)) (partAt off)
  else if off < 0x188 then .den
  else if off < 0x200 then .reserved
  else if off < 0x400 then .h (Fin.ofNat 32 ((off - 0x200) / 16)) (partAt off)
  else if off < 0x600 then .nz (Fin.ofNat 32 ((off - 0x400) / 16)) (partAt off)
  else if off < 0x800 then .y (Fin.ofNat 32 ((off - 0x600) / 16)) (partAt off)
  else if off < 0x1000 then .reserved
  else if off < 0x3000 then .result (Fin.ofNat 256 ((off - 0x1000) / 32)) (Fin.ofNat 4 ((off - 0x1000) / 8 % 4))
  else .reserved

/-- The aperture offset of word `word` of RESULT entry k (R54). -/
def resultOffset (k word : Nat) : Nat := 0x1000 + 32 * k + 8 * word

/-- The offset of a part within its complex register (R83). -/
def partOffset : Part → Nat
  | .re => 0
  | .im => 8

/-- The offset of a complex register (R48, R49, R53). -/
def cregOffset : CReg → Nat
  | .s1 => 0x100
  | .s2 => 0x110
  | .x00 => 0x120
  | .x01 => 0x130
  | .x10 => 0x140
  | .x11 => 0x150
  | .z1 => 0x160
  | .z2 => 0x170

/-- The offset of a register, element offsets by R48 to R54; a reserved word has no one offset. -/
def regOffset : Reg → Option Nat
  | .id => some 0x000
  | .param => some 0x008
  | .ctrl => some 0x010
  | .cmd => some 0x018
  | .status => some 0x020
  | .errInfo => some 0x028
  | .intStatus => some 0x030
  | .intEnable => some 0x038
  | .nbits => some 0x040
  | .nrx => some 0x048
  | .snrStart => some 0x050
  | .snrEnd => some 0x058
  | .snrStep => some 0x060
  | .snrCur => some 0x068
  | .seed => some 0x070
  | .stream => some 0x078
  | .bitIdx => some 0x080
  | .gaussIdx => some 0x088
  | .errcnt => some 0x090
  | .bitcnt => some 0x098
  | .degenCnt => some 0x0A0
  | .ber => some 0x0A8
  | .sigma => some 0x0B0
  | .resultCount => some 0x0B8
  | .bits => some 0x0C0
  | .bhat => some 0x0C8
  | .complex r part => some (cregOffset r + partOffset part)
  | .den => some 0x180
  | .h i part => some (0x200 + i.val * 16 + partOffset part)
  | .nz i part => some (0x400 + i.val * 16 + partOffset part)
  | .y i part => some (0x600 + i.val * 16 + partOffset part)
  | .result k word => some (resultOffset k.val word.val)
  | .reserved => none

/-- The platform byte address of an aperture offset (R80; log 7). -/
def addressOf (off : Nat) : Nat := Config.base + off

/-- The aperture offset of a platform byte address, if it lies in the aperture (R80). -/
def offsetOf (addr : Nat) : Option Nat :=
  if Config.base ≤ addr ∧ addr < Config.base + Config.aperture then some (addr - Config.base) else none

/-- The entry of `H[a][r]` in its file (R50). R50 names the elements with a < 2 and r < 16; outside them the index wraps at 32 to stay in the
file, which is a DESIGN CHOICE no command and no host program reaches (log 25). -/
def hIdx (a r : Nat) : Fin 32 := Fin.ofNat 32 (16 * a + r)

/-- The entry of `NZ[r][t]` or `Y[r][t]` in its file (R51, R52). The elements named have r < 16 and t < 2; outside them the index wraps at 32,
a DESIGN CHOICE no command and no host program reaches (log 25). -/
def slotIdx (r t : Nat) : Fin 32 := Fin.ofNat 32 (2 * r + t)

/-- `H[a][r]` (R50) -/
def hAt (s : State) (a r : Nat) : Cplx := s.h[hIdx a r]

/-- `NZ[r][t]` (R51) -/
def nzAt (s : State) (r t : Nat) : Cplx := s.nz[slotIdx r t]

/-- `Y[r][t]` (R52) -/
def yAt (s : State) (r t : Nat) : Cplx := s.y[slotIdx r t]

/-- `X[a][t]`, antenna a and slot t (R49) -/
def xAt (s : State) (a t : Nat) : Cplx :=
  match a, t with
  | 0, 0 => s.x00
  | 0, _ => s.x01
  | _, 0 => s.x10
  | _, _ => s.x11

/-- R, the receive-antenna count a command works with (R40). While a command that reads it runs, 1 ≤ NRX ≤ 16 holds by the checks at
issue (R282); the bound RMAX on it matters in no run (log 12). -/
def antennas (s : State) : Nat := min s.nrx.toNat Config.rmax

/-- One part of a complex value. -/
def getPart : Part → Cplx → F64
  | .re, z => z.re
  | .im, z => z.im

/-- A complex value with one part replaced. -/
def setPart (v : F64) : Part → Cplx → Cplx
  | .re, z => ⟨v, z.im⟩
  | .im, z => ⟨z.re, v⟩

/-- A complex register outside the files. -/
def getComplex (s : State) : CReg → Cplx
  | .s1 => s.s1
  | .s2 => s.s2
  | .x00 => s.x00
  | .x01 => s.x01
  | .x10 => s.x10
  | .x11 => s.x11
  | .z1 => s.z1
  | .z2 => s.z2

/-- Write a complex register outside the files. -/
def setComplex (s : State) (z : Cplx) : CReg → State
  | .s1 => { s with s1 := z }
  | .s2 => { s with s2 := z }
  | .x00 => { s with x00 := z }
  | .x01 => { s with x01 := z }
  | .x10 => { s with x10 := z }
  | .x11 => { s with x11 := z }
  | .z1 => { s with z1 := z }
  | .z2 => { s with z2 := z }

/-- The order in which DRAWH fills the H file: receive antenna outer, transmit antenna inner (R173). -/
def hOrder (r : Nat) : List (Fin 32) := (List.range r).flatMap fun i => [hIdx 0 i, hIdx 1 i]

/-- The order in which DRAWN fills the NZ file: receive antenna outer, time slot inner (R174). -/
def nzOrder (r : Nat) : List (Fin 32) := (List.range r).flatMap fun i => [slotIdx i 0, slotIdx i 1]

/-- The (receive antenna, time slot) pairs in the order in which CHAN forms the samples (R180). -/
def slotOrder (r : Nat) : List (Nat × Nat) := (List.range r).flatMap fun i => [(i, 0), (i, 1)]

end Sys2Proof.Machine
end

