-- ==== Sys2Proof/Machine/Ops.lean ====
section
/-! DEFINITION. The shared operations: the RESULT memory (spec 10_state.md R54; 20_memory.md R83), the validation and issue of a command
(44_sequencer.md R260; 60_exceptions.md R281, R282, R287), error entry, which is the block's exception entry (R290), the clear,
which is its return (R295), the abort request (R265) and the end of a command (R262). -/

namespace Sys2Proof.Machine

/-! The RESULT memory. -/

/-- What a byte nothing has written reads as: DESIGN CHOICE, log 2. -/
def unwritten : Byte := 0#8

/-- The canonical form: offsets strictly rising, no byte equal to `unwritten`. -/
def Memory.wf : Memory → Bool
  | [] => true
  | c :: m => c.2 != unwritten && m.all (fun e => decide (c.1 < e.1)) && Memory.wf m

/-- The byte at an offset. -/
def readByte : Memory → Nat → Byte
  | [], _ => unwritten
  | c :: m, a => if c.1 = a then c.2 else readByte m a

/-- Write a byte, keeping the canonical form. -/
def writeByte : Memory → Nat → Byte → Memory
  | [], a, b => if b = unwritten then [] else [(a, b)]
  | c :: m, a, b =>
    if c.1 < a then c :: writeByte m a b
    else
      let rest := if c.1 = a then m else c :: m
      if b = unwritten then rest else (a, b) :: rest

/-- Write bytes at consecutive offsets. -/
def writeBytes : Memory → Nat → List Byte → Memory
  | m, _, [] => m
  | m, a, b :: bs => writeBytes (writeByte m a b) (a + 1) bs

/-- The 64-bit word at an offset, little-endian (R83). -/
def readWord (m : Memory) (a : Nat) : Word :=
  wordOfBytes ((List.range 8).map fun i => readByte m (a + i))

/-- Write the 64-bit word at an offset, little-endian (R83). -/
def writeWord (m : Memory) (a : Nat) (v : Word) : Memory := writeBytes m a (bytesOfWord v)

/-! The point set of a SWEEP (R250), in mathematical integers (R20). -/

/-- P, the number of points: floor((end - start) / step) + 1 (R250). Meaningful for step > 0 and start ≤ end. -/
def pointCount (s : State) : Nat :=
  ((s.snrEnd.toInt - s.snrStart.toInt) / s.snrStep.toInt + 1).toNat

/-- snr_k = start + k·step, which fits in 32 bits for k < P (R250). -/
def snrPoint (s : State) (k : Nat) : Snr :=
  BitVec.ofInt 32 (s.snrStart.toInt + k * s.snrStep.toInt)

/-! Errors. -/

/-- ERR_CODE INVALID_INPUT_SIZE (R280) -/
def codeInvalidInputSize : BitVec 8 := 1#8

/-- ERR_CODE ILLEGAL_COMMAND (R280) -/
def codeIllegalCommand : BitVec 8 := 3#8

/-- The causes of ILLEGAL_COMMAND (R113, R283). -/
def illegalCause : DecodeError → BitVec 8
  | .unknownOpcode => 1#8
  | .reservedBits => 2#8

/-- The NBITS group: NBITS_ZERO (1), NBITS_ODD (2), with the value each records (R281, R282). -/
def checkNbits (s : State) : Option (BitVec 8 × Word) :=
  if s.nbits = 0#64 then some (1#8, s.nbits)
  else if s.nbits.getLsbD 0 then some (2#8, s.nbits)
  else none

/-- The NRX group: NRX_ZERO (3), NRX_TOO_LARGE (4) (R281, R282). -/
def checkNrx (s : State) : Option (BitVec 8 × Word) :=
  if s.nrx = 0#64 then some (3#8, s.nrx)
  else if Config.rmax < s.nrx.toNat then some (4#8, s.nrx)
  else none

/-- The range group: STEP_NONPOSITIVE (5), RANGE_EMPTY (6), TOO_MANY_POINTS (7) (R281, R282). -/
def checkRange (s : State) : Option (BitVec 8 × Word) :=
  if s.snrStep.toInt ≤ 0 then some (5#8, s.snrStep.signExtend 64)
  else if s.snrEnd.toInt < s.snrStart.toInt then some (6#8, s.snrStart.signExtend 64)
  else if Config.maxPoints < pointCount s then some (7#8, BitVec.ofNat 64 (pointCount s))
  else none

/-- The checks a command makes at issue, in cause-number order; the first that fails is reported (R282, R287). -/
def validate (i : Instr) (s : State) : Option (BitVec 8 × Word) :=
  match i with
  | .nop => none
  | .drawb => none
  | .map => none
  | .enc _ => none
  | .drawh => checkNrx s
  | .drawn => checkNrx s
  | .chan => checkNrx s
  | .comb => checkNrx s
  | .det => none
  | .clracc => none
  | .cword => checkNrx s
  | .runpt => (checkNbits s).or (checkNrx s)
  | .sweep => (checkNbits s).or ((checkNrx s).or (checkRange s))

/-- raise Error(code, cause, info): the block's exception entry. No other state is saved and control goes nowhere (R290). -/
def raiseError (code cause : BitVec 8) (info : Word) (s : State) : State :=
  { s with
    state := .error
    errCode := code
    errCause := cause
    errInfo := info
    intStatus := setIntError s.intStatus }

/-- clear(): the return from the ERROR state, and from DONE, ABORTED and IDLE. No effect while BUSY (R295). -/
def clearBlock (s : State) : State :=
  if s.state = .busy then s
  else
    { s with
      state := .idle
      errCode := 0#8
      errCause := 0#8
      errInfo := 0#64
      drop := false
      degen := false }

/-- Is this opcode RUNPT or SWEEP? (R261, R265) -/
def isMultiStep (w : Word) : Bool := decide (opcOf w = 0x0B) || decide (opcOf w = 0x0C)

/-- The abort request: only while a RUNPT or SWEEP is BUSY; never DROP (R265). -/
def requestAbort (s : State) : State :=
  if s.state = .busy ∧ isMultiStep s.cmd = true then { s with abortReq := true } else s

/-- A CTRL write: bit 0 is CLR, bit 1 is ABORT, the others are ignored. At most one of the two has an effect (R33, R295). -/
def writeCtrl (v : Word) (s : State) : State :=
  let s1 := if v.getLsbD 0 then clearBlock s else s
  if v.getLsbD 1 then requestAbort s1 else s1

/-- end(X) for X = DONE or ABORTED (R262). -/
def endCmd (x : CmdState) (s : State) : State :=
  { s with
    state := x
    phase := .none
    abortReq := false
    intStatus := setIntDone s.intStatus }

/-- The phase in which a command starts (R260). -/
def startPhase : Instr → Phase
  | .sweep => .swStart
  | .runpt => .ptInit
  | .nop => .none
  | .drawb => .none
  | .map => .none
  | .enc _ => .none
  | .drawh => .none
  | .drawn => .none
  | .chan => .none
  | .comb => .none
  | .det => .none
  | .clracc => .none
  | .cword => .none

/-- The acceptance of a valid command: it becomes BUSY; SWEEP computes P (R260). -/
def accept (i : Instr) (s : State) : State :=
  { s with
    state := .busy
    abortReq := false
    phase := startPhase i
    p := if i = .sweep then pointCount s else s.p }

/-- issue(w), the effect of a host write of w to CMD (R260). While BUSY or in ERROR it is dropped (R87, R296). -/
def issue (w : Word) (s : State) : State :=
  if s.state = .busy ∨ s.state = .error then { s with drop := true }
  else
    let s1 := { s with cmd := w, degen := false }
    match decode w with
    | .error e => raiseError codeIllegalCommand (illegalCause e) w s1
    | .ok i =>
      match validate i s1 with
      | some (cause, info) => raiseError codeInvalidInputSize cause info s1
      | none => accept i s1

/-- The one core step of a unit command: its body, then end(DONE) (R261). -/
def unitStep (body : State → State) (s : State) : Host.Outcome State Fault Refusal :=
  .next (endCmd .done (body s))

end Sys2Proof.Machine
end

