-- ==== Sys2Proof/Machine/Channel.lean ====
section
/-! DEFINITION. Channel simulator: DRAWH, DRAWN, CHAN (spec 41_channel.md). -/

namespace Sys2Proof.Machine

/-- Fill entries of a file one after the other: each takes two consecutive Gaussian draws, real part before imaginary part, and holds
rscale(KN, (g_re, g_im)) (R170, R171, R173, R174). The triple is the file, GAUSS_IDX, and the index of the next free value. -/
def drawInto (g : Gen) (seed stream : Word) : List (Fin 32) → Vector Cplx 32 × Word × Nat → Vector Cplx 32 × Word × Nat
  | [], f => f
  | i :: rest, (file, idx, d) =>
    let gre := finitePattern (g.gauss seed stream idx)
    let gim := finitePattern (g.gauss seed stream (idx + 1#64))
    drawInto g seed stream rest (file.set i (rscale d kn ⟨gre, gim⟩), idx + 2#64, d + 2)

/-- DRAWH body (R173). -/
def drawhBody (g : Gen) (s : State) : State :=
  let f := drawInto g s.seed s.stream (hOrder (antennas s)) (s.h, s.gaussIdx, s.draws)
  { s with h := f.1, gaussIdx := f.2.1, draws := f.2.2 }

/-- DRAWN body (R174). -/
def drawnBody (g : Gen) (s : State) : State :=
  let f := drawInto g s.seed s.stream (nzOrder (antennas s)) (s.nz, s.gaussIdx, s.draws)
  { s with nz := f.1, gaussIdx := f.2.1, draws := f.2.2 }

/-- One received sample: the two products, their sum, then the scaled noise (R180). 18 operations. -/
def received (d : Nat) (h0 h1 x0 x1 : Cplx) (sg : F64) (n : Cplx) : Cplx :=
  cadd d (cadd (d + 2) (cmul (d + 4) h0 x0) (cmul (d + 10) h1 x1)) (rscale (d + 16) sg n)

/-- Form the samples of the listed (receive antenna, slot) pairs from the coefficients, matrix and noise of s (R180). -/
def chanInto (s : State) (sg : F64) : List (Nat × Nat) → Vector Cplx 32 × Nat → Vector Cplx 32 × Nat
  | [], f => f
  | (r, t) :: rest, (file, d) =>
    chanInto s sg rest
      (file.set (slotIdx r t) (received d (hAt s 0 r) (hAt s 1 r) (xAt s 0 t) (xAt s 1 t) sg (nzAt s r t)), d + 18)

/-- CHAN body (R180). -/
def chanBody (s : State) : State :=
  let sg := Sys2Proof.Machine.sigma s.snrCur
  let f := chanInto s sg (slotOrder (antennas s)) (s.y, s.draws)
  { s with sigma := sg, y := f.1, draws := f.2 }

/-- DRAWH (R173) -/
def execDrawh (s : State) : Host.Outcome State Fault Refusal := unitStep (drawhBody Config.gen) s

/-- DRAWN (R174) -/
def execDrawn (s : State) : Host.Outcome State Fault Refusal := unitStep (drawnBody Config.gen) s

/-- CHAN (R180) -/
def execChan (s : State) : Host.Outcome State Fault Refusal := unitStep chanBody s

end Sys2Proof.Machine
end

