-- ==== Sys2Proof/Machine/Combiner.lean ====
section
/-! DEFINITION. Conjugate-weighted combining equalizer: COMB (spec 42_combiner.md). -/

namespace Sys2Proof.Machine

/-- The terms of receive antenna r: the numerators of both statistics and the divisor, with h1 = `H[0][r]`, h2 = `H[1][r]`,
y1 = `Y[r][0]`, y2 = `Y[r][1]` (R200, R201). 35 operations. -/
def combTerm (s : State) (d r : Nat) : Cplx × Cplx × F64 :=
  let h1 := hAt s 0 r
  let h2 := hAt s 1 r
  let y1 := yAt s r 0
  let y2 := yAt s r 1
  (cadd d (cmul (d + 2) (conj h1) y1) (cmul (d + 8) h2 (conj y2)),
   csub (d + 14) (cmul (d + 16) (conj h2) y1) (cmul (d + 22) h1 (conj y2)),
   fadd (d + 28) (abs2 (d + 29) h1) (abs2 (d + 32) h2))

/-- The sums over receive antennas 0 to n, in increasing order from the r = 0 term itself (R201, R202). Antenna r has the 40
free-value indices from d + 40·r: 35 for its terms and 5 for adding them. -/
def combSum (s : State) (d : Nat) : Nat → Cplx × Cplx × F64
  | 0 => combTerm s d 0
  | n + 1 =>
    let acc := combSum s d n
    let e := d + 40 * (n + 1)
    let term := combTerm s e (n + 1)
    (cadd (e + 35) acc.1 term.1, cadd (e + 37) acc.2.1 term.2.1, fadd (e + 39) acc.2.2 term.2.2)

/-- COMB body: DEN, then one division of both sums, or, when the divisor is zero, degenerate(): the sentinel (+0.0, +0.0), the count
and the two DEGEN flags (R201, R202, R204, R285). The divisions have the 4 free-value indices after the sums'. -/
def combBody (s : State) : State :=
  let sum := combSum s s.draws (antennas s - 1)
  let d := s.draws + 40 * antennas s
  let zero := feq0 sum.2.2
  { s with
    den := sum.2.2
    draws := d + 4
    z1 := if zero then czero else cdivr d sum.1 sum.2.2
    z2 := if zero then czero else cdivr (d + 2) sum.2.1 sum.2.2
    degenCnt := if zero then s.degenCnt + 1#64 else s.degenCnt
    degen := if zero then true else s.degen
    intStatus := if zero then setIntDegen s.intStatus else s.intStatus }

/-- COMB (R201) -/
def execComb (s : State) : Host.Outcome State Fault Refusal := unitStep combBody s

end Sys2Proof.Machine
end

