-- ==== Sys2Proof/Machine/Detector.lean ====
section
/-! DEFINITION. Hard-decision detector and error accumulator: DET, CLRACC (spec 43_detector.md). -/

namespace Sys2Proof.Machine

/-- DET body (R221): decide, compare with BITS, accumulate with wrap. -/
def detBody (s : State) : State :=
  { s with
    bhat := pairBits (dec s.z1) (dec s.z2)
    errcnt := s.errcnt + BitVec.ofNat 64 (mismatches (dec s.z1) (dec s.z2) s.bits)
    bitcnt := s.bitcnt + 2#64 }

/-- CLRACC body (R222). -/
def clraccBody (s : State) : State :=
  { s with errcnt := 0#64, bitcnt := 0#64, degenCnt := 0#64 }

/-- DET (R221) -/
def execDet (s : State) : Host.Outcome State Fault Refusal := unitStep detBody s

/-- CLRACC (R222) -/
def execClracc (s : State) : Host.Outcome State Fault Refusal := unitStep clraccBody s

end Sys2Proof.Machine
end

