-- ==== Sys2Proof/Machine/Source.lean ====
section
/-! DEFINITION. Symbol source and STBC encoder: NOP, DRAWB, MAP, ENC (spec 40_source_encoder.md). A body is the command's pseudocode; its
meaning is that body followed by end(DONE) (44_sequencer.md R261). Bodies that draw take the generator as an argument (R8). -/

namespace Sys2Proof.Machine

/-- sym(b): the antipodal mapping of a bit, with imaginary part +0.0 (R140). -/
def sym (b : Bool) : Cplx := ⟨if b then 0x3FF0000000000000#64 else 0xBFF0000000000000#64, 0x0000000000000000#64⟩

/-- NOP body: skip (R141). -/
def nopBody (s : State) : State := s

/-- DRAWB body: two bits at BIT_IDX and BIT_IDX + 1, with wrap (R142, R20). -/
def drawbBody (g : Gen) (s : State) : State :=
  { s with
    bits := pairBits (g.bit s.seed s.stream s.bitIdx) (g.bit s.seed s.stream (s.bitIdx + 1#64))
    bitIdx := s.bitIdx + 2#64 }

/-- MAP body (R143). -/
def mapBody (s : State) : State :=
  { s with s1 := sym (s.bits.getLsbD 0), s2 := sym (s.bits.getLsbD 1) }

/-- sc(v): scaling by KN when NORM = 1, no arithmetic when NORM = 0 (R145). -/
def scaleSym (norm : Bool) (d : Nat) (v : Cplx) : Cplx := if norm then rscale d kn v else v

/-- ENC body: the Alamouti code matrix of S1 and S2, row = antenna, column = slot (R144, R145). -/
def encBody (norm : Bool) (s : State) : State :=
  { s with
    x00 := scaleSym norm s.draws s.s1
    x01 := scaleSym norm (s.draws + 2) (cneg (conj s.s2))
    x10 := scaleSym norm (s.draws + 4) s.s2
    x11 := scaleSym norm (s.draws + 6) (conj s.s1)
    draws := s.draws + 8 }

/-- NOP (R141) -/
def execNop (s : State) : Host.Outcome State Fault Refusal := unitStep nopBody s

/-- DRAWB (R142) -/
def execDrawb (s : State) : Host.Outcome State Fault Refusal := unitStep (drawbBody Config.gen) s

/-- MAP (R143) -/
def execMap (s : State) : Host.Outcome State Fault Refusal := unitStep mapBody s

/-- ENC (R145) -/
def execEnc (norm : Bool) (s : State) : Host.Outcome State Fault Refusal := unitStep (encBody norm) s

end Sys2Proof.Machine
end

