-- ==== Sys2Proof/Machine/Sequencer.lean ====
section
/-! DEFINITION. Pipeline and sweep sequencer: CWORD, RUNPT, SWEEP (spec 44_sequencer.md). -/

namespace Sys2Proof.Machine

/-- cword_body(): the eight bodies in pipeline order, encoding with NORM = 1 whatever CMD.NORM is (R240). -/
def cwordBody (g : Gen) (s : State) : State :=
  detBody (combBody (chanBody (drawnBody g (drawhBody g (encBody true (mapBody (drawbBody g s)))))))

/-- point_init(); `sweep` tells whether the opcode is SWEEP, since only RUNPT clears DEGEN_CNT here (R251). -/
def pointInit (sweep : Bool) (s : State) : State :=
  { s with
    sigma := Sys2Proof.Machine.sigma s.snrCur
    errcnt := 0#64
    bitcnt := 0#64
    bitIdx := 0#64
    gaussIdx := 0#64
    cwdone := 0#64
    degenCnt := if sweep then s.degenCnt else 0#64 }

/-- PT_INIT: point_init(), then the codewords (R261). -/
def pointStart (sweep : Bool) (s : State) : State := { pointInit sweep s with phase := .ptCw }

/-- BER <- ber(ERRCNT, BITCNT) (R252). -/
def finalisePoint (s : State) : State :=
  { s with ber := Sys2Proof.Machine.ber s.errcnt s.bitcnt }

/-- Record SWEEP point K: the four words of its RESULT entry, and RESULT_COUNT (R253, R54). -/
def recordPoint (s : State) : State :=
  let m0 := writeWord s.result (resultOffset s.k 0) (s.snrCur.signExtend 64)
  let m1 := writeWord m0 (resultOffset s.k 1) s.errcnt
  let m2 := writeWord m1 (resultOffset s.k 2) s.ber
  let m3 := writeWord m2 (resultOffset s.k 3) s.bitcnt
  { s with result := m3, resultCount := BitVec.ofNat 64 (s.k + 1) }

/-- SW_START: RESULT_COUNT, DEGEN_CNT and K are 0, the first point is selected (R255, R261). -/
def sweepStart (s : State) : State :=
  { s with
    resultCount := 0#64
    degenCnt := 0#64
    k := 0
    snrCur := snrPoint s 0
    stream := 0#64
    phase := .ptInit }

/-- One codeword of a point; the point's last one leads to PT_FINAL, whose own step ends the command (R254, R261). R302's example has the
last codeword of a RUNPT set DEGEN and DONE in one step: that step sets DEGEN alone here, a DESIGN CHOICE between the two rules (log 26). -/
def pointCodeword (g : Gen) (s : State) : State :=
  let s1 := cwordBody g s
  let s2 := { s1 with cwdone := s1.cwdone + 1#64 }
  { s2 with phase := if s2.cwdone = s2.nbits / 2#64 then .ptFinal else s2.phase }

/-- PT_FINAL of a SWEEP: record point K, then end after the last point or go to the next one (R253, R261). -/
def sweepFinal (s : State) : State :=
  let s1 := recordPoint (finalisePoint s)
  let s2 := { s1 with k := s1.k + 1 }
  if s2.k = s2.p then endCmd .done s2
  else { s2 with snrCur := snrPoint s2 s2.k, stream := BitVec.ofNat 64 s2.k, phase := .ptInit }

/-- The core step of RUNPT (`sweep` false) and of SWEEP (`sweep` true): the abort check, from which SW_START is exempt, then the step of
the phase (R261, R266). DONE is set by the PT_FINAL step and not by the last codeword's, as R254 and R261 have it and R302's example does not:
DESIGN CHOICE (log 26). No step is stated for phase NONE: stuck (log 11). -/
def sequencerStep (g : Gen) (sweep : Bool) (s : State) : Host.Outcome State Fault Refusal :=
  if s.abortReq = true ∧ s.phase ≠ .swStart then .next (endCmd .aborted s)
  else
    match s.phase with
    | .none => .fault .noPhase
    | .swStart => .next (sweepStart s)
    | .ptInit => .next (pointStart sweep s)
    | .ptCw => .next (pointCodeword g s)
    | .ptFinal => .next (if sweep then sweepFinal s else endCmd .done (finalisePoint s))

/-- CWORD (R240) -/
def execCword (s : State) : Host.Outcome State Fault Refusal := unitStep (cwordBody Config.gen) s

/-- RUNPT (R254) -/
def execRunpt (s : State) : Host.Outcome State Fault Refusal := sequencerStep Config.gen false s

/-- SWEEP (R255) -/
def execSweep (s : State) : Host.Outcome State Fault Refusal := sequencerStep Config.gen true s

end Sys2Proof.Machine
end

