-- ==== Sys2Proof/Machine/Dispatch.lean ====
section
/-! DEFINITION. The meaning of each command: one core step of the command in CMD (spec 44_sequencer.md R261). One arm per constructor of Instr. -/

namespace Sys2Proof.Machine

def exec (i : Instr) (s : State) : Host.Outcome State Fault Refusal :=
  match i with
  | .nop => Sys2Proof.Machine.execNop s
  | .drawb => Sys2Proof.Machine.execDrawb s
  | .map => Sys2Proof.Machine.execMap s
  | .enc norm => Sys2Proof.Machine.execEnc norm s
  | .drawh => Sys2Proof.Machine.execDrawh s
  | .drawn => Sys2Proof.Machine.execDrawn s
  | .chan => Sys2Proof.Machine.execChan s
  | .comb => Sys2Proof.Machine.execComb s
  | .det => Sys2Proof.Machine.execDet s
  | .clracc => Sys2Proof.Machine.execClracc s
  | .cword => Sys2Proof.Machine.execCword s
  | .runpt => Sys2Proof.Machine.execRunpt s
  | .sweep => Sys2Proof.Machine.execSweep s

end Sys2Proof.Machine
end

