-- ==== Sys2Proof/Machine/HostPort.lean ====
section
/-! DEFINITION. The host's accesses to the aperture (spec 20_memory.md R80 to R89; 10_state.md R30 to R54). -/

namespace Sys2Proof.Machine

/-- The value a register reads as, where the spec states one (R30 to R54): RO and RW registers read their contents, CTRL and reserved
offsets read 0, 32-bit SNR values are sign-extended, unused bits read 0. -/
def readReg (s : State) : Reg → Word
  | .id => Config.idValue
  | .param => Config.paramValue
  | .ctrl => 0#64
  | .cmd => s.cmd
  | .status => statusWord s
  | .errInfo => s.errInfo
  | .intStatus => s.intStatus.setWidth 64
  | .intEnable => s.intEnable.setWidth 64
  | .nbits => s.nbits
  | .nrx => s.nrx
  | .snrStart => s.snrStart.signExtend 64
  | .snrEnd => s.snrEnd.signExtend 64
  | .snrStep => s.snrStep.signExtend 64
  | .snrCur => s.snrCur.signExtend 64
  | .seed => s.seed
  | .stream => s.stream
  | .bitIdx => s.bitIdx
  | .gaussIdx => s.gaussIdx
  | .errcnt => s.errcnt
  | .bitcnt => s.bitcnt
  | .degenCnt => s.degenCnt
  | .ber => s.ber
  | .sigma => s.sigma
  | .resultCount => s.resultCount
  | .bits => s.bits.setWidth 64
  | .bhat => s.bhat.setWidth 64
  | .complex r part => getPart part (getComplex s r)
  | .den => s.den
  | .h i part => getPart part s.h[i]
  | .nz i part => getPart part s.nz[i]
  | .y i part => getPart part s.y[i]
  | .result k word => readWord s.result (resultOffset k.val word.val)
  | .reserved => 0#64

/-- The registers that read exactly even while BUSY (R88); RESULT entries below RESULT_COUNT do in every state (R54), and a reserved
offset always reads 0 (R82). -/
def exactWhileBusy : Reg → Bool
  | .id | .param | .cmd | .status | .errInfo | .intStatus | .intEnable | .nbits | .nrx | .snrStart | .snrEnd | .snrStep
  | .snrCur | .seed | .stream | .resultCount | .reserved => true
  | .ctrl | .bitIdx | .gaussIdx | .errcnt | .bitcnt | .degenCnt | .ber | .sigma | .bits | .bhat | .complex _ _ | .den
  | .h _ _ | .nz _ _ | .y _ _ | .result _ _ => false

/-- Does the spec state the value that this read returns? (R54, R58, R82, R88; logs 3 and 4) -/
def readSpecified (s : State) (r : Reg) : Bool :=
  match r with
  | .result k _ => decide (k.val < s.resultCount.toNat)
  | _ => decide (s.state ≠ .busy) || exactWhileBusy r

/-- MemRead(off, 8): the register's value, or a free value where the spec leaves it unspecified. Nothing of the block changes (R85,
R86, R88). -/
def memRead (off : Nat) (s : State) : State :=
  if readSpecified s (regAt off) then { s with resp := some (readReg s (regAt off)) }
  else { s with resp := some (Config.freeRead s.draws), draws := s.draws + 1 }

/-- The write rule of each register (R30 to R54): RW registers store the written bits they have, RO registers and reserved offsets
ignore the write, CMD issues, CTRL acts, INT_STATUS clears. -/
def writeReg (s : State) (v : Word) : Reg → State
  | .id => s
  | .param => s
  | .ctrl => writeCtrl v s
  | .cmd => issue v s
  | .status => s
  | .errInfo => s
  | .intStatus => { s with intStatus := acknowledge s.intStatus v }
  | .intEnable => { s with intEnable := v.setWidth 3 }
  | .nbits => { s with nbits := v }
  | .nrx => { s with nrx := v }
  | .snrStart => { s with snrStart := v.setWidth 32 }
  | .snrEnd => { s with snrEnd := v.setWidth 32 }
  | .snrStep => { s with snrStep := v.setWidth 32 }
  | .snrCur => { s with snrCur := v.setWidth 32 }
  | .seed => { s with seed := v }
  | .stream => { s with stream := v }
  | .bitIdx => { s with bitIdx := v }
  | .gaussIdx => { s with gaussIdx := v }
  | .errcnt => s
  | .bitcnt => s
  | .degenCnt => s
  | .ber => s
  | .sigma => s
  | .resultCount => s
  | .bits => { s with bits := v.setWidth 2 }
  | .bhat => s
  | .complex r part => setComplex s (setPart v part (getComplex s r)) r
  | .den => s
  | .h i part => { s with h := s.h.set i (setPart v part s.h[i]) }
  | .nz i part => { s with nz := s.nz.set i (setPart v part s.nz[i]) }
  | .y i part => { s with y := s.y.set i (setPart v part s.y[i]) }
  | .result _ _ => s
  | .reserved => s

/-- The registers whose writes are not dropped while BUSY (R87). -/
def busyWritable : Reg → Bool
  | .ctrl | .intStatus | .intEnable | .reserved => true
  | .id | .param | .cmd | .status | .errInfo | .nbits | .nrx | .snrStart | .snrEnd | .snrStep | .snrCur | .seed | .stream
  | .bitIdx | .gaussIdx | .errcnt | .bitcnt | .degenCnt | .ber | .sigma | .resultCount | .bits | .bhat | .complex _ _ | .den
  | .h _ _ | .nz _ _ | .y _ _ | .result _ _ => false

/-- MemWrite(off, 8, v): the register's write rule, subject to the busy-drop rule (R85, R87; log 20). -/
def memWrite (off : Nat) (v : Word) (s : State) : State :=
  let s1 := { s with resp := none }
  if s.state = .busy ∧ busyWritable (regAt off) = false then { s1 with drop := true }
  else writeReg s1 v (regAt off)

/-- One step of the host: an admitted access, or the bus error of an access the block does not admit (R84, R85; log 8). -/
def hostStep (a : Access) (s : State) : Host.Outcome State Fault Refusal :=
  if a.wellFormed then
    match a with
    | .read _ off => .next (memRead off s)
    | .write _ off v => .next (memWrite off v s)
  else .fault (.busError a.width a.off)

end Sys2Proof.Machine
end

