-- ==== Sys2Proof/Machine/Turns.lean ====
section
/-! DEFINITION. The turns of the agents and of the reset input (spec 00_scope.md R21; 20_memory.md R91; 44_sequencer.md R261; 70_reset_and_hazards.md
R330), and how a command word is placed where the core takes its next step from. Step.lean calls these. -/

namespace Sys2Proof.Machine

/-- The core's turn: while BUSY it has exactly one enabled step, that of the command in CMD; otherwise it has none and the
machine waits unchanged (R261, R315; logs 9 and 11). -/
def coreTurn (s : State) : Host.Outcome State Fault Refusal :=
  if s.state = .busy then
    match decode s.cmd with
    | .ok i => exec i s
    | .error _ => .refused (.illegalWordWhileBusy s.cmd)
  else .next s

/-- The reset input: the reset state; the coming turns and the free values of the model go on (R330; log 14). -/
def applyReset (s : State) : State :=
  { State.reset with draws := s.draws, events := s.events }

/-- The turn of one event. -/
def takeEvent (e : Event) (s : State) : Host.Outcome State Fault Refusal :=
  match e with
  | .host a => hostStep a s
  | .core => coreTurn s
  | .reset => .next (applyReset s)

/-- The next turn: the first coming event; when none is left, the core's (R91; log 10). -/
def nextTurn (s : State) : Host.Outcome State Fault Refusal :=
  match s.events with
  | [] => coreTurn s
  | e :: rest => takeEvent e { s with events := rest }

/-- The state in which the word w is the running command and the core has the next turn: what issue leaves after accepting w (R260),
STATUS.DEGEN cleared included, with a core turn put first. DESIGN CHOICE (log 10): the word is placed from any state and without the checks
of an issue, an illegal word too, and the rest of the state stays as it was. -/
def placeCommand (w : Word) (s : State) : State :=
  let s1 := { s with cmd := w, degen := false, state := CmdState.busy, abortReq := false, events := .core :: s.events }
  match decode w with
  | .ok i => accept i s1
  | .error _ => s1

end Sys2Proof.Machine
end

