-- ==== Sys2Proof/Machine/Step.lean ====
section
/-! DEFINITION. One step of the machine, and the host's way to place a command word. -/

namespace Sys2Proof.Machine

/-- One step: one turn of one agent (spec 00_scope.md R21; 20_memory.md R91). -/
def step (s : State) : Host.Outcome State Fault Refusal := nextTurn s

/-- s with the command word of the bits w placed so that the next step is the first core step of that command (log 10). -/
def State.withFetchWord (s : State) (nbits w : Nat) : State :=
  placeCommand (BitVec.ofNat 64 (w % 2 ^ nbits)) s

end Sys2Proof.Machine
end

