-- ==== Sys2Proof/Machine/HostProgram.lean ====
section
/-! DEFINITION. Host programs: the host assembly, its pseudo-instructions, its encoding and its runs (spec 30_encoding.md R117 to R119). The
block runs no program; these definitions say what the host agent does with the port (log 21). -/

namespace Sys2Proof.Machine

/-- `<reg>`: a register or element name, or a numeric offset (R117). -/
inductive Target where
  | named (r : Reg)
  | numeric (off : Nat)
deriving DecidableEq, Repr

/-- `<field>`: a field name of the register's rule, or none for all 64 bits (R117). Which register has which is `fieldBits`. -/
inductive Field where
  | whole
  /-- of STATUS (R35); DEGEN also of INT_STATUS and INT_ENABLE (R37) -/
  | state | drop | degen | errCode | errCause
  /-- of INT_STATUS and INT_ENABLE (R37) -/
  | done | error
  /-- of CMD (R34, R110) -/
  | opc | norm
  /-- of CTRL, which reads 0 (R33) -/
  | clr | abort
  /-- of PARAM (R32) -/
  | rmax | maxPoints
  /-- of BITS (R47) -/
  | b1 | b2
  /-- of BHAT (R47) -/
  | bh1 | bh2
deriving DecidableEq, Repr

/-- One statement of the host assembly (R117). -/
inductive Stmt where
  | wr (t : Target) (v : Word)
  | rd (t : Target)
  | label (name : String)
  | beq (t : Target) (f : Field) (v : Word) (dest : String)
  | bne (t : Target) (f : Field) (v : Word) (dest : String)
deriving DecidableEq, Repr

/-- A complex register or file entry, for WRC (R118), by the indices R50 to R52 give it: no other element has a name (log 25). -/
inductive ComplexTarget where
  | creg (r : CReg)
  | h (a : Fin 2) (r : Fin 16)
  | nz (r : Fin 16) (t : Fin 2)
  | y (r : Fin 16) (t : Fin 2)
deriving DecidableEq, Repr

/-- The pseudo-instructions (R118). -/
inductive Pseudo where
  | cmd (i : Instr)
  | wrc (c : ComplexTarget) (re im : F64)
  | wait
  | clr
  | abort
  | ack (mask : Word)
deriving DecidableEq, Repr

/-- The offset of a target. A reserved word has no name, so a target never names one; 0x0D0, the first reserved offset, stands in. -/
def targetOffset : Target → Nat
  | .named r => (regOffset r).getD 0x0D0
  | .numeric off => off

/-- The register a target stands for: a numeric offset is the register it is the offset of (R30). -/
def targetReg : Target → Reg
  | .named r => r
  | .numeric off => regAt off

/-- The lowest bit and the width of a field in its register, none where the register's rule gives it no such field (R32 to R35, R37, R47,
R117). -/
def fieldBits : Reg → Field → Option (Nat × Nat)
  | _, .whole => some (0, 64)
  | .status, .state => some (0, 3)
  | .status, .drop => some (3, 1)
  | .status, .degen => some (4, 1)
  | .status, .errCode => some (8, 8)
  | .status, .errCause => some (16, 8)
  | .intStatus, .done => some (0, 1)
  | .intStatus, .error => some (1, 1)
  | .intStatus, .degen => some (2, 1)
  | .intEnable, .done => some (0, 1)
  | .intEnable, .error => some (1, 1)
  | .intEnable, .degen => some (2, 1)
  | .cmd, .opc => some (0, 8)
  | .cmd, .norm => some (8, 1)
  | .ctrl, .clr => some (0, 1)
  | .ctrl, .abort => some (1, 1)
  | .param, .rmax => some (0, 16)
  | .param, .maxPoints => some (16, 16)
  | .bits, .b1 => some (0, 1)
  | .bits, .b2 => some (1, 1)
  | .bhat, .bh1 => some (0, 1)
  | .bhat, .bh2 => some (1, 1)
  | _, _ => none

/-- The field of a value read from a register, as an unsigned number in a word (R117). -/
def fieldOf (r : Reg) (f : Field) (v : Word) : Option Word :=
  (fieldBits r f).map fun p => (v.extractLsb' p.1 p.2).setWidth 64

/-- The register of a part of a complex target (R48 to R53; log 25). -/
def complexReg : ComplexTarget → Part → Reg
  | .creg r, part => .complex r part
  | .h a r, part => .h (hIdx a.val r.val) part
  | .nz r t, part => .nz (slotIdx r.val t.val) part
  | .y r t, part => .y (slotIdx r.val t.val) part

/-- The expansion of a pseudo-instruction (R118). Every WAIT uses the label Lw the rule writes; `labelPos` says which Lw a branch means. -/
def expand : Pseudo → List Stmt
  | .cmd i => [.wr (.named .cmd) (encode i)]
  | .wrc c re im => [.wr (.named (complexReg c .re)) re, .wr (.named (complexReg c .im)) im]
  | .wait => [.label "Lw", .beq (.named .status) .state 1#64 "Lw"]
  | .clr => [.wr (.named .ctrl) 1#64]
  | .abort => [.wr (.named .ctrl) 2#64]
  | .ack mask => [.wr (.named .intStatus) mask]

/-- The bus transaction of a statement: one write, one read, or none for a label (R117, R119). -/
def transaction : Stmt → Option Access
  | .wr t v => some (.write 8 (targetOffset t) v)
  | .rd t => some (.read 8 (targetOffset t))
  | .label _ => none
  | .beq t _ _ _ => some (.read 8 (targetOffset t))
  | .bne t _ _ _ => some (.read 8 (targetOffset t))

/-- The transactions of a program's statements as written, each once. The transactions of a run, in which a loop repeats them, are
`encodeRun`'s (R119). -/
def encodeProgram (prog : List Stmt) : List Access := prog.filterMap transaction

/-- The statement at which a branch at `pos` continues (R117). Where the name stands in the program more than once, as Lw does after two
WAITs, R117 does not say which label is meant. DESIGN CHOICE (log 24): the last one before the branch, so that every WAIT polls in its own
loop as R118 says, and the first one after it when none stands before. -/
def labelPos (prog : List Stmt) (pos : Nat) (name : String) : Option Nat :=
  ((List.range pos).reverse.find? fun i => decide (prog[i]? = some (.label name))).or
    (prog.findIdx? fun st => decide (st = .label name))

/-- Where BEQ and BNE continue: at the label when the branch is taken, at the next statement otherwise. -/
def branchTo (prog : List Stmt) (pos : Nat) (dest : String) (taken : Bool) : Option Nat :=
  if taken then labelPos prog pos dest else some (pos + 1)

/-- The statement after the one at `pos`, chosen by the value its read returned (R117). None when the label is missing or the register has
no such field. -/
def nextPos (prog : List Stmt) (pos : Nat) (st : Stmt) (value : Word) : Option Nat :=
  match st with
  | .wr _ _ => some (pos + 1)
  | .rd _ => some (pos + 1)
  | .label _ => some (pos + 1)
  | .beq t f v dest => (fieldOf (targetReg t) f value).bind fun x => branchTo prog pos dest (decide (x = v))
  | .bne t f v dest => (fieldOf (targetReg t) f value).bind fun x => branchTo prog pos dest (decide (x ≠ v))

/-- One statement of a host program on the block: its access as one host step, then the choice of the next statement. Nothing when the
program has ended, the next statement is not defined, or the access gets a bus error. -/
def hostStatement (prog : List Stmt) (pos : Nat) (s : State) : Option (Nat × State) :=
  match prog[pos]? with
  | none => none
  | some st =>
    match transaction st with
    | none => some (pos + 1, s)
    | some a =>
      match hostStep a s with
      | .next t => (nextPos prog pos st (t.resp.getD 0#64)).map fun q => (q, t)
      | .fault _ => none
      | .refused _ => none

/-! Runs of a host program: what the interleaving with the core makes of it (R21, R91, R119). -/

/-- The state after n turns of the core, none where one of them stops. -/
def coreTurns : Nat → State → Option State
  | 0, s => some s
  | n + 1, s =>
    match coreTurn s with
    | .next t => coreTurns n t
    | .fault _ => none
    | .refused _ => none

/-- What a host program has done: its transactions in order, each with the value a read returned; the position it has reached; the state
of the block. -/
structure HostRun where
  log : List (Access × Option Word)
  pos : Nat
  state : State
deriving DecidableEq, Repr

/-- The entry of a statement in the list of transactions: none for a label (R117, R119). -/
def logged (st : Stmt) (s : State) : List (Access × Option Word) :=
  (transaction st).toList.map fun a => (a, s.resp)

/-- A run of a host program from the statement at `pos`. The schedule says how many core turns come before each statement executed, so every
interleaving of the two agents is some schedule; the run ends with it or with the program. None where a statement or a core turn stops. -/
def hostRun (prog : List Stmt) : List Nat → Nat → State → Option HostRun
  | [], pos, s => some ⟨[], pos, s⟩
  | n :: sched, pos, s =>
    match prog[pos]? with
    | none => some ⟨[], pos, s⟩
    | some st =>
      (coreTurns n s).bind fun t => (hostStatement prog pos t).bind fun q =>
        (hostRun prog sched q.1 q.2).map fun r => { r with log := logged st q.2 ++ r.log }

/-- The encoding of a run: the list of its bus transactions, one read for each poll of a WAIT (R119). -/
def encodeRun (prog : List Stmt) (sched : List Nat) (s : State) : Option (List Access) :=
  (hostRun prog sched 0 s).map fun r => r.log.map Prod.fst

end Sys2Proof.Machine
end

