-- ==== Sys2Proof/Safety.lean ====
section
/-! DEFINITION. What the claims call a legal state: the invariant of the block (spec 10_state.md R35, R46, R54 to R56; 44_sequencer.md R241, R250 to R253,
R260 to R262; 60_exceptions.md R280 to R283, R290, R292, R295), and what a turn that cannot stop is. -/

namespace Sys2Proof.Machine

/-- The RESULT memory has its canonical form and lists only offsets of its own region (R54, R81; log 2). -/
def MemoryInv (s : State) : Prop :=
  Memory.wf s.result = true ∧ ∀ c ∈ s.result, 0x1000 ≤ c.1 ∧ c.1 < 0x3000

/-- The error record: in ERROR a code and a cause that R281 or R283 gives, in every other state none (R280, R290, R295; U13). -/
def ErrorInv (s : State) : Prop :=
  if s.state = .error then
    (s.errCode = codeInvalidInputSize ∧ 1 ≤ s.errCause.toNat ∧ s.errCause.toNat ≤ 7) ∨
    (s.errCode = codeIllegalCommand ∧ 1 ≤ s.errCause.toNat ∧ s.errCause.toNat ≤ 2)
  else s.errCode = 0#8 ∧ s.errCause = 0#8 ∧ s.errInfo = 0#64

/-- The antenna count the running command was validated for (R281, R282). -/
def NrxInv (s : State) : Prop := 1 ≤ s.nrx.toNat ∧ s.nrx.toNat ≤ Config.rmax

/-- The bit count a running RUNPT or SWEEP was validated for (R281, R282). -/
def NbitsInv (s : State) : Prop := 0 < s.nbits.toNat ∧ s.nbits.toNat % 2 = 0

/-- The range a running SWEEP was validated for, and its P (R250, R260, R281). -/
def RangeInv (s : State) : Prop :=
  0 < s.snrStep.toInt ∧ s.snrStart.toInt ≤ s.snrEnd.toInt ∧ s.p = pointCount s ∧ s.p ≤ Config.maxPoints

/-- Inside a point, the counters and draw indices follow CWDONE: two bits and 8R Gaussians a codeword (R241, R251, R221). -/
def CountersInv (s : State) : Prop :=
  s.bitcnt.toNat = 2 * s.cwdone.toNat ∧ s.errcnt.toNat ≤ s.bitcnt.toNat ∧
  s.bitIdx.toNat = 2 * s.cwdone.toNat ∧ s.gaussIdx = BitVec.ofNat 64 (8 * s.nrx.toNat * s.cwdone.toNat)

/-- How far a point has come in each phase (R251, R261). -/
def PointInv (s : State) : Prop :=
  (s.phase = .ptCw → s.cwdone.toNat < s.nbits.toNat / 2 ∧ CountersInv s) ∧
  (s.phase = .ptFinal → s.cwdone.toNat = s.nbits.toNat / 2 ∧ CountersInv s)

/-- A running SWEEP past SW_START works on point K: SNR_CUR, STREAM and RESULT_COUNT are that point's (R253, R255). -/
def SweepPointInv (s : State) : Prop :=
  s.phase ≠ .swStart →
    s.k < s.p ∧ s.resultCount = BitVec.ofNat 64 s.k ∧ s.stream = BitVec.ofNat 64 s.k ∧ s.snrCur = snrPoint s s.k

/-- What holds while command i runs (R260, R261, R282, R292). -/
def RunningInv (i : Instr) (s : State) : Prop :=
  match i with
  | .nop => s.phase = .none ∧ s.abortReq = false
  | .drawb => s.phase = .none ∧ s.abortReq = false
  | .map => s.phase = .none ∧ s.abortReq = false
  | .enc _ => s.phase = .none ∧ s.abortReq = false
  | .drawh => s.phase = .none ∧ s.abortReq = false ∧ NrxInv s
  | .drawn => s.phase = .none ∧ s.abortReq = false ∧ NrxInv s
  | .chan => s.phase = .none ∧ s.abortReq = false ∧ NrxInv s
  | .comb => s.phase = .none ∧ s.abortReq = false ∧ NrxInv s
  | .det => s.phase = .none ∧ s.abortReq = false
  | .clracc => s.phase = .none ∧ s.abortReq = false
  | .cword => s.phase = .none ∧ s.abortReq = false ∧ NrxInv s
  | .runpt => s.phase ≠ .none ∧ s.phase ≠ .swStart ∧ NbitsInv s ∧ NrxInv s ∧ PointInv s
  | .sweep => s.phase ≠ .none ∧ NbitsInv s ∧ NrxInv s ∧ RangeInv s ∧ PointInv s ∧ SweepPointInv s

/-- The sequencer: at rest outside BUSY, and inside it running the legal word in CMD (R55, R56, R260 to R262). -/
def SequencerInv (s : State) : Prop :=
  (s.state ≠ .busy → s.phase = .none ∧ s.abortReq = false) ∧
  (s.state = .busy → ∃ i, decode s.cmd = .ok i ∧ RunningInv i s)

/-- The invariant of the block. -/
structure LegalState (s : State) : Prop where
  /-- the RESULT memory -/
  memory : MemoryInv s
  /-- the error record -/
  error : ErrorInv s
  /-- the sequencer -/
  sequencer : SequencerInv s
  /-- RESULT_COUNT never passes MAX_POINTS (R46, R281) -/
  count : s.resultCount.toNat ≤ Config.maxPoints

/-- The next turn is no access the block answers with a bus error (R84, U6): the premise under which a claim assumes no fault. -/
def NoBusError (s : State) : Prop :=
  ∀ a rest, s.events = .host a :: rest → a.wellFormed = true

/-- The run of a command has ended (R264). -/
def Ended (s : State) : Prop := s.state ≠ .busy

end Sys2Proof.Machine
end

