-- ==== Sys2Proof/Certificates/Slice0/Obligations.lean ====
section
/-! DEFINITION. The statements for the provers, from the numbered rules of spec/. The words of this file's own are in Sys2Proof.Claims: they say
again, from the spec, what a statement needs (the end of a command, the error record, the value of a binary64 pattern). -/

namespace Sys2Proof.Claims

open Sys2Proof.Machine

/-! Commands and their lifecycle. -/

/-- end(DONE) (R262). -/
def done (t : State) : State :=
  { t with state := .done, phase := .none, abortReq := false, intStatus := t.intStatus ||| 1#3 }

/-- end(ABORTED) (R262). -/
def aborted (t : State) : State :=
  { t with state := .aborted, phase := .none, abortReq := false, intStatus := t.intStatus ||| 1#3 }

/-- The states from which a command is accepted (R260). -/
def takesCommands (s : State) : Prop := s.state = .idle ∨ s.state = .done ∨ s.state = .aborted

/-- The legal words, by the three conditions of R112. -/
def legal (w : Word) : Prop :=
  (w.extractLsb' 0 8).toNat ≤ 0x0C ∧ w.extractLsb' 9 55 = 0#55 ∧ (w.getLsbD 8 = false ∨ w.extractLsb' 0 8 = 3#8)

/-- The causes of INVALID_INPUT_SIZE in their order: whether each applies, its number, the value it records (R281). -/
def sizeCauses (s : State) : List (Bool × Nat × Word) :=
  let points := (s.snrEnd.toInt - s.snrStart.toInt) / s.snrStep.toInt + 1
  [(decide (s.nbits.toNat = 0), 1, s.nbits),
   (decide (s.nbits.toNat % 2 = 1), 2, s.nbits),
   (decide (s.nrx.toNat = 0), 3, s.nrx),
   (decide (16 < s.nrx.toNat), 4, s.nrx),
   (decide (s.snrStep.toInt ≤ 0), 5, s.snrStep.signExtend 64),
   (decide (s.snrEnd.toInt < s.snrStart.toInt), 6, s.snrStart.signExtend 64),
   (decide (256 < points), 7, BitVec.ofInt 64 points)]

/-- The causes each command checks (R282). -/
def checkedCauses : Instr → List Nat
  | .nop | .drawb | .map | .enc _ | .det | .clracc => []
  | .drawh | .drawn | .chan | .comb | .cword => [3, 4]
  | .runpt => [1, 2, 3, 4]
  | .sweep => [1, 2, 3, 4, 5, 6, 7]

/-- The first check of a command that fails, in cause-number order (R282, R287). -/
def firstFailure (i : Instr) (s : State) : Option (Nat × Word) :=
  ((sizeCauses s).find? fun c => c.1 && (checkedCauses i).contains c.2.1).map fun c => c.2

/-- The phase a command starts in (R260). -/
def firstPhase : Instr → Phase
  | .sweep => .swStart
  | .runpt => .ptInit
  | .nop | .drawb | .map | .enc _ | .drawh | .drawn | .chan | .comb | .det | .clracc | .cword => .none

/-- The entry of a file at an index. -/
def entry (v : Vector Cplx 32) (i : Nat) : Cplx := v[i]?.getD ⟨0#64, 0#64⟩

/-- The commands that run the whole pipeline: they write every register a unit command writes (R60). -/
def runsPipeline : Instr → Bool
  | .cword | .runpt | .sweep => true
  | .nop | .drawb | .map | .enc _ | .drawh | .drawn | .chan | .comb | .det | .clracc => false

/-- The rows of R60 that name unit commands, DEGEN and INT_STATUS.DEGEN with COMB's (R204): the unit commands of the row, and that its
registers hold in t what they hold in s. -/
def unitWrites : List (List Instr × (State → State → Prop)) :=
  [([.drawb], fun s t => t.bits = s.bits ∧ t.bitIdx = s.bitIdx),
   ([.map], fun s t => t.s1 = s.s1 ∧ t.s2 = s.s2),
   ([.enc false, .enc true], fun s t => t.x00 = s.x00 ∧ t.x01 = s.x01 ∧ t.x10 = s.x10 ∧ t.x11 = s.x11),
   ([.drawh], fun s t => t.h = s.h),
   ([.drawn], fun s t => t.nz = s.nz),
   ([.drawh, .drawn], fun s t => t.gaussIdx = s.gaussIdx),
   ([.chan], fun s t => t.y = s.y ∧ t.sigma = s.sigma),
   ([.comb], fun s t => t.z1 = s.z1 ∧ t.z2 = s.z2 ∧ t.den = s.den ∧ t.degen = s.degen ∧
     t.intStatus.getLsbD 2 = s.intStatus.getLsbD 2),
   ([.det], fun s t => t.bhat = s.bhat),
   ([.det, .clracc], fun s t => t.errcnt = s.errcnt ∧ t.bitcnt = s.bitcnt),
   ([.comb, .clracc], fun s t => t.degenCnt = s.degenCnt)]

/-- A running RUNPT or SWEEP about to start a point, no abort requested and no turn of the host coming. -/
def atPoint (s : State) : Prop :=
  LegalState s ∧ s.state = .busy ∧ s.phase = .ptInit ∧ s.abortReq = false ∧ s.events = []

/-! Reset. -/

/-- The values R330 and R331 state, and nothing about the registers whose reset value is unspecified. -/
def resetRegisters (t : State) : Prop :=
  t.cmd = 0#64 ∧ t.state = .idle ∧ t.drop = false ∧ t.degen = false ∧ t.errCode = 0#8 ∧ t.errCause = 0#8 ∧
  t.errInfo = 0#64 ∧ t.intStatus = 0#3 ∧ t.intEnable = 0#3 ∧ t.nbits = 0#64 ∧ t.nrx = 1#64 ∧ t.snrStart = 0#32 ∧
  t.snrEnd = 0#32 ∧ t.snrStep = 1000#32 ∧ t.snrCur = 0#32 ∧ t.seed = 0#64 ∧ t.stream = 0#64 ∧ t.bitIdx = 0#64 ∧
  t.gaussIdx = 0#64 ∧ t.errcnt = 0#64 ∧ t.bitcnt = 0#64 ∧ t.degenCnt = 0#64 ∧ t.ber = 0x0000000000000000#64 ∧
  t.sigma = 0x3FF0000000000000#64 ∧ t.resultCount = 0#64 ∧ t.abortReq = false ∧ t.phase = .none ∧ t.k = 0 ∧ t.p = 0 ∧
  t.cwdone = 0#64

/-! The aperture. -/

/-- STATUS by its fields (R35). -/
def statusBits (s : State) : Word :=
  BitVec.ofNat 64
    ((match s.state with | .idle => 0 | .busy => 1 | .done => 2 | .error => 3 | .aborted => 4)
      + 8 * s.drop.toNat + 16 * s.degen.toNat + 256 * s.errCode.toNat + 65536 * s.errCause.toNat)

/-- The registers that read exactly in every state, with their offsets (R30, R88). -/
def exactReads : List (Nat × (State → Word)) :=
  [(0x000, fun _ => 0x00000001544D4C41#64), (0x008, fun _ => 0x0000000001000010#64), (0x018, fun s => s.cmd),
   (0x020, statusBits), (0x028, fun s => s.errInfo), (0x030, fun s => 0#61 ++ s.intStatus),
   (0x038, fun s => 0#61 ++ s.intEnable), (0x040, fun s => s.nbits), (0x048, fun s => s.nrx),
   (0x050, fun s => BitVec.ofInt 64 s.snrStart.toInt), (0x058, fun s => BitVec.ofInt 64 s.snrEnd.toInt),
   (0x060, fun s => BitVec.ofInt 64 s.snrStep.toInt), (0x068, fun s => BitVec.ofInt 64 s.snrCur.toInt),
   (0x070, fun s => s.seed), (0x078, fun s => s.stream), (0x0B8, fun s => s.resultCount)]

/-- The other registers outside the files and the RESULT memory, with their offsets and what they read as once STATE has left BUSY (R30,
R33, R43 to R49, R53, R88). -/
def idleReads : List (Nat × (State → Word)) :=
  [(0x010, fun _ => 0#64), (0x080, fun s => s.bitIdx), (0x088, fun s => s.gaussIdx), (0x090, fun s => s.errcnt),
   (0x098, fun s => s.bitcnt), (0x0A0, fun s => s.degenCnt), (0x0A8, fun s => s.ber), (0x0B0, fun s => s.sigma),
   (0x0C0, fun s => 0#62 ++ s.bits), (0x0C8, fun s => 0#62 ++ s.bhat), (0x100, fun s => s.s1.re), (0x108, fun s => s.s1.im),
   (0x110, fun s => s.s2.re), (0x118, fun s => s.s2.im), (0x120, fun s => s.x00.re), (0x128, fun s => s.x00.im),
   (0x130, fun s => s.x01.re), (0x138, fun s => s.x01.im), (0x140, fun s => s.x10.re), (0x148, fun s => s.x10.im),
   (0x150, fun s => s.x11.re), (0x158, fun s => s.x11.im), (0x160, fun s => s.z1.re), (0x168, fun s => s.z1.im),
   (0x170, fun s => s.z2.re), (0x178, fun s => s.z2.im), (0x180, fun s => s.den)]

/-- The reserved regions (R81). -/
def inReserved (off : Nat) : Prop :=
  (0x0D0 ≤ off ∧ off < 0x100) ∨ (0x188 ≤ off ∧ off < 0x200) ∨ (0x800 ≤ off ∧ off < 0x1000) ∨ (0x3000 ≤ off ∧ off < 0x4000)

/-- The read-write data registers and files: S, X, Z, H, NZ, Y (R30, R59). -/
def inData (off : Nat) : Prop := (0x100 ≤ off ∧ off < 0x180) ∨ (0x200 ≤ off ∧ off < 0x800)

/-- The offsets below the RESULT memory whose read is unspecified while BUSY: those R88 does not list (log 3). -/
def inexactWhileBusy (off : Nat) : Prop :=
  off = 0x010 ∨ (0x080 ≤ off ∧ off ≤ 0x0B0) ∨ off = 0x0C0 ∨ off = 0x0C8 ∨ (0x100 ≤ off ∧ off < 0x188) ∨
  (0x200 ≤ off ∧ off < 0x800)

/-- The read-only offsets (R30). -/
def inReadOnly (off : Nat) : Prop :=
  off = 0x000 ∨ off = 0x008 ∨ off = 0x020 ∨ off = 0x028 ∨ (0x090 ≤ off ∧ off ≤ 0x0B8) ∨ off = 0x0C8 ∨ off = 0x180 ∨
  (0x1000 ≤ off ∧ off < 0x3000)

/-! Binary64 (R11): the exact value of a pattern, as IEEE 754 gives it. -/

/-- The exponent field. -/
def expField (a : F64) : Nat := (a.extractLsb' 52 11).toNat

/-- The fraction field. -/
def fracField (a : F64) : Nat := (a.extractLsb' 0 52).toNat

/-- Neither infinite nor NaN. -/
def finite (a : F64) : Prop := expField a ≠ 2047

/-- An infinity. -/
def infinite (a : F64) : Prop := expField a = 2047 ∧ fracField a = 0

/-- A NaN. -/
def isNaN (a : F64) : Prop := expField a = 2047 ∧ fracField a ≠ 0

/-- A zero of either sign. -/
abbrev isZero (a : F64) : Prop := expField a = 0 ∧ fracField a = 0

/-- The value of a finite pattern. -/
def valueOf (a : F64) : ℚ :=
  (if a.msb then -1 else 1) *
    (if expField a = 0 then (fracField a : ℚ) * 2 ^ (-1074 : ℤ)
     else (2 ^ 52 + (fracField a : ℚ)) * 2 ^ ((expField a : ℤ) - 1075))

/-- r is the finite value nearest to x, ties to even. -/
def nearestEven (x : ℝ) (r : F64) : Prop :=
  finite r ∧ (∀ b, finite b → |x - (valueOf r : ℝ)| ≤ |x - (valueOf b : ℝ)|) ∧
  (∀ b, finite b → |x - (valueOf r : ℝ)| = |x - (valueOf b : ℝ)| → valueOf b ≠ valueOf r → r.getLsbD 0 = false)

/-- r is x rounded to nearest, ties to even, with overflow to a signed infinity (R12). -/
def roundsTo (x : ℝ) (r : F64) : Prop :=
  (|x| < 2 ^ 1024 - 2 ^ 970 → nearestEven x r) ∧
  (2 ^ 1024 - 2 ^ 970 ≤ x → r = 0x7FF0000000000000#64) ∧
  (x ≤ -(2 ^ 1024 - 2 ^ 970) → r = 0xFFF0000000000000#64)

/-- The largest finite binary64 value. -/
def maxFinite : ℝ := 2 ^ 1024 - 2 ^ 971

/-- The sign bit flipped (R14). -/
def flip (a : F64) : F64 := ~~~(a.extractLsb' 63 1) ++ a.extractLsb' 0 63

end Sys2Proof.Claims

open Sys2Proof Sys2Proof.Machine Sys2Proof.Claims

/-! Encoding. -/

/-- Every command decodes from its word, from the word's bytes and from the table's bits, and a word that decodes is the word of the
command it decodes to (R110 to R112, R115). -/
def Obligations.DecodeAndEncodeAgree : Prop :=
  (∀ i : Instr, i.wellFormed = true → decode (encode i) = .ok i ∧ decodeBytes (bytesOfWord (encode i)) = .ok i ∧
    decodeTableWord 64 (encode i).toNat = some i) ∧
  ∀ w i, decode w = .ok i → w = encode i

/-- R112: the words that decode are exactly the legal ones, and a legal word names the row of its opcode. -/
def Obligations.LegalWordsAreThoseThatDecode : Prop :=
  ∀ w : Word, ((∃ i, decode w = .ok i) ↔ legal w) ∧
    ∀ i, decode w = .ok i → opcodeOf i = (w.extractLsb' 0 8).toNat ∧ normBit i = w.getLsbD 8

/-- R111: the full command words, and the reserved opcodes. -/
def Obligations.CommandWordsDecodeToTheirRows : Prop :=
  decode 0x000#64 = .ok .nop ∧ decode 0x001#64 = .ok .drawb ∧ decode 0x002#64 = .ok .map ∧
  decode 0x003#64 = .ok (.enc false) ∧ decode 0x103#64 = .ok (.enc true) ∧ decode 0x004#64 = .ok .drawh ∧
  decode 0x005#64 = .ok .drawn ∧ decode 0x006#64 = .ok .chan ∧ decode 0x007#64 = .ok .comb ∧
  decode 0x008#64 = .ok .det ∧ decode 0x009#64 = .ok .clracc ∧ decode 0x00A#64 = .ok .cword ∧
  decode 0x00B#64 = .ok .runpt ∧ decode 0x00C#64 = .ok .sweep ∧
  ∀ opc : Nat, 0x0D ≤ opc → opc ≤ 0xFF → decode (BitVec.ofNat 64 opc) = .error .unknownOpcode

/-! The machine's turns. -/

/-- While BUSY the core's turn is the step of the command in CMD, be it a listed turn or the turn after the list has ended (R261;
log 10). -/
def Obligations.StepRunsTheCommandInCmd : Prop :=
  ∀ (s : State) (i : Instr), s.state = .busy → decode s.cmd = .ok i → i.wellFormed = true →
    (s.events = [] → step s = exec i s) ∧
    ∀ rest, s.events = .core :: rest → step s = exec i { s with events := rest }

/-- A placed command word is run by the very next step, with CMD, STATE, DEGEN, ABORT_REQ, PHASE and P as an accepted issue of it leaves
them (R260). That it is placed from any state and without the checks of an issue is the model's choice (log 10). -/
def Obligations.PlacedCommandRunsNext : Prop :=
  ∀ (s : State) (i : Instr),
    step (s.withFetchWord 64 (encode i).toNat) =
      exec i { s with
        cmd := encode i
        degen := false
        state := .busy
        abortReq := false
        phase := firstPhase i
        p := if i = .sweep then pointCount s else s.p }

/-- Outside BUSY the core has no step: its turn changes nothing. That the machine then answers the unchanged state, and no stop, is
the model's choice (log 9; R261, R315). -/
def Obligations.CoreWaitsOutsideBusy : Prop :=
  ∀ s : State, s.state ≠ .busy →
    (s.events = [] → step s = .next s) ∧ ∀ rest, s.events = .core :: rest → step s = .next { s with events := rest }

/-! Reset. -/

/-- R331: the reset state. -/
def Obligations.ResetStateHasTheStatedValues : Prop :=
  resetRegisters State.reset ∧ irq State.reset = false ∧ readReg State.reset .id = 0x00000001544D4C41#64 ∧
  readReg State.reset .param = 0x0000000001000010#64 ∧
  ∀ w : Word, w = 0x00B#64 ∨ w = 0x00C#64 →
    step { State.reset with events := [.host (.write 8 0x018 w)] } =
      .next { State.reset with
        cmd := w, state := .error, errCode := 1#8, errCause := 1#8, errInfo := 0#64, intStatus := 2#3 }

/-- R330: the reset input leads from any state to the stated values; the command that ran is discarded without end(), so no
INT_STATUS bit is set. That it arrives as a listed turn is the model's choice (log 14). -/
def Obligations.ResetInputEntersTheResetState : Prop :=
  ∀ (s : State) (rest : List Event), s.events = .reset :: rest →
    ∃ t, step s = .next t ∧ resetRegisters t ∧ t.events = rest

/-! The invariant. -/

/-- The reset state is legal. -/
def Obligations.ResetStateIsLegal : Prop := LegalState State.reset

/-- Every step keeps the invariant: the RESULT memory's canonical form and region, the error record, the running command's validated
configuration, the counters and draw indices of a point (R241), the point of a sweep (R253), RESULT_COUNT's bound. -/
def Obligations.StepKeepsTheInvariant : Prop :=
  ∀ s t : State, LegalState s → step s = .next t → LegalState t

/-- A legal state always steps on, unless the next turn is an access that gets a bus error: no error is left over for a core step
(R286, R292). That a core turn outside BUSY, where R261 has no step, is a step that changes nothing is the model's choice (log 9), as is
the list of turns (log 10). -/
def Obligations.LegalStateStepsOn : Prop :=
  ∀ s : State, LegalState s → NoBusError s → ∃ t, step s = .next t

/-- R60's table: the core step of the command that runs in a legal state leaves a register unchanged unless the register's row names the command; file entries of antennas r ≥ R never
change. A core step raises no error and drops no write, leaves the command, the configuration and the host's turns alone, and clears no bit
of INT_STATUS and no DEGEN flag (R261, R286, R301). -/
def Obligations.CommandsWriteOnlyTheirRegisters : Prop :=
  ∀ (i : Instr) (s t : State), LegalState s → s.state = .busy → decode s.cmd = .ok i → exec i s = .next t →
    (t.cmd = s.cmd ∧ t.drop = s.drop ∧ t.errCode = s.errCode ∧ t.errCause = s.errCause ∧ t.errInfo = s.errInfo ∧
      t.intEnable = s.intEnable ∧ t.nbits = s.nbits ∧ t.nrx = s.nrx ∧ t.snrStart = s.snrStart ∧ t.snrEnd = s.snrEnd ∧
      t.snrStep = s.snrStep ∧ t.seed = s.seed ∧ t.p = s.p ∧ t.resp = s.resp ∧ t.events = s.events ∧
      (t.state = s.state ∨ t.state = .done ∨ t.state = .aborted)) ∧
    (i ≠ .sweep → t.snrCur = s.snrCur ∧ t.stream = s.stream ∧ t.result = s.result ∧ t.resultCount = s.resultCount ∧ t.k = s.k) ∧
    (i ≠ .sweep → i ≠ .runpt → t.ber = s.ber ∧ t.cwdone = s.cwdone) ∧
    (∀ row ∈ unitWrites, i ∉ row.1 → runsPipeline i = false → row.2 s t) ∧
    (∀ (r : Fin 16) (j : Fin 2), s.nrx.toNat ≤ r.val →
      entry t.h (16 * j.val + r.val) = entry s.h (16 * j.val + r.val) ∧
      entry t.nz (2 * r.val + j.val) = entry s.nz (2 * r.val + j.val) ∧
      entry t.y (2 * r.val + j.val) = entry s.y (2 * r.val + j.val)) ∧
    (∀ b, s.intStatus.getLsbD b = true → t.intStatus.getLsbD b = true) ∧ t.intStatus.getLsbD 1 = s.intStatus.getLsbD 1 ∧
    (s.degen = true → t.degen = true)

/-! The register aperture. -/

/-- The register map is one to one: every register stands at its own aligned offset, and every offset that is not reserved holds the
register of that offset (R30, R48 to R54, R81). -/
def Obligations.RegisterMapIsOneToOne : Prop :=
  (∀ r off, regOffset r = some off → off % 8 = 0 ∧ off < 0x4000 ∧ regAt off = r) ∧
  ∀ off, off % 8 = 0 → off < 0x4000 → (inReserved off ∧ regAt off = .reserved) ∨ (¬inReserved off ∧ regOffset (regAt off) = some off)

/-- Outside BUSY, CTRL reads 0, the counters, the results and the data registers outside the files read their values, and the words of the H,
NZ and Y files read at the offsets of their elements, re at +0 and im at +8; nothing else changes (R30, R33, R50 to R52, R86, R88). -/
def Obligations.FileElementsReadAtTheirOffsets : Prop :=
  ∀ (s : State) (rest : List Event) (off : Nat), s.state ≠ .busy → s.events = .host (.read 8 off) :: rest →
    (∀ f, (off, f) ∈ idleReads → step s = .next { s with events := rest, resp := some (f s) }) ∧
    (∀ (a : Fin 2) (r : Fin 16),
      (off = 0x200 + (16 * a.val + r.val) * 16 →
        step s = .next { s with events := rest, resp := some (entry s.h (16 * a.val + r.val)).re }) ∧
      (off = 0x200 + (16 * a.val + r.val) * 16 + 8 →
        step s = .next { s with events := rest, resp := some (entry s.h (16 * a.val + r.val)).im })) ∧
    (∀ (r : Fin 16) (t : Fin 2),
      (off = 0x400 + (2 * r.val + t.val) * 16 →
        step s = .next { s with events := rest, resp := some (entry s.nz (2 * r.val + t.val)).re }) ∧
      (off = 0x400 + (2 * r.val + t.val) * 16 + 8 →
        step s = .next { s with events := rest, resp := some (entry s.nz (2 * r.val + t.val)).im }) ∧
      (off = 0x600 + (2 * r.val + t.val) * 16 →
        step s = .next { s with events := rest, resp := some (entry s.y (2 * r.val + t.val)).re }) ∧
      (off = 0x600 + (2 * r.val + t.val) * 16 + 8 →
        step s = .next { s with events := rest, resp := some (entry s.y (2 * r.val + t.val)).im }))

/-- The status and configuration registers, RESULT_COUNT and the finalised RESULT entries read exactly in every state, BUSY included, and
the read changes nothing else (R35, R54, R86, R88). -/
def Obligations.ExactReadsInEveryState : Prop :=
  ∀ (s : State) (rest : List Event) (off : Nat), s.events = .host (.read 8 off) :: rest →
    (∀ f, (off, f) ∈ exactReads → step s = .next { s with events := rest, resp := some (f s) }) ∧
    (∀ (k : Fin 256) (word : Fin 4), off = 0x1000 + 32 * k.val + 8 * word.val → k.val < s.resultCount.toNat →
      step s = .next { s with events := rest, resp := some (readWord s.result off) })

/-- A read the spec leaves unspecified returns a free value, a new one for each read, and changes nothing of the block: a register
R88 does not list, while BUSY, and a RESULT entry not finalised, in every state (R54, R88, U2, U7; logs 3 and 4). -/
def Obligations.UnspecifiedReadsReturnAFreeValue : Prop :=
  ∀ (s : State) (rest : List Event) (off : Nat), s.events = .host (.read 8 off) :: rest → off % 8 = 0 →
    ((s.state = .busy ∧ inexactWhileBusy off) ∨
      (0x1000 ≤ off ∧ off < 0x3000 ∧ s.resultCount.toNat ≤ (off - 0x1000) / 32)) →
    step s = .next { s with events := rest, resp := some (Config.freeRead s.draws), draws := s.draws + 1 }

/-- R82: an aligned access to a reserved offset completes, reads 0 and changes no state, even while BUSY. -/
def Obligations.ReservedOffsetsReadZeroAndIgnoreWrites : Prop :=
  ∀ (s : State) (rest : List Event) (off : Nat), off % 8 = 0 → inReserved off →
    (s.events = .host (.read 8 off) :: rest → step s = .next { s with events := rest, resp := some 0#64 }) ∧
    ∀ v, s.events = .host (.write 8 off v) :: rest → step s = .next { s with events := rest, resp := none }

/-- An access of another width, misaligned, or outside the aperture gets a bus error, here the fault busError (R84, U6; log 8). -/
def Obligations.BadAccessGetsABusError : Prop :=
  ∀ (s : State) (rest : List Event) (width off : Nat), (width ≠ 8 ∨ off % 8 ≠ 0 ∨ 0x4000 ≤ off) →
    (s.events = .host (.read width off) :: rest → step s = .fault (.busError width off)) ∧
    ∀ v, s.events = .host (.write width off v) :: rest → step s = .fault (.busError width off)

/-- R87: a write while BUSY to a register other than CTRL, INT_STATUS and INT_ENABLE is dropped and sets DROP, a write to CMD included. -/
def Obligations.WritesWhileBusyAreDropped : Prop :=
  ∀ (s : State) (rest : List Event) (off : Nat) (v : Word), s.state = .busy → off % 8 = 0 → off < 0x4000 →
    ¬inReserved off → off ≠ 0x010 → off ≠ 0x030 → off ≠ 0x038 → s.events = .host (.write 8 off v) :: rest →
    step s = .next { s with events := rest, resp := none, drop := true }

/-- Outside BUSY, a write to a data word stores the pattern unchanged and changes no other word of the aperture (R30, R59, R83, R89). -/
def Obligations.DataWritesAreStored : Prop :=
  ∀ (s : State) (rest : List Event) (off : Nat) (v : Word), s.state ≠ .busy → off % 8 = 0 → inData off →
    s.events = .host (.write 8 off v) :: rest →
    ∃ t, step s = .next t ∧ readReg t (regAt off) = v ∧ t.events = rest ∧ t.draws = s.draws ∧ t.phase = s.phase ∧
      t.abortReq = s.abortReq ∧ t.k = s.k ∧ t.p = s.p ∧ t.cwdone = s.cwdone ∧ t.result = s.result ∧
      ∀ off', off' % 8 = 0 → off' < 0x4000 → off' ≠ off → readReg t (regAt off') = readReg s (regAt off')

/-- Outside BUSY, ERROR included, a configuration register stores what it has room for: 64 bits, bits [31:0] of an SNR value, bits [1:0]
of BITS (R39 to R43, R47, R296). -/
def Obligations.ConfigurationWritesAreStored : Prop :=
  ∀ (s : State) (rest : List Event) (off : Nat) (v : Word), s.state ≠ .busy → s.events = .host (.write 8 off v) :: rest →
    (off = 0x040 → step s = .next { s with events := rest, resp := none, nbits := v }) ∧
    (off = 0x048 → step s = .next { s with events := rest, resp := none, nrx := v }) ∧
    (off = 0x050 → step s = .next { s with events := rest, resp := none, snrStart := v.extractLsb' 0 32 }) ∧
    (off = 0x058 → step s = .next { s with events := rest, resp := none, snrEnd := v.extractLsb' 0 32 }) ∧
    (off = 0x060 → step s = .next { s with events := rest, resp := none, snrStep := v.extractLsb' 0 32 }) ∧
    (off = 0x068 → step s = .next { s with events := rest, resp := none, snrCur := v.extractLsb' 0 32 }) ∧
    (off = 0x070 → step s = .next { s with events := rest, resp := none, seed := v }) ∧
    (off = 0x078 → step s = .next { s with events := rest, resp := none, stream := v }) ∧
    (off = 0x080 → step s = .next { s with events := rest, resp := none, bitIdx := v }) ∧
    (off = 0x088 → step s = .next { s with events := rest, resp := none, gaussIdx := v }) ∧
    (off = 0x0C0 → step s = .next { s with events := rest, resp := none, bits := v.extractLsb' 0 2 })

/-- Outside BUSY, a write to a read-only register or to the RESULT memory is ignored (R30, R54). -/
def Obligations.ReadOnlyWritesAreIgnored : Prop :=
  ∀ (s : State) (rest : List Event) (off : Nat) (v : Word), s.state ≠ .busy → off % 8 = 0 → inReadOnly off →
    s.events = .host (.write 8 off v) :: rest → step s = .next { s with events := rest, resp := none }

/-- In every state, a write to INT_STATUS clears exactly the bits written as 1, and a write to INT_ENABLE stores bits [2:0] (R37, R87). -/
def Obligations.InterruptRegisterWrites : Prop :=
  ∀ (s : State) (rest : List Event) (v : Word),
    (s.events = .host (.write 8 0x030 v) :: rest →
      ∃ t, step s = .next t ∧ t = { s with events := rest, resp := none, intStatus := t.intStatus } ∧
        ∀ b, b < 3 → t.intStatus.getLsbD b = (s.intStatus.getLsbD b && !v.getLsbD b)) ∧
    (s.events = .host (.write 8 0x038 v) :: rest →
      step s = .next { s with events := rest, resp := none, intEnable := v.extractLsb' 0 3 })

/-- R300: the interrupt output. -/
def Obligations.IrqIsTheEnabledLevel : Prop :=
  ∀ s : State, irq s =
    ((s.intStatus.getLsbD 0 && s.intEnable.getLsbD 0) || (s.intStatus.getLsbD 1 && s.intEnable.getLsbD 1) ||
      (s.intStatus.getLsbD 2 && s.intEnable.getLsbD 2))

/-- R265 and R295: a CTRL write clears outside BUSY, requests an abort while RUNPT or SWEEP is BUSY, and does nothing else; with both bits
set at most one acts. -/
def Obligations.CtrlClearsOrAborts : Prop :=
  ∀ (s : State) (rest : List Event) (v : Word), s.events = .host (.write 8 0x010 v) :: rest →
    step s = .next
      (if s.state = .busy then
        (if v.getLsbD 1 = true ∧ (s.cmd.extractLsb' 0 8 = 0x0B#8 ∨ s.cmd.extractLsb' 0 8 = 0x0C#8) then
          { s with events := rest, resp := none, abortReq := true }
        else { s with events := rest, resp := none })
      else if v.getLsbD 0 = true then
        { s with
          events := rest, resp := none, state := .idle, errCode := 0#8, errCause := 0#8, errInfo := 0#64, drop := false,
          degen := false }
      else { s with events := rest, resp := none })

/-! Issue. -/

/-- R113, R283, R290, R291: an illegal word, written where commands are accepted, enters ERROR with ILLEGAL_COMMAND, its cause and the word,
and changes nothing else. -/
def Obligations.IllegalWordIsRejectedWithItsCause : Prop :=
  ∀ (s : State) (rest : List Event) (w : Word), takesCommands s → ¬legal w → s.events = .host (.write 8 0x018 w) :: rest →
    step s = .next { s with
      events := rest, resp := none, cmd := w, degen := false, state := .error, errCode := 3#8,
      errCause := if 0x0C < (w.extractLsb' 0 8).toNat then 1#8 else 2#8,
      errInfo := w, intStatus := s.intStatus ||| 2#3 }

/-- R281, R282: a legal command whose first failing check is cause c enters ERROR with INVALID_INPUT_SIZE, c and the offending value, and
changes nothing else. -/
def Obligations.InvalidInputIsRejectedAtIssue : Prop :=
  ∀ (s : State) (rest : List Event) (w : Word) (i : Instr) (c : Nat) (v : Word), takesCommands s → decode w = .ok i →
    firstFailure i s = some (c, v) → s.events = .host (.write 8 0x018 w) :: rest →
    step s = .next { s with
      events := rest, resp := none, cmd := w, degen := false, state := .error, errCode := 1#8, errCause := BitVec.ofNat 8 c,
      errInfo := v, intStatus := s.intStatus ||| 2#3 }

/-- R260: a legal command whose checks pass becomes BUSY in its first phase, SWEEP with its P; no data register, counter or RESULT entry
changes. -/
def Obligations.ValidCommandIsAccepted : Prop :=
  ∀ (s : State) (rest : List Event) (w : Word) (i : Instr), takesCommands s → decode w = .ok i → firstFailure i s = none →
    s.events = .host (.write 8 0x018 w) :: rest →
    step s = .next { s with
      events := rest, resp := none, cmd := w, degen := false, state := .busy, abortReq := false, phase := firstPhase i,
      p := if i = .sweep then ((s.snrEnd.toInt - s.snrStart.toInt) / s.snrStep.toInt + 1).toNat else s.p }

/-- A command written in ERROR is dropped, so the first error's record stands (R296). -/
def Obligations.CommandsInErrorAreDropped : Prop :=
  ∀ (s : State) (rest : List Event) (w : Word), s.state = .error → s.events = .host (.write 8 0x018 w) :: rest →
    step s = .next { s with events := rest, resp := none, drop := true }

/-! The unit commands. -/

/-- R141: NOP does nothing but end; issued from IDLE it leaves every register but CMD, STATE and INT_STATUS.DONE unchanged. -/
def Obligations.NopOnlyEnds : Prop :=
  (∀ s : State, exec .nop s = .next (done s)) ∧
  ∀ s : State, s.state = .idle → s.degen = false → s.phase = .none → s.abortReq = false →
    s.events = [.host (.write 8 0x018 0x000#64), .core] →
    Host.Core.run Sys2Proof.core 2 s =
      .next { s with events := [], resp := none, cmd := 0x000#64, state := .done, intStatus := s.intStatus ||| 1#3 }

/-- R142: DRAWB draws B1 at BIT_IDX and B2 at the next index, both with wrap. -/
def Obligations.DrawbDrawsTwoBits : Prop :=
  ∀ s : State, ∃ b : BitVec 2,
    b.getLsbD 0 = Config.genBit s.seed s.stream s.bitIdx ∧
    b.getLsbD 1 = Config.genBit s.seed s.stream (BitVec.ofNat 64 (s.bitIdx.toNat + 1)) ∧
    exec .drawb s = .next (done { s with bits := b, bitIdx := BitVec.ofNat 64 (s.bitIdx.toNat + 2) })

/-- R143, R140: MAP writes the antipodal symbols of the two bits, with imaginary part +0.0. -/
def Obligations.MapWritesTheSymbols : Prop :=
  ∀ s : State, exec .map s = .next (done { s with
    s1 := ⟨if s.bits.getLsbD 0 then 0x3FF0000000000000#64 else 0xBFF0000000000000#64, 0x0000000000000000#64⟩
    s2 := ⟨if s.bits.getLsbD 1 then 0x3FF0000000000000#64 else 0xBFF0000000000000#64, 0x0000000000000000#64⟩ })

/-- R144, R145: ENC writes the Alamouti code matrix of S1 and S2: with NORM = 0 the words themselves with at most the sign flipped, with
NORM = 1 their products with KN. The free-value index aside, nothing else changes. -/
def Obligations.EncWritesTheCodeMatrix : Prop :=
  ∀ (norm : Bool) (s : State), ∃ n,
    let sc := fun (k : Nat) (re im : F64) =>
      if norm then (⟨fmul (s.draws + k) 0x3FE6A09E667F3BCC#64 re, fmul (s.draws + k + 1) 0x3FE6A09E667F3BCC#64 im⟩ : Cplx)
      else ⟨re, im⟩
    exec (.enc norm) s = .next (done { s with
      x00 := sc 0 s.s1.re s.s1.im
      x01 := sc 2 (flip s.s2.re) s.s2.im
      x10 := sc 4 s.s2.re s.s2.im
      x11 := sc 6 s.s1.re (flip s.s1.im)
      draws := n })

/-- R173: DRAWH writes H[a][r] for r < R from the draws at GAUSS_IDX + 4r + 2a and the next index, each scaled by KN; no part is infinite
or NaN; the other entries keep their values; 4R draws are consumed. -/
def Obligations.DrawhDrawsTheCoefficients : Prop :=
  ∀ s : State, 1 ≤ s.nrx.toNat → s.nrx.toNat ≤ 16 → ∃ t,
    exec .drawh s = .next t ∧
    t = done { s with h := t.h, gaussIdx := s.gaussIdx + BitVec.ofNat 64 (4 * s.nrx.toNat), draws := t.draws } ∧
    ∀ (a : Fin 2) (r : Fin 16), entry t.h (16 * a.val + r.val) =
      if r.val < s.nrx.toNat then
        let g := fun j => finitePattern (Config.gen.gauss s.seed s.stream (s.gaussIdx + BitVec.ofNat 64 (4 * r.val + 2 * a.val + j)))
        ⟨fmul 0 0x3FE6A09E667F3BCC#64 (g 0), fmul 0 0x3FE6A09E667F3BCC#64 (g 1)⟩
      else entry s.h (16 * a.val + r.val)

/-- R174: DRAWN writes NZ[r][t] for r < R from the draws at GAUSS_IDX + 4r + 2t and the next index, each scaled by KN; the other entries
keep their values; 4R draws are consumed. -/
def Obligations.DrawnDrawsTheNoise : Prop :=
  ∀ s : State, 1 ≤ s.nrx.toNat → s.nrx.toNat ≤ 16 → ∃ u,
    exec .drawn s = .next u ∧
    u = done { s with nz := u.nz, gaussIdx := s.gaussIdx + BitVec.ofNat 64 (4 * s.nrx.toNat), draws := u.draws } ∧
    ∀ (r : Fin 16) (t : Fin 2), entry u.nz (2 * r.val + t.val) =
      if r.val < s.nrx.toNat then
        let g := fun j => finitePattern (Config.gen.gauss s.seed s.stream (s.gaussIdx + BitVec.ofNat 64 (4 * r.val + 2 * t.val + j)))
        ⟨fmul 0 0x3FE6A09E667F3BCC#64 (g 0), fmul 0 0x3FE6A09E667F3BCC#64 (g 1)⟩
      else entry s.nz (2 * r.val + t.val)

/-- The scaled Gaussian draws of DRAWH and DRAWN are finite, whatever the generator returns (R8, R170, R173). -/
def Obligations.ScaledDrawsAreFinite : Prop :=
  ∀ (d : Nat) (g : FiniteF64), finite (finitePattern g) ∧ finite (fmul d 0x3FE6A09E667F3BCC#64 (finitePattern g))

/-- R180: CHAN writes SIGMA and, for r < R, Y[r][t] = (H[0][r]·X[0][t] + H[1][r]·X[1][t]) + SIGMA·NZ[r][t] in the order of R15; the other
entries keep their values. -/
def Obligations.ChanFormsTheReceivedSamples : Prop :=
  ∀ s : State, 1 ≤ s.nrx.toNat → s.nrx.toNat ≤ 16 → ∃ u,
    exec .chan s = .next u ∧
    u = done { s with sigma := Sys2Proof.Machine.sigma s.snrCur, y := u.y, draws := u.draws } ∧
    ∀ (r : Fin 16) (t : Fin 2), entry u.y (2 * r.val + t.val) =
      if r.val < s.nrx.toNat then
        let d := s.draws + 18 * (2 * r.val + t.val)
        let x0 := if t.val = 0 then s.x00 else s.x01
        let x1 := if t.val = 0 then s.x10 else s.x11
        cadd d (cadd (d + 2) (cmul (d + 4) (entry s.h r.val) x0) (cmul (d + 10) (entry s.h (16 + r.val)) x1))
          (rscale (d + 16) (Sys2Proof.Machine.sigma s.snrCur) (entry s.nz (2 * r.val + t.val)))
      else entry s.y (2 * r.val + t.val)

/-- R201, R202, R204: COMB sums the numerators and divisors over the receive antennas from r = 0 upward, writes DEN, and divides once; when
the divisor is a zero it writes (+0.0, +0.0), counts the event and sets both DEGEN flags. -/
def Obligations.CombCombinesTheAntennas : Prop :=
  ∀ s : State, 1 ≤ s.nrx.toNat → s.nrx.toNat ≤ 16 → ∃ (A B : Nat → Cplx) (D : Nat → F64) (n : Nat),
    let d := fun r => s.draws + 40 * r
    let h1 := fun r => entry s.h r
    let h2 := fun r => entry s.h (16 + r)
    let y1 := fun r => entry s.y (2 * r)
    let y2 := fun r => entry s.y (2 * r + 1)
    let a := fun r => cadd (d r) (cmul (d r + 2) (conj (h1 r)) (y1 r)) (cmul (d r + 8) (h2 r) (conj (y2 r)))
    let b := fun r => csub (d r + 14) (cmul (d r + 16) (conj (h2 r)) (y1 r)) (cmul (d r + 22) (h1 r) (conj (y2 r)))
    let c := fun r => fadd (d r + 28) (abs2 (d r + 29) (h1 r)) (abs2 (d r + 32) (h2 r))
    let last := s.nrx.toNat - 1
    A 0 = a 0 ∧ B 0 = b 0 ∧ D 0 = c 0 ∧
    (∀ r, r + 1 < s.nrx.toNat → A (r + 1) = cadd (d (r + 1) + 35) (A r) (a (r + 1)) ∧
      B (r + 1) = cadd (d (r + 1) + 37) (B r) (b (r + 1)) ∧ D (r + 1) = fadd (d (r + 1) + 39) (D r) (c (r + 1))) ∧
    exec .comb s = .next (done
      (if isZero (D last) then
        { s with
          den := D last, z1 := ⟨0#64, 0#64⟩, z2 := ⟨0#64, 0#64⟩, degenCnt := s.degenCnt + 1#64, degen := true,
          intStatus := s.intStatus ||| 4#3, draws := n }
      else
        { s with
          den := D last, z1 := cdivr (d s.nrx.toNat) (A last) (D last), z2 := cdivr (d s.nrx.toNat + 2) (B last) (D last),
          draws := n }))

/-- R220, R221: DET decides each bit by a positive real part, counts the mismatches with BITS and two bits, with wrap. -/
def Obligations.DetDecidesAndAccumulates : Prop :=
  ∀ s : State, ∃ b : BitVec 2,
    (b.getLsbD 0 = true ↔ 0 < s.z1.re.toNat ∧ s.z1.re.toNat ≤ 0x7FF0000000000000) ∧
    (b.getLsbD 1 = true ↔ 0 < s.z2.re.toNat ∧ s.z2.re.toNat ≤ 0x7FF0000000000000) ∧
    exec .det s = .next (done { s with
      bhat := b
      errcnt := BitVec.ofNat 64 (s.errcnt.toNat + (if b.getLsbD 0 ≠ s.bits.getLsbD 0 then 1 else 0) +
        (if b.getLsbD 1 ≠ s.bits.getLsbD 1 then 1 else 0))
      bitcnt := BitVec.ofNat 64 (s.bitcnt.toNat + 2) })

/-- R222: CLRACC clears the three accumulators and nothing else. -/
def Obligations.ClraccClearsTheAccumulators : Prop :=
  ∀ s : State, exec .clracc s = .next (done { s with errcnt := 0#64, bitcnt := 0#64, degenCnt := 0#64 })

/-- R240: CWORD is its eight parts one after the other, encoding with NORM = 1, whatever CMD says. -/
def Obligations.CwordIsItsEightParts : Prop :=
  ∀ s : State, ∃ s1 s2 s3 s4 s5 s6 s7 t,
    exec .drawb s = .next s1 ∧ exec .map s1 = .next s2 ∧ exec (.enc true) s2 = .next s3 ∧ exec .drawh s3 = .next s4 ∧
    exec .drawn s4 = .next s5 ∧ exec .chan s5 = .next s6 ∧ exec .comb s6 = .next s7 ∧ exec .det s7 = .next t ∧
    exec .cword s = .next t

/-! Points and sweeps. -/

/-- R251, R252, R254, R261: the step of RUNPT in each phase. That the last codeword does not set DONE and PT_FINAL does, as R254 and R261 have
it and R302's example does not, is the model's choice (log 26). -/
def Obligations.RunptStepsThroughItsPhases : Prop :=
  ∀ s : State, s.abortReq = false →
    (s.phase = .ptInit → exec .runpt s = .next { s with
      sigma := Sys2Proof.Machine.sigma s.snrCur, errcnt := 0#64, bitcnt := 0#64, bitIdx := 0#64, gaussIdx := 0#64,
      cwdone := 0#64, degenCnt := 0#64, phase := .ptCw }) ∧
    (s.phase = .ptCw → ∃ u v, exec .cword s = .next u ∧ exec .runpt s = .next v ∧
      v.cwdone = BitVec.ofNat 64 (s.cwdone.toNat + 1) ∧
      v.phase = (if (s.cwdone.toNat + 1) % 2 ^ 64 = s.nbits.toNat / 2 then .ptFinal else .ptCw) ∧
      done { v with cwdone := u.cwdone } = u ∧ v.state = s.state ∧ v.abortReq = s.abortReq ∧
      (v.intStatus.getLsbD 0 = s.intStatus.getLsbD 0)) ∧
    (s.phase = .ptFinal → exec .runpt s = .next (done { s with ber := Sys2Proof.Machine.ber s.errcnt s.bitcnt }))

/-- R251, R255, R261: the step of SWEEP in SW_START, which an abort request does not stop, in PT_INIT and in PT_CW. -/
def Obligations.SweepStepsThroughItsPhases : Prop :=
  ∀ s : State,
    (s.phase = .swStart → exec .sweep s = .next { s with
      resultCount := 0#64, degenCnt := 0#64, k := 0, snrCur := s.snrStart, stream := 0#64, phase := .ptInit }) ∧
    (s.abortReq = false → s.phase = .ptInit → exec .sweep s = .next { s with
      sigma := Sys2Proof.Machine.sigma s.snrCur, errcnt := 0#64, bitcnt := 0#64, bitIdx := 0#64, gaussIdx := 0#64,
      cwdone := 0#64, phase := .ptCw }) ∧
    (s.abortReq = false → s.phase = .ptCw → exec .sweep s = exec .runpt s)

/-- R252, R253, R54: the PT_FINAL step of a SWEEP computes BER, writes the four words of RESULT entry K and no other byte, counts the
entry, and ends after the last point or selects the next one. -/
def Obligations.SweepRecordsThePoint : Prop :=
  ∀ s : State, Memory.wf s.result = true → s.abortReq = false → s.phase = .ptFinal → ∃ t,
    let e := 0x1000 + 32 * s.k
    let b := Sys2Proof.Machine.ber s.errcnt s.bitcnt
    exec .sweep s = .next t ∧
    readWord t.result e = BitVec.ofInt 64 s.snrCur.toInt ∧ readWord t.result (e + 8) = s.errcnt ∧
    readWord t.result (e + 16) = b ∧ readWord t.result (e + 24) = s.bitcnt ∧
    (∀ a, a < e ∨ e + 32 ≤ a → readByte t.result a = readByte s.result a) ∧
    t = (if s.k + 1 = s.p then
          done { s with ber := b, result := t.result, resultCount := BitVec.ofNat 64 (s.k + 1), k := s.k + 1 }
        else
          { s with
            ber := b, result := t.result, resultCount := BitVec.ofNat 64 (s.k + 1), k := s.k + 1,
            snrCur := BitVec.ofInt 32 (s.snrStart.toInt + (s.k + 1) * s.snrStep.toInt),
            stream := BitVec.ofNat 64 (s.k + 1), phase := .ptInit })

/-- R266: the core step after an abort request performs end(ABORTED) and nothing else, but for a SWEEP still in SW_START, which the
other statement about SWEEP covers. -/
def Obligations.AbortEndsTheCommand : Prop :=
  ∀ s : State, s.abortReq = true → s.phase ≠ .swStart →
    exec .runpt s = .next (aborted s) ∧ exec .sweep s = .next (aborted s)

/-- R263 for RUNPT: without an abort it is DONE after exactly NBITS/2 + 2 core steps, with NBITS bits counted. That DONE comes in a step after
the last codeword's, as R254, R261 and R263 have it and R302's example does not, is the model's choice (log 26). -/
def Obligations.RunptTakesItsStepCount : Prop :=
  ∀ s : State, atPoint s → decode s.cmd = .ok .runpt →
    (∀ j, j < s.nbits.toNat / 2 + 2 → ∃ u, Host.Core.run Sys2Proof.core j s = .next u ∧ u.state = .busy) ∧
    ∃ t, Host.Core.run Sys2Proof.core (s.nbits.toNat / 2 + 2) s = .next t ∧ t.state = .done ∧ t.bitcnt = s.nbits ∧
      t.errcnt.toNat ≤ t.bitcnt.toNat ∧ t.ber = Sys2Proof.Machine.ber t.errcnt t.bitcnt

/-- R263 for SWEEP: without an abort it is DONE after exactly 1 + P·(NBITS/2 + 2) core steps, with P points recorded. -/
def Obligations.SweepTakesItsStepCount : Prop :=
  ∀ s : State, LegalState s → s.state = .busy → s.phase = .swStart → s.abortReq = false → s.events = [] →
    (∀ j, j < 1 + s.p * (s.nbits.toNat / 2 + 2) → ∃ u, Host.Core.run Sys2Proof.core j s = .next u ∧ u.state = .busy) ∧
    ∃ t, Host.Core.run Sys2Proof.core (1 + s.p * (s.nbits.toNat / 2 + 2)) s = .next t ∧ t.state = .done ∧
      t.resultCount = BitVec.ofNat 64 s.p ∧ t.stream = BitVec.ofNat 64 (s.p - 1) ∧
      t.snrCur = BitVec.ofInt 32 (s.snrStart.toInt + (s.p - 1) * s.snrStep.toInt)

/-- R256, R257: the results of a point depend on SEED, STREAM, the SNR, NBITS and NRX alone, be it run by RUNPT or as a point of a SWEEP,
whatever all other registers hold and whatever the free values of NaNs are. -/
def Obligations.PointResultsDependOnItsKeysOnly : Prop :=
  ∀ s s' : State, atPoint s → atPoint s' → s.seed = s'.seed → s.stream = s'.stream → s.snrCur = s'.snrCur →
    s.nbits = s'.nbits → s.nrx = s'.nrx → ∃ t t',
      Host.Core.run Sys2Proof.core (s.nbits.toNat / 2 + 2) s = .next t ∧
      Host.Core.run Sys2Proof.core (s.nbits.toNat / 2 + 2) s' = .next t' ∧
      t.errcnt = t'.errcnt ∧ t.bitcnt = t'.bitcnt ∧ t.ber = t'.ber ∧ t.bitIdx = t'.bitIdx ∧ t.gaussIdx = t'.gaussIdx ∧
      t.sigma = t'.sigma ∧ t.bhat = t'.bhat ∧ t.bits = t'.bits

/-! Arithmetic. -/

/-- R12: the finite sum and difference are the exact ones rounded. The signs of exact zeros and the results on infinite operands are IEEE
754's, taken from general knowledge (log 18). -/
def Obligations.SumsRoundToNearestEven : Prop :=
  ∀ (d : Nat) (a b : F64),
    (finite a → finite b →
      roundsTo ((valueOf a : ℝ) + (valueOf b : ℝ)) (fadd d a b) ∧ roundsTo ((valueOf a : ℝ) - (valueOf b : ℝ)) (fsub d a b) ∧
      (valueOf a + valueOf b = 0 → fadd d a b = if a.msb = true ∧ b.msb = true then 0x8000000000000000#64 else 0#64) ∧
      (valueOf a - valueOf b = 0 → fsub d a b = if a.msb = true ∧ b.msb = false then 0x8000000000000000#64 else 0#64)) ∧
    (infinite a → (finite b ∨ (infinite b ∧ b.msb = a.msb)) → fadd d a b = a) ∧
    (finite a → infinite b → fadd d a b = b) ∧
    (infinite a → (finite b ∨ (infinite b ∧ b.msb ≠ a.msb)) → fsub d a b = a) ∧
    (finite a → infinite b → fsub d a b = flip b)

/-- R12: the finite product is the exact one rounded. The sign of a zero product and the products with an infinite operand are IEEE 754's,
taken from general knowledge (log 18). -/
def Obligations.ProductsRoundToNearestEven : Prop :=
  ∀ (d : Nat) (a b : F64),
    (finite a → finite b → roundsTo ((valueOf a : ℝ) * (valueOf b : ℝ)) (fmul d a b) ∧ (fmul d a b).msb = (a.msb ^^ b.msb)) ∧
    ((infinite a ∧ infinite b) ∨ (infinite a ∧ finite b ∧ ¬isZero b) ∨ (finite a ∧ ¬isZero a ∧ infinite b) →
      infinite (fmul d a b) ∧ (fmul d a b).msb = (a.msb ^^ b.msb))

/-- R12: the finite quotient by a nonzero value is the exact one rounded, and a nonzero finite value over a zero is a signed infinity. Which sign
a zero or an infinity gets, and the quotients with an infinite operand, are IEEE 754's, taken from general knowledge (log 18). -/
def Obligations.QuotientsRoundToNearestEven : Prop :=
  ∀ (d : Nat) (a b : F64),
    (finite a → finite b → ¬isZero b →
      roundsTo ((valueOf a : ℝ) / (valueOf b : ℝ)) (fdiv d a b) ∧ (fdiv d a b).msb = (a.msb ^^ b.msb)) ∧
    (finite a → isZero b → ¬isZero a → infinite (fdiv d a b) ∧ (fdiv d a b).msb = (a.msb ^^ b.msb)) ∧
    (infinite a → finite b → infinite (fdiv d a b) ∧ (fdiv d a b).msb = (a.msb ^^ b.msb)) ∧
    (finite a → infinite b → isZero (fdiv d a b) ∧ (fdiv d a b).msb = (a.msb ^^ b.msb))

/-- R12: the square root of a finite value that is not negative is the exact one rounded. That a zero of either sign and +infinity are their
own roots is IEEE 754's, taken from general knowledge (log 18). -/
def Obligations.SquareRootRoundsToNearestEven : Prop :=
  ∀ (d : Nat) (a : F64), (isZero a → fsqrt d a = a) ∧
    (finite a → a.msb = false → roundsTo (Real.sqrt (valueOf a : ℝ)) (fsqrt d a)) ∧
    fsqrt d 0x7FF0000000000000#64 = 0x7FF0000000000000#64

/-- R12, R13: each of the five operations delivers a NaN exactly on a NaN operand or an invalid operation, and that NaN is quiet. Which
operations are invalid and the quiet bit's place are IEEE 754's, taken from general knowledge (log 18). -/
def Obligations.NaNsArisePreciselyAndAreQuiet : Prop :=
  ∀ (d : Nat) (a b : F64),
    (isNaN (fadd d a b) ↔ isNaN a ∨ isNaN b ∨ (infinite a ∧ infinite b ∧ a.msb ≠ b.msb)) ∧
    (isNaN (fsub d a b) ↔ isNaN a ∨ isNaN b ∨ (infinite a ∧ infinite b ∧ a.msb = b.msb)) ∧
    (isNaN (fmul d a b) ↔ isNaN a ∨ isNaN b ∨ (infinite a ∧ isZero b) ∨ (isZero a ∧ infinite b)) ∧
    (isNaN (fdiv d a b) ↔ isNaN a ∨ isNaN b ∨ (isZero a ∧ isZero b) ∨ (infinite a ∧ infinite b)) ∧
    (isNaN (fsqrt d a) ↔ isNaN a ∨ (a.msb = true ∧ ¬isZero a)) ∧
    ∀ r, r = fadd d a b ∨ r = fsub d a b ∨ r = fmul d a b ∨ r = fdiv d a b ∨ r = fsqrt d a → isNaN r →
      r.extractLsb' 51 12 = 0xFFF#12

/-- R14, R15: negation flips the sign bit of every pattern, conj and cneg use it, and the complex operations are made of the binary64 ones in
the stated order. The indices of the free NaN values are the model's (log 5). -/
def Obligations.NegationFlipsTheSignBit : Prop :=
  (∀ a : F64, fneg a = flip a) ∧
  (∀ z : Cplx, conj z = ⟨z.re, flip z.im⟩ ∧ cneg z = ⟨flip z.re, flip z.im⟩) ∧
  ∀ (d : Nat) (k : F64) (a b : Cplx),
    cadd d a b = ⟨fadd d a.re b.re, fadd (d + 1) a.im b.im⟩ ∧
    csub d a b = ⟨fsub d a.re b.re, fsub (d + 1) a.im b.im⟩ ∧
    cmul d a b =
      ⟨fsub d (fmul (d + 1) a.re b.re) (fmul (d + 2) a.im b.im), fadd (d + 3) (fmul (d + 4) a.re b.im) (fmul (d + 5) a.im b.re)⟩ ∧
    rscale d k a = ⟨fmul d k a.re, fmul (d + 1) k a.im⟩ ∧
    abs2 d a = fadd d (fmul (d + 1) a.re a.re) (fmul (d + 2) a.im a.im) ∧
    cdivr d a k = ⟨fdiv d a.re k, fdiv (d + 1) a.im k⟩

/-- R16: the ordered comparison with +0.0. -/
def Obligations.GreaterThanZeroIsOrdered : Prop :=
  ∀ a : F64, fgt0 a = true ↔ a = 0x7FF0000000000000#64 ∨ (finite a ∧ 0 < valueOf a)

/-- R17: the normalisation constant, square root first, and that it is one unit in the last place below the correctly rounded 1/√2. -/
def Obligations.NormalisationConstant : Prop :=
  (∀ d e : Nat, kn = fdiv d 0x3FF0000000000000#64 (fsqrt e 0x4000000000000000#64)) ∧ kn = 0x3FE6A09E667F3BCC#64 ∧
  nearestEven (1 / Real.sqrt 2) 0x3FE6A09E667F3BCD#64

/-- R18: sigma is the correctly rounded value of 10^(-snr/20000), infinity above the largest finite value. -/
def Obligations.SigmaIsCorrectlyRounded : Prop :=
  (∀ snr : Snr,
    (maxFinite < (10 : ℝ) ^ (-(snr.toInt : ℝ) / 20000) → Sys2Proof.Machine.sigma snr = 0x7FF0000000000000#64) ∧
    ((10 : ℝ) ^ (-(snr.toInt : ℝ) / 20000) ≤ maxFinite →
      (Sys2Proof.Machine.sigma snr).msb = false ∧ nearestEven ((10 : ℝ) ^ (-(snr.toInt : ℝ) / 20000)) (Sys2Proof.Machine.sigma snr))) ∧
  Sys2Proof.Machine.sigma (BitVec.ofInt 32 0) = 0x3FF0000000000000#64 ∧
  Sys2Proof.Machine.sigma (BitVec.ofInt 32 10000) = 0x3FD43D136248490F#64 ∧
  Sys2Proof.Machine.sigma (BitVec.ofInt 32 20000) = 0x3FB999999999999A#64 ∧
  Sys2Proof.Machine.sigma (BitVec.ofInt 32 (-20000)) = 0x4024000000000000#64 ∧
  Sys2Proof.Machine.sigma (BitVec.ofInt 32 (-10000)) = 0x40094C583ADA5B53#64

/-- R19: ber is the binary64 value nearest to the exact rational, ties to even. -/
def Obligations.BerIsCorrectlyRounded : Prop :=
  ∀ e n : Word, e.toNat ≤ n.toNat → 0 < n.toNat →
    nearestEven ((e.toNat : ℝ) / (n.toNat : ℝ)) (Sys2Proof.Machine.ber e n) ∧ (Sys2Proof.Machine.ber e n).msb = false

/-- R147: the rows of the matrix ENC writes are orthogonal over the two slots, exactly (+0.0, +0.0), for either NORM, when the slot-0 product
is finite (a product or a sum of products that overflows is not). -/
def Obligations.EncRowsAreOrthogonal : Prop :=
  ∀ (norm : Bool) (s t : State) (d : Nat), exec (.enc norm) s = .next t →
    finite (cmul (d + 2) t.x00 (conj t.x10)).re → finite (cmul (d + 2) t.x00 (conj t.x10)).im →
    cadd d (cmul (d + 2) t.x00 (conj t.x10)) (cmul (d + 8) t.x01 (conj t.x11)) = ⟨0#64, 0#64⟩

/-! The host's programs. -/

/-- R118, R119: wherever a WAIT stands in a program, it reads STATUS again while STATE = BUSY and goes on at the first read that finds another
state; in every run of a WAIT, whatever turns the core has between its polls, the transactions are one read of STATUS a poll, and once it
has ended the last poll alone found STATE ≠ BUSY. Which Lw a branch means is the model's choice (log 24). -/
def Obligations.WaitPollsUntilNotBusy : Prop :=
  (∀ (pre post : List Stmt) (s : State),
    hostStatement (pre ++ expand .wait ++ post) (pre.length + 1) s =
      some (if s.state = .busy then pre.length else pre.length + 2, { s with resp := some (statusBits s) })) ∧
  ∀ (sched : List Nat) (s : State) (r : HostRun), hostRun (expand .wait) sched 0 s = some r →
    (∃ n, encodeRun (expand .wait) sched s = some (List.replicate n (.read 8 0x020))) ∧
    (r.pos = 2 → ∃ (polls : List Word) (last : Word),
      r.log = (polls ++ [last]).map (fun v => (.read 8 0x020, some v)) ∧ last.extractLsb' 0 3 ≠ 1#3 ∧
      ∀ v ∈ polls, v.extractLsb' 0 3 = 1#3)
end

