-- ==== Sys2Proof/Laws/HostProgram.lean ====
section
/-! SUPPORT. Host programs: one lemma for each operation that says everything it can do, and how a run unfolds. -/

namespace Sys2Proof.Machine

/-- A statement that goes on is a label, which changes nothing, or an access taken as one host step and followed by the choice of the next
statement. -/
theorem hostStatement_some (prog : List Stmt) (pos q : Nat) (s t : State) (h : hostStatement prog pos s = some (q, t)) :
    ∃ st, prog[pos]? = some st ∧
      ((transaction st = none ∧ q = pos + 1 ∧ t = s) ∨
       (∃ a, transaction st = some a ∧ hostStep a s = .next t ∧ nextPos prog pos st (t.resp.getD 0#64) = some q)) := by
  unfold hostStatement at h
  split at h
  · cases h
  · rename_i st hst
    refine ⟨st, hst, ?_⟩
    split at h
    · rename_i ht
      simp only [Option.some.injEq, Prod.mk.injEq] at h
      exact .inl ⟨ht, h.1.symm, h.2.symm⟩
    · rename_i a ha
      split at h
      · rename_i u hu
        obtain ⟨n, hn, e⟩ := Option.map_eq_some_iff.1 h
        obtain ⟨rfl, rfl⟩ := Prod.mk.inj e
        exact .inr ⟨a, ha, hu, hn⟩
      · cases h
      · cases h

@[simp] theorem coreTurns_zero (s : State) : coreTurns 0 s = some s := rfl

theorem coreTurns_succ (n : Nat) (s t : State) (h : coreTurns (n + 1) s = some t) :
    ∃ u, coreTurn s = .next u ∧ coreTurns n u = some t := by
  rw [coreTurns] at h
  split at h
  · rename_i u hu; exact ⟨u, hu, h⟩
  · cases h
  · cases h

@[simp] theorem hostRun_nil (prog : List Stmt) (pos : Nat) (s : State) : hostRun prog [] pos s = some ⟨[], pos, s⟩ := rfl

/-- A run either stands at the program's end, or executes one statement after the scheduled core turns and goes on from there. -/
theorem hostRun_cons (prog : List Stmt) (n pos : Nat) (sched : List Nat) (s : State) (r : HostRun)
    (h : hostRun prog (n :: sched) pos s = some r) :
    (prog[pos]? = none ∧ r = ⟨[], pos, s⟩) ∨
    ∃ st t q u r', prog[pos]? = some st ∧ coreTurns n s = some t ∧ hostStatement prog pos t = some (q, u) ∧
      hostRun prog sched q u = some r' ∧ r = { r' with log := logged st u ++ r'.log } := by
  rw [hostRun] at h
  split at h
  · rename_i hp
    exact .inl ⟨hp, (Option.some.inj h).symm⟩
  · rename_i st hp
    obtain ⟨t, ht, h⟩ := Option.bind_eq_some_iff.1 h
    obtain ⟨⟨q, u⟩, hq, h⟩ := Option.bind_eq_some_iff.1 h
    obtain ⟨r', hr, e⟩ := Option.map_eq_some_iff.1 h
    exact .inr ⟨st, t, q, u, r', hp, ht, hq, hr, e.symm⟩

/-- A label right before the branch is the one a branch to its name means, whatever else the program holds. -/
theorem labelPos_just_before (prog : List Stmt) (pos : Nat) (name : String) (h : prog[pos]? = some (.label name)) :
    labelPos prog (pos + 1) name = some pos := by
  unfold labelPos
  rw [List.range_succ, List.reverse_append]
  simp [h]

end Sys2Proof.Machine
end

