-- ==== Sys2Proof/Laws/State.lean ====
section
/-! SUPPORT. What every named update of the state does to every field: one lemma a field, true by rfl, so that no proof unfolds a record
update. -/

namespace Sys2Proof.Machine

/-! the end of a command (R262) -/

@[simp] theorem endCmd_cmd (x : CmdState) (s : State) : (endCmd x s).cmd = s.cmd := rfl
@[simp] theorem endCmd_state (x : CmdState) (s : State) : (endCmd x s).state = x := rfl
@[simp] theorem endCmd_drop (x : CmdState) (s : State) : (endCmd x s).drop = s.drop := rfl
@[simp] theorem endCmd_degen (x : CmdState) (s : State) : (endCmd x s).degen = s.degen := rfl
@[simp] theorem endCmd_errCode (x : CmdState) (s : State) : (endCmd x s).errCode = s.errCode := rfl
@[simp] theorem endCmd_errCause (x : CmdState) (s : State) : (endCmd x s).errCause = s.errCause := rfl
@[simp] theorem endCmd_errInfo (x : CmdState) (s : State) : (endCmd x s).errInfo = s.errInfo := rfl
@[simp] theorem endCmd_intStatus (x : CmdState) (s : State) : (endCmd x s).intStatus = setIntDone s.intStatus := rfl
@[simp] theorem endCmd_intEnable (x : CmdState) (s : State) : (endCmd x s).intEnable = s.intEnable := rfl
@[simp] theorem endCmd_nbits (x : CmdState) (s : State) : (endCmd x s).nbits = s.nbits := rfl
@[simp] theorem endCmd_nrx (x : CmdState) (s : State) : (endCmd x s).nrx = s.nrx := rfl
@[simp] theorem endCmd_snrStart (x : CmdState) (s : State) : (endCmd x s).snrStart = s.snrStart := rfl
@[simp] theorem endCmd_snrEnd (x : CmdState) (s : State) : (endCmd x s).snrEnd = s.snrEnd := rfl
@[simp] theorem endCmd_snrStep (x : CmdState) (s : State) : (endCmd x s).snrStep = s.snrStep := rfl
@[simp] theorem endCmd_snrCur (x : CmdState) (s : State) : (endCmd x s).snrCur = s.snrCur := rfl
@[simp] theorem endCmd_seed (x : CmdState) (s : State) : (endCmd x s).seed = s.seed := rfl
@[simp] theorem endCmd_stream (x : CmdState) (s : State) : (endCmd x s).stream = s.stream := rfl
@[simp] theorem endCmd_bitIdx (x : CmdState) (s : State) : (endCmd x s).bitIdx = s.bitIdx := rfl
@[simp] theorem endCmd_gaussIdx (x : CmdState) (s : State) : (endCmd x s).gaussIdx = s.gaussIdx := rfl
@[simp] theorem endCmd_errcnt (x : CmdState) (s : State) : (endCmd x s).errcnt = s.errcnt := rfl
@[simp] theorem endCmd_bitcnt (x : CmdState) (s : State) : (endCmd x s).bitcnt = s.bitcnt := rfl
@[simp] theorem endCmd_degenCnt (x : CmdState) (s : State) : (endCmd x s).degenCnt = s.degenCnt := rfl
@[simp] theorem endCmd_ber (x : CmdState) (s : State) : (endCmd x s).ber = s.ber := rfl
@[simp] theorem endCmd_sigma (x : CmdState) (s : State) : (endCmd x s).sigma = s.sigma := rfl
@[simp] theorem endCmd_resultCount (x : CmdState) (s : State) : (endCmd x s).resultCount = s.resultCount := rfl
@[simp] theorem endCmd_bits (x : CmdState) (s : State) : (endCmd x s).bits = s.bits := rfl
@[simp] theorem endCmd_bhat (x : CmdState) (s : State) : (endCmd x s).bhat = s.bhat := rfl
@[simp] theorem endCmd_s1 (x : CmdState) (s : State) : (endCmd x s).s1 = s.s1 := rfl
@[simp] theorem endCmd_s2 (x : CmdState) (s : State) : (endCmd x s).s2 = s.s2 := rfl
@[simp] theorem endCmd_x00 (x : CmdState) (s : State) : (endCmd x s).x00 = s.x00 := rfl
@[simp] theorem endCmd_x01 (x : CmdState) (s : State) : (endCmd x s).x01 = s.x01 := rfl
@[simp] theorem endCmd_x10 (x : CmdState) (s : State) : (endCmd x s).x10 = s.x10 := rfl
@[simp] theorem endCmd_x11 (x : CmdState) (s : State) : (endCmd x s).x11 = s.x11 := rfl
@[simp] theorem endCmd_z1 (x : CmdState) (s : State) : (endCmd x s).z1 = s.z1 := rfl
@[simp] theorem endCmd_z2 (x : CmdState) (s : State) : (endCmd x s).z2 = s.z2 := rfl
@[simp] theorem endCmd_den (x : CmdState) (s : State) : (endCmd x s).den = s.den := rfl
@[simp] theorem endCmd_h (x : CmdState) (s : State) : (endCmd x s).h = s.h := rfl
@[simp] theorem endCmd_nz (x : CmdState) (s : State) : (endCmd x s).nz = s.nz := rfl
@[simp] theorem endCmd_y (x : CmdState) (s : State) : (endCmd x s).y = s.y := rfl
@[simp] theorem endCmd_result (x : CmdState) (s : State) : (endCmd x s).result = s.result := rfl
@[simp] theorem endCmd_abortReq (x : CmdState) (s : State) : (endCmd x s).abortReq = false := rfl
@[simp] theorem endCmd_phase (x : CmdState) (s : State) : (endCmd x s).phase = .none := rfl
@[simp] theorem endCmd_k (x : CmdState) (s : State) : (endCmd x s).k = s.k := rfl
@[simp] theorem endCmd_p (x : CmdState) (s : State) : (endCmd x s).p = s.p := rfl
@[simp] theorem endCmd_cwdone (x : CmdState) (s : State) : (endCmd x s).cwdone = s.cwdone := rfl
@[simp] theorem endCmd_draws (x : CmdState) (s : State) : (endCmd x s).draws = s.draws := rfl
@[simp] theorem endCmd_resp (x : CmdState) (s : State) : (endCmd x s).resp = s.resp := rfl
@[simp] theorem endCmd_events (x : CmdState) (s : State) : (endCmd x s).events = s.events := rfl

/-! error entry (R290) -/

@[simp] theorem raiseError_cmd (c a : BitVec 8) (v : Word) (s : State) : (raiseError c a v s).cmd = s.cmd := rfl
@[simp] theorem raiseError_state (c a : BitVec 8) (v : Word) (s : State) : (raiseError c a v s).state = .error := rfl
@[simp] theorem raiseError_drop (c a : BitVec 8) (v : Word) (s : State) : (raiseError c a v s).drop = s.drop := rfl
@[simp] theorem raiseError_degen (c a : BitVec 8) (v : Word) (s : State) : (raiseError c a v s).degen = s.degen := rfl
@[simp] theorem raiseError_errCode (c a : BitVec 8) (v : Word) (s : State) : (raiseError c a v s).errCode = c := rfl
@[simp] theorem raiseError_errCause (c a : BitVec 8) (v : Word) (s : State) : (raiseError c a v s).errCause = a := rfl
@[simp] theorem raiseError_errInfo (c a : BitVec 8) (v : Word) (s : State) : (raiseError c a v s).errInfo = v := rfl
@[simp] theorem raiseError_intStatus (c a : BitVec 8) (v : Word) (s : State) : (raiseError c a v s).intStatus = setIntError s.intStatus := rfl
@[simp] theorem raiseError_intEnable (c a : BitVec 8) (v : Word) (s : State) : (raiseError c a v s).intEnable = s.intEnable := rfl
@[simp] theorem raiseError_nbits (c a : BitVec 8) (v : Word) (s : State) : (raiseError c a v s).nbits = s.nbits := rfl
@[simp] theorem raiseError_nrx (c a : BitVec 8) (v : Word) (s : State) : (raiseError c a v s).nrx = s.nrx := rfl
@[simp] theorem raiseError_snrStart (c a : BitVec 8) (v : Word) (s : State) : (raiseError c a v s).snrStart = s.snrStart := rfl
@[simp] theorem raiseError_snrEnd (c a : BitVec 8) (v : Word) (s : State) : (raiseError c a v s).snrEnd = s.snrEnd := rfl
@[simp] theorem raiseError_snrStep (c a : BitVec 8) (v : Word) (s : State) : (raiseError c a v s).snrStep = s.snrStep := rfl
@[simp] theorem raiseError_snrCur (c a : BitVec 8) (v : Word) (s : State) : (raiseError c a v s).snrCur = s.snrCur := rfl
@[simp] theorem raiseError_seed (c a : BitVec 8) (v : Word) (s : State) : (raiseError c a v s).seed = s.seed := rfl
@[simp] theorem raiseError_stream (c a : BitVec 8) (v : Word) (s : State) : (raiseError c a v s).stream = s.stream := rfl
@[simp] theorem raiseError_bitIdx (c a : BitVec 8) (v : Word) (s : State) : (raiseError c a v s).bitIdx = s.bitIdx := rfl
@[simp] theorem raiseError_gaussIdx (c a : BitVec 8) (v : Word) (s : State) : (raiseError c a v s).gaussIdx = s.gaussIdx := rfl
@[simp] theorem raiseError_errcnt (c a : BitVec 8) (v : Word) (s : State) : (raiseError c a v s).errcnt = s.errcnt := rfl
@[simp] theorem raiseError_bitcnt (c a : BitVec 8) (v : Word) (s : State) : (raiseError c a v s).bitcnt = s.bitcnt := rfl
@[simp] theorem raiseError_degenCnt (c a : BitVec 8) (v : Word) (s : State) : (raiseError c a v s).degenCnt = s.degenCnt := rfl
@[simp] theorem raiseError_ber (c a : BitVec 8) (v : Word) (s : State) : (raiseError c a v s).ber = s.ber := rfl
@[simp] theorem raiseError_sigma (c a : BitVec 8) (v : Word) (s : State) : (raiseError c a v s).sigma = s.sigma := rfl
@[simp] theorem raiseError_resultCount (c a : BitVec 8) (v : Word) (s : State) : (raiseError c a v s).resultCount = s.resultCount := rfl
@[simp] theorem raiseError_bits (c a : BitVec 8) (v : Word) (s : State) : (raiseError c a v s).bits = s.bits := rfl
@[simp] theorem raiseError_bhat (c a : BitVec 8) (v : Word) (s : State) : (raiseError c a v s).bhat = s.bhat := rfl
@[simp] theorem raiseError_s1 (c a : BitVec 8) (v : Word) (s : State) : (raiseError c a v s).s1 = s.s1 := rfl
@[simp] theorem raiseError_s2 (c a : BitVec 8) (v : Word) (s : State) : (raiseError c a v s).s2 = s.s2 := rfl
@[simp] theorem raiseError_x00 (c a : BitVec 8) (v : Word) (s : State) : (raiseError c a v s).x00 = s.x00 := rfl
@[simp] theorem raiseError_x01 (c a : BitVec 8) (v : Word) (s : State) : (raiseError c a v s).x01 = s.x01 := rfl
@[simp] theorem raiseError_x10 (c a : BitVec 8) (v : Word) (s : State) : (raiseError c a v s).x10 = s.x10 := rfl
@[simp] theorem raiseError_x11 (c a : BitVec 8) (v : Word) (s : State) : (raiseError c a v s).x11 = s.x11 := rfl
@[simp] theorem raiseError_z1 (c a : BitVec 8) (v : Word) (s : State) : (raiseError c a v s).z1 = s.z1 := rfl
@[simp] theorem raiseError_z2 (c a : BitVec 8) (v : Word) (s : State) : (raiseError c a v s).z2 = s.z2 := rfl
@[simp] theorem raiseError_den (c a : BitVec 8) (v : Word) (s : State) : (raiseError c a v s).den = s.den := rfl
@[simp] theorem raiseError_h (c a : BitVec 8) (v : Word) (s : State) : (raiseError c a v s).h = s.h := rfl
@[simp] theorem raiseError_nz (c a : BitVec 8) (v : Word) (s : State) : (raiseError c a v s).nz = s.nz := rfl
@[simp] theorem raiseError_y (c a : BitVec 8) (v : Word) (s : State) : (raiseError c a v s).y = s.y := rfl
@[simp] theorem raiseError_result (c a : BitVec 8) (v : Word) (s : State) : (raiseError c a v s).result = s.result := rfl
@[simp] theorem raiseError_abortReq (c a : BitVec 8) (v : Word) (s : State) : (raiseError c a v s).abortReq = s.abortReq := rfl
@[simp] theorem raiseError_phase (c a : BitVec 8) (v : Word) (s : State) : (raiseError c a v s).phase = s.phase := rfl
@[simp] theorem raiseError_k (c a : BitVec 8) (v : Word) (s : State) : (raiseError c a v s).k = s.k := rfl
@[simp] theorem raiseError_p (c a : BitVec 8) (v : Word) (s : State) : (raiseError c a v s).p = s.p := rfl
@[simp] theorem raiseError_cwdone (c a : BitVec 8) (v : Word) (s : State) : (raiseError c a v s).cwdone = s.cwdone := rfl
@[simp] theorem raiseError_draws (c a : BitVec 8) (v : Word) (s : State) : (raiseError c a v s).draws = s.draws := rfl
@[simp] theorem raiseError_resp (c a : BitVec 8) (v : Word) (s : State) : (raiseError c a v s).resp = s.resp := rfl
@[simp] theorem raiseError_events (c a : BitVec 8) (v : Word) (s : State) : (raiseError c a v s).events = s.events := rfl

/-! acceptance (R260) -/

@[simp] theorem accept_cmd (i : Instr) (s : State) : (accept i s).cmd = s.cmd := rfl
@[simp] theorem accept_state (i : Instr) (s : State) : (accept i s).state = .busy := rfl
@[simp] theorem accept_drop (i : Instr) (s : State) : (accept i s).drop = s.drop := rfl
@[simp] theorem accept_degen (i : Instr) (s : State) : (accept i s).degen = s.degen := rfl
@[simp] theorem accept_errCode (i : Instr) (s : State) : (accept i s).errCode = s.errCode := rfl
@[simp] theorem accept_errCause (i : Instr) (s : State) : (accept i s).errCause = s.errCause := rfl
@[simp] theorem accept_errInfo (i : Instr) (s : State) : (accept i s).errInfo = s.errInfo := rfl
@[simp] theorem accept_intStatus (i : Instr) (s : State) : (accept i s).intStatus = s.intStatus := rfl
@[simp] theorem accept_intEnable (i : Instr) (s : State) : (accept i s).intEnable = s.intEnable := rfl
@[simp] theorem accept_nbits (i : Instr) (s : State) : (accept i s).nbits = s.nbits := rfl
@[simp] theorem accept_nrx (i : Instr) (s : State) : (accept i s).nrx = s.nrx := rfl
@[simp] theorem accept_snrStart (i : Instr) (s : State) : (accept i s).snrStart = s.snrStart := rfl
@[simp] theorem accept_snrEnd (i : Instr) (s : State) : (accept i s).snrEnd = s.snrEnd := rfl
@[simp] theorem accept_snrStep (i : Instr) (s : State) : (accept i s).snrStep = s.snrStep := rfl
@[simp] theorem accept_snrCur (i : Instr) (s : State) : (accept i s).snrCur = s.snrCur := rfl
@[simp] theorem accept_seed (i : Instr) (s : State) : (accept i s).seed = s.seed := rfl
@[simp] theorem accept_stream (i : Instr) (s : State) : (accept i s).stream = s.stream := rfl
@[simp] theorem accept_bitIdx (i : Instr) (s : State) : (accept i s).bitIdx = s.bitIdx := rfl
@[simp] theorem accept_gaussIdx (i : Instr) (s : State) : (accept i s).gaussIdx = s.gaussIdx := rfl
@[simp] theorem accept_errcnt (i : Instr) (s : State) : (accept i s).errcnt = s.errcnt := rfl
@[simp] theorem accept_bitcnt (i : Instr) (s : State) : (accept i s).bitcnt = s.bitcnt := rfl
@[simp] theorem accept_degenCnt (i : Instr) (s : State) : (accept i s).degenCnt = s.degenCnt := rfl
@[simp] theorem accept_ber (i : Instr) (s : State) : (accept i s).ber = s.ber := rfl
@[simp] theorem accept_sigma (i : Instr) (s : State) : (accept i s).sigma = s.sigma := rfl
@[simp] theorem accept_resultCount (i : Instr) (s : State) : (accept i s).resultCount = s.resultCount := rfl
@[simp] theorem accept_bits (i : Instr) (s : State) : (accept i s).bits = s.bits := rfl
@[simp] theorem accept_bhat (i : Instr) (s : State) : (accept i s).bhat = s.bhat := rfl
@[simp] theorem accept_s1 (i : Instr) (s : State) : (accept i s).s1 = s.s1 := rfl
@[simp] theorem accept_s2 (i : Instr) (s : State) : (accept i s).s2 = s.s2 := rfl
@[simp] theorem accept_x00 (i : Instr) (s : State) : (accept i s).x00 = s.x00 := rfl
@[simp] theorem accept_x01 (i : Instr) (s : State) : (accept i s).x01 = s.x01 := rfl
@[simp] theorem accept_x10 (i : Instr) (s : State) : (accept i s).x10 = s.x10 := rfl
@[simp] theorem accept_x11 (i : Instr) (s : State) : (accept i s).x11 = s.x11 := rfl
@[simp] theorem accept_z1 (i : Instr) (s : State) : (accept i s).z1 = s.z1 := rfl
@[simp] theorem accept_z2 (i : Instr) (s : State) : (accept i s).z2 = s.z2 := rfl
@[simp] theorem accept_den (i : Instr) (s : State) : (accept i s).den = s.den := rfl
@[simp] theorem accept_h (i : Instr) (s : State) : (accept i s).h = s.h := rfl
@[simp] theorem accept_nz (i : Instr) (s : State) : (accept i s).nz = s.nz := rfl
@[simp] theorem accept_y (i : Instr) (s : State) : (accept i s).y = s.y := rfl
@[simp] theorem accept_result (i : Instr) (s : State) : (accept i s).result = s.result := rfl
@[simp] theorem accept_abortReq (i : Instr) (s : State) : (accept i s).abortReq = false := rfl
@[simp] theorem accept_phase (i : Instr) (s : State) : (accept i s).phase = startPhase i := rfl
@[simp] theorem accept_k (i : Instr) (s : State) : (accept i s).k = s.k := rfl
@[simp] theorem accept_p (i : Instr) (s : State) : (accept i s).p = if i = .sweep then pointCount s else s.p := rfl
@[simp] theorem accept_cwdone (i : Instr) (s : State) : (accept i s).cwdone = s.cwdone := rfl
@[simp] theorem accept_draws (i : Instr) (s : State) : (accept i s).draws = s.draws := rfl
@[simp] theorem accept_resp (i : Instr) (s : State) : (accept i s).resp = s.resp := rfl
@[simp] theorem accept_events (i : Instr) (s : State) : (accept i s).events = s.events := rfl

/-! DRAWB (R142) -/

@[simp] theorem drawbBody_cmd (g : Gen) (s : State) : (drawbBody g s).cmd = s.cmd := rfl
@[simp] theorem drawbBody_state (g : Gen) (s : State) : (drawbBody g s).state = s.state := rfl
@[simp] theorem drawbBody_drop (g : Gen) (s : State) : (drawbBody g s).drop = s.drop := rfl
@[simp] theorem drawbBody_degen (g : Gen) (s : State) : (drawbBody g s).degen = s.degen := rfl
@[simp] theorem drawbBody_errCode (g : Gen) (s : State) : (drawbBody g s).errCode = s.errCode := rfl
@[simp] theorem drawbBody_errCause (g : Gen) (s : State) : (drawbBody g s).errCause = s.errCause := rfl
@[simp] theorem drawbBody_errInfo (g : Gen) (s : State) : (drawbBody g s).errInfo = s.errInfo := rfl
@[simp] theorem drawbBody_intStatus (g : Gen) (s : State) : (drawbBody g s).intStatus = s.intStatus := rfl
@[simp] theorem drawbBody_intEnable (g : Gen) (s : State) : (drawbBody g s).intEnable = s.intEnable := rfl
@[simp] theorem drawbBody_nbits (g : Gen) (s : State) : (drawbBody g s).nbits = s.nbits := rfl
@[simp] theorem drawbBody_nrx (g : Gen) (s : State) : (drawbBody g s).nrx = s.nrx := rfl
@[simp] theorem drawbBody_snrStart (g : Gen) (s : State) : (drawbBody g s).snrStart = s.snrStart := rfl
@[simp] theorem drawbBody_snrEnd (g : Gen) (s : State) : (drawbBody g s).snrEnd = s.snrEnd := rfl
@[simp] theorem drawbBody_snrStep (g : Gen) (s : State) : (drawbBody g s).snrStep = s.snrStep := rfl
@[simp] theorem drawbBody_snrCur (g : Gen) (s : State) : (drawbBody g s).snrCur = s.snrCur := rfl
@[simp] theorem drawbBody_seed (g : Gen) (s : State) : (drawbBody g s).seed = s.seed := rfl
@[simp] theorem drawbBody_stream (g : Gen) (s : State) : (drawbBody g s).stream = s.stream := rfl
@[simp] theorem drawbBody_bitIdx (g : Gen) (s : State) : (drawbBody g s).bitIdx = s.bitIdx + 2#64 := rfl
@[simp] theorem drawbBody_gaussIdx (g : Gen) (s : State) : (drawbBody g s).gaussIdx = s.gaussIdx := rfl
@[simp] theorem drawbBody_errcnt (g : Gen) (s : State) : (drawbBody g s).errcnt = s.errcnt := rfl
@[simp] theorem drawbBody_bitcnt (g : Gen) (s : State) : (drawbBody g s).bitcnt = s.bitcnt := rfl
@[simp] theorem drawbBody_degenCnt (g : Gen) (s : State) : (drawbBody g s).degenCnt = s.degenCnt := rfl
@[simp] theorem drawbBody_ber (g : Gen) (s : State) : (drawbBody g s).ber = s.ber := rfl
@[simp] theorem drawbBody_sigma (g : Gen) (s : State) : (drawbBody g s).sigma = s.sigma := rfl
@[simp] theorem drawbBody_resultCount (g : Gen) (s : State) : (drawbBody g s).resultCount = s.resultCount := rfl
@[simp] theorem drawbBody_bits (g : Gen) (s : State) : (drawbBody g s).bits = pairBits (g.bit s.seed s.stream s.bitIdx) (g.bit s.seed s.stream (s.bitIdx + 1#64)) := rfl
@[simp] theorem drawbBody_bhat (g : Gen) (s : State) : (drawbBody g s).bhat = s.bhat := rfl
@[simp] theorem drawbBody_s1 (g : Gen) (s : State) : (drawbBody g s).s1 = s.s1 := rfl
@[simp] theorem drawbBody_s2 (g : Gen) (s : State) : (drawbBody g s).s2 = s.s2 := rfl
@[simp] theorem drawbBody_x00 (g : Gen) (s : State) : (drawbBody g s).x00 = s.x00 := rfl
@[simp] theorem drawbBody_x01 (g : Gen) (s : State) : (drawbBody g s).x01 = s.x01 := rfl
@[simp] theorem drawbBody_x10 (g : Gen) (s : State) : (drawbBody g s).x10 = s.x10 := rfl
@[simp] theorem drawbBody_x11 (g : Gen) (s : State) : (drawbBody g s).x11 = s.x11 := rfl
@[simp] theorem drawbBody_z1 (g : Gen) (s : State) : (drawbBody g s).z1 = s.z1 := rfl
@[simp] theorem drawbBody_z2 (g : Gen) (s : State) : (drawbBody g s).z2 = s.z2 := rfl
@[simp] theorem drawbBody_den (g : Gen) (s : State) : (drawbBody g s).den = s.den := rfl
@[simp] theorem drawbBody_h (g : Gen) (s : State) : (drawbBody g s).h = s.h := rfl
@[simp] theorem drawbBody_nz (g : Gen) (s : State) : (drawbBody g s).nz = s.nz := rfl
@[simp] theorem drawbBody_y (g : Gen) (s : State) : (drawbBody g s).y = s.y := rfl
@[simp] theorem drawbBody_result (g : Gen) (s : State) : (drawbBody g s).result = s.result := rfl
@[simp] theorem drawbBody_abortReq (g : Gen) (s : State) : (drawbBody g s).abortReq = s.abortReq := rfl
@[simp] theorem drawbBody_phase (g : Gen) (s : State) : (drawbBody g s).phase = s.phase := rfl
@[simp] theorem drawbBody_k (g : Gen) (s : State) : (drawbBody g s).k = s.k := rfl
@[simp] theorem drawbBody_p (g : Gen) (s : State) : (drawbBody g s).p = s.p := rfl
@[simp] theorem drawbBody_cwdone (g : Gen) (s : State) : (drawbBody g s).cwdone = s.cwdone := rfl
@[simp] theorem drawbBody_draws (g : Gen) (s : State) : (drawbBody g s).draws = s.draws := rfl
@[simp] theorem drawbBody_resp (g : Gen) (s : State) : (drawbBody g s).resp = s.resp := rfl
@[simp] theorem drawbBody_events (g : Gen) (s : State) : (drawbBody g s).events = s.events := rfl

/-! MAP (R143) -/

@[simp] theorem mapBody_cmd (s : State) : (mapBody s).cmd = s.cmd := rfl
@[simp] theorem mapBody_state (s : State) : (mapBody s).state = s.state := rfl
@[simp] theorem mapBody_drop (s : State) : (mapBody s).drop = s.drop := rfl
@[simp] theorem mapBody_degen (s : State) : (mapBody s).degen = s.degen := rfl
@[simp] theorem mapBody_errCode (s : State) : (mapBody s).errCode = s.errCode := rfl
@[simp] theorem mapBody_errCause (s : State) : (mapBody s).errCause = s.errCause := rfl
@[simp] theorem mapBody_errInfo (s : State) : (mapBody s).errInfo = s.errInfo := rfl
@[simp] theorem mapBody_intStatus (s : State) : (mapBody s).intStatus = s.intStatus := rfl
@[simp] theorem mapBody_intEnable (s : State) : (mapBody s).intEnable = s.intEnable := rfl
@[simp] theorem mapBody_nbits (s : State) : (mapBody s).nbits = s.nbits := rfl
@[simp] theorem mapBody_nrx (s : State) : (mapBody s).nrx = s.nrx := rfl
@[simp] theorem mapBody_snrStart (s : State) : (mapBody s).snrStart = s.snrStart := rfl
@[simp] theorem mapBody_snrEnd (s : State) : (mapBody s).snrEnd = s.snrEnd := rfl
@[simp] theorem mapBody_snrStep (s : State) : (mapBody s).snrStep = s.snrStep := rfl
@[simp] theorem mapBody_snrCur (s : State) : (mapBody s).snrCur = s.snrCur := rfl
@[simp] theorem mapBody_seed (s : State) : (mapBody s).seed = s.seed := rfl
@[simp] theorem mapBody_stream (s : State) : (mapBody s).stream = s.stream := rfl
@[simp] theorem mapBody_bitIdx (s : State) : (mapBody s).bitIdx = s.bitIdx := rfl
@[simp] theorem mapBody_gaussIdx (s : State) : (mapBody s).gaussIdx = s.gaussIdx := rfl
@[simp] theorem mapBody_errcnt (s : State) : (mapBody s).errcnt = s.errcnt := rfl
@[simp] theorem mapBody_bitcnt (s : State) : (mapBody s).bitcnt = s.bitcnt := rfl
@[simp] theorem mapBody_degenCnt (s : State) : (mapBody s).degenCnt = s.degenCnt := rfl
@[simp] theorem mapBody_ber (s : State) : (mapBody s).ber = s.ber := rfl
@[simp] theorem mapBody_sigma (s : State) : (mapBody s).sigma = s.sigma := rfl
@[simp] theorem mapBody_resultCount (s : State) : (mapBody s).resultCount = s.resultCount := rfl
@[simp] theorem mapBody_bits (s : State) : (mapBody s).bits = s.bits := rfl
@[simp] theorem mapBody_bhat (s : State) : (mapBody s).bhat = s.bhat := rfl
@[simp] theorem mapBody_s1 (s : State) : (mapBody s).s1 = sym (s.bits.getLsbD 0) := rfl
@[simp] theorem mapBody_s2 (s : State) : (mapBody s).s2 = sym (s.bits.getLsbD 1) := rfl
@[simp] theorem mapBody_x00 (s : State) : (mapBody s).x00 = s.x00 := rfl
@[simp] theorem mapBody_x01 (s : State) : (mapBody s).x01 = s.x01 := rfl
@[simp] theorem mapBody_x10 (s : State) : (mapBody s).x10 = s.x10 := rfl
@[simp] theorem mapBody_x11 (s : State) : (mapBody s).x11 = s.x11 := rfl
@[simp] theorem mapBody_z1 (s : State) : (mapBody s).z1 = s.z1 := rfl
@[simp] theorem mapBody_z2 (s : State) : (mapBody s).z2 = s.z2 := rfl
@[simp] theorem mapBody_den (s : State) : (mapBody s).den = s.den := rfl
@[simp] theorem mapBody_h (s : State) : (mapBody s).h = s.h := rfl
@[simp] theorem mapBody_nz (s : State) : (mapBody s).nz = s.nz := rfl
@[simp] theorem mapBody_y (s : State) : (mapBody s).y = s.y := rfl
@[simp] theorem mapBody_result (s : State) : (mapBody s).result = s.result := rfl
@[simp] theorem mapBody_abortReq (s : State) : (mapBody s).abortReq = s.abortReq := rfl
@[simp] theorem mapBody_phase (s : State) : (mapBody s).phase = s.phase := rfl
@[simp] theorem mapBody_k (s : State) : (mapBody s).k = s.k := rfl
@[simp] theorem mapBody_p (s : State) : (mapBody s).p = s.p := rfl
@[simp] theorem mapBody_cwdone (s : State) : (mapBody s).cwdone = s.cwdone := rfl
@[simp] theorem mapBody_draws (s : State) : (mapBody s).draws = s.draws := rfl
@[simp] theorem mapBody_resp (s : State) : (mapBody s).resp = s.resp := rfl
@[simp] theorem mapBody_events (s : State) : (mapBody s).events = s.events := rfl

/-! ENC (R145) -/

@[simp] theorem encBody_cmd (norm : Bool) (s : State) : (encBody norm s).cmd = s.cmd := rfl
@[simp] theorem encBody_state (norm : Bool) (s : State) : (encBody norm s).state = s.state := rfl
@[simp] theorem encBody_drop (norm : Bool) (s : State) : (encBody norm s).drop = s.drop := rfl
@[simp] theorem encBody_degen (norm : Bool) (s : State) : (encBody norm s).degen = s.degen := rfl
@[simp] theorem encBody_errCode (norm : Bool) (s : State) : (encBody norm s).errCode = s.errCode := rfl
@[simp] theorem encBody_errCause (norm : Bool) (s : State) : (encBody norm s).errCause = s.errCause := rfl
@[simp] theorem encBody_errInfo (norm : Bool) (s : State) : (encBody norm s).errInfo = s.errInfo := rfl
@[simp] theorem encBody_intStatus (norm : Bool) (s : State) : (encBody norm s).intStatus = s.intStatus := rfl
@[simp] theorem encBody_intEnable (norm : Bool) (s : State) : (encBody norm s).intEnable = s.intEnable := rfl
@[simp] theorem encBody_nbits (norm : Bool) (s : State) : (encBody norm s).nbits = s.nbits := rfl
@[simp] theorem encBody_nrx (norm : Bool) (s : State) : (encBody norm s).nrx = s.nrx := rfl
@[simp] theorem encBody_snrStart (norm : Bool) (s : State) : (encBody norm s).snrStart = s.snrStart := rfl
@[simp] theorem encBody_snrEnd (norm : Bool) (s : State) : (encBody norm s).snrEnd = s.snrEnd := rfl
@[simp] theorem encBody_snrStep (norm : Bool) (s : State) : (encBody norm s).snrStep = s.snrStep := rfl
@[simp] theorem encBody_snrCur (norm : Bool) (s : State) : (encBody norm s).snrCur = s.snrCur := rfl
@[simp] theorem encBody_seed (norm : Bool) (s : State) : (encBody norm s).seed = s.seed := rfl
@[simp] theorem encBody_stream (norm : Bool) (s : State) : (encBody norm s).stream = s.stream := rfl
@[simp] theorem encBody_bitIdx (norm : Bool) (s : State) : (encBody norm s).bitIdx = s.bitIdx := rfl
@[simp] theorem encBody_gaussIdx (norm : Bool) (s : State) : (encBody norm s).gaussIdx = s.gaussIdx := rfl
@[simp] theorem encBody_errcnt (norm : Bool) (s : State) : (encBody norm s).errcnt = s.errcnt := rfl
@[simp] theorem encBody_bitcnt (norm : Bool) (s : State) : (encBody norm s).bitcnt = s.bitcnt := rfl
@[simp] theorem encBody_degenCnt (norm : Bool) (s : State) : (encBody norm s).degenCnt = s.degenCnt := rfl
@[simp] theorem encBody_ber (norm : Bool) (s : State) : (encBody norm s).ber = s.ber := rfl
@[simp] theorem encBody_sigma (norm : Bool) (s : State) : (encBody norm s).sigma = s.sigma := rfl
@[simp] theorem encBody_resultCount (norm : Bool) (s : State) : (encBody norm s).resultCount = s.resultCount := rfl
@[simp] theorem encBody_bits (norm : Bool) (s : State) : (encBody norm s).bits = s.bits := rfl
@[simp] theorem encBody_bhat (norm : Bool) (s : State) : (encBody norm s).bhat = s.bhat := rfl
@[simp] theorem encBody_s1 (norm : Bool) (s : State) : (encBody norm s).s1 = s.s1 := rfl
@[simp] theorem encBody_s2 (norm : Bool) (s : State) : (encBody norm s).s2 = s.s2 := rfl
@[simp] theorem encBody_x00 (norm : Bool) (s : State) : (encBody norm s).x00 = scaleSym norm s.draws s.s1 := rfl
@[simp] theorem encBody_x01 (norm : Bool) (s : State) : (encBody norm s).x01 = scaleSym norm (s.draws + 2) (cneg (conj s.s2)) := rfl
@[simp] theorem encBody_x10 (norm : Bool) (s : State) : (encBody norm s).x10 = scaleSym norm (s.draws + 4) s.s2 := rfl
@[simp] theorem encBody_x11 (norm : Bool) (s : State) : (encBody norm s).x11 = scaleSym norm (s.draws + 6) (conj s.s1) := rfl
@[simp] theorem encBody_z1 (norm : Bool) (s : State) : (encBody norm s).z1 = s.z1 := rfl
@[simp] theorem encBody_z2 (norm : Bool) (s : State) : (encBody norm s).z2 = s.z2 := rfl
@[simp] theorem encBody_den (norm : Bool) (s : State) : (encBody norm s).den = s.den := rfl
@[simp] theorem encBody_h (norm : Bool) (s : State) : (encBody norm s).h = s.h := rfl
@[simp] theorem encBody_nz (norm : Bool) (s : State) : (encBody norm s).nz = s.nz := rfl
@[simp] theorem encBody_y (norm : Bool) (s : State) : (encBody norm s).y = s.y := rfl
@[simp] theorem encBody_result (norm : Bool) (s : State) : (encBody norm s).result = s.result := rfl
@[simp] theorem encBody_abortReq (norm : Bool) (s : State) : (encBody norm s).abortReq = s.abortReq := rfl
@[simp] theorem encBody_phase (norm : Bool) (s : State) : (encBody norm s).phase = s.phase := rfl
@[simp] theorem encBody_k (norm : Bool) (s : State) : (encBody norm s).k = s.k := rfl
@[simp] theorem encBody_p (norm : Bool) (s : State) : (encBody norm s).p = s.p := rfl
@[simp] theorem encBody_cwdone (norm : Bool) (s : State) : (encBody norm s).cwdone = s.cwdone := rfl
@[simp] theorem encBody_draws (norm : Bool) (s : State) : (encBody norm s).draws = s.draws + 8 := rfl
@[simp] theorem encBody_resp (norm : Bool) (s : State) : (encBody norm s).resp = s.resp := rfl
@[simp] theorem encBody_events (norm : Bool) (s : State) : (encBody norm s).events = s.events := rfl

/-! DRAWH (R173) -/

@[simp] theorem drawhBody_cmd (g : Gen) (s : State) : (drawhBody g s).cmd = s.cmd := rfl
@[simp] theorem drawhBody_state (g : Gen) (s : State) : (drawhBody g s).state = s.state := rfl
@[simp] theorem drawhBody_drop (g : Gen) (s : State) : (drawhBody g s).drop = s.drop := rfl
@[simp] theorem drawhBody_degen (g : Gen) (s : State) : (drawhBody g s).degen = s.degen := rfl
@[simp] theorem drawhBody_errCode (g : Gen) (s : State) : (drawhBody g s).errCode = s.errCode := rfl
@[simp] theorem drawhBody_errCause (g : Gen) (s : State) : (drawhBody g s).errCause = s.errCause := rfl
@[simp] theorem drawhBody_errInfo (g : Gen) (s : State) : (drawhBody g s).errInfo = s.errInfo := rfl
@[simp] theorem drawhBody_intStatus (g : Gen) (s : State) : (drawhBody g s).intStatus = s.intStatus := rfl
@[simp] theorem drawhBody_intEnable (g : Gen) (s : State) : (drawhBody g s).intEnable = s.intEnable := rfl
@[simp] theorem drawhBody_nbits (g : Gen) (s : State) : (drawhBody g s).nbits = s.nbits := rfl
@[simp] theorem drawhBody_nrx (g : Gen) (s : State) : (drawhBody g s).nrx = s.nrx := rfl
@[simp] theorem drawhBody_snrStart (g : Gen) (s : State) : (drawhBody g s).snrStart = s.snrStart := rfl
@[simp] theorem drawhBody_snrEnd (g : Gen) (s : State) : (drawhBody g s).snrEnd = s.snrEnd := rfl
@[simp] theorem drawhBody_snrStep (g : Gen) (s : State) : (drawhBody g s).snrStep = s.snrStep := rfl
@[simp] theorem drawhBody_snrCur (g : Gen) (s : State) : (drawhBody g s).snrCur = s.snrCur := rfl
@[simp] theorem drawhBody_seed (g : Gen) (s : State) : (drawhBody g s).seed = s.seed := rfl
@[simp] theorem drawhBody_stream (g : Gen) (s : State) : (drawhBody g s).stream = s.stream := rfl
@[simp] theorem drawhBody_bitIdx (g : Gen) (s : State) : (drawhBody g s).bitIdx = s.bitIdx := rfl
@[simp] theorem drawhBody_gaussIdx (g : Gen) (s : State) : (drawhBody g s).gaussIdx = (drawInto g s.seed s.stream (hOrder (antennas s)) (s.h, s.gaussIdx, s.draws)).2.1 := rfl
@[simp] theorem drawhBody_errcnt (g : Gen) (s : State) : (drawhBody g s).errcnt = s.errcnt := rfl
@[simp] theorem drawhBody_bitcnt (g : Gen) (s : State) : (drawhBody g s).bitcnt = s.bitcnt := rfl
@[simp] theorem drawhBody_degenCnt (g : Gen) (s : State) : (drawhBody g s).degenCnt = s.degenCnt := rfl
@[simp] theorem drawhBody_ber (g : Gen) (s : State) : (drawhBody g s).ber = s.ber := rfl
@[simp] theorem drawhBody_sigma (g : Gen) (s : State) : (drawhBody g s).sigma = s.sigma := rfl
@[simp] theorem drawhBody_resultCount (g : Gen) (s : State) : (drawhBody g s).resultCount = s.resultCount := rfl
@[simp] theorem drawhBody_bits (g : Gen) (s : State) : (drawhBody g s).bits = s.bits := rfl
@[simp] theorem drawhBody_bhat (g : Gen) (s : State) : (drawhBody g s).bhat = s.bhat := rfl
@[simp] theorem drawhBody_s1 (g : Gen) (s : State) : (drawhBody g s).s1 = s.s1 := rfl
@[simp] theorem drawhBody_s2 (g : Gen) (s : State) : (drawhBody g s).s2 = s.s2 := rfl
@[simp] theorem drawhBody_x00 (g : Gen) (s : State) : (drawhBody g s).x00 = s.x00 := rfl
@[simp] theorem drawhBody_x01 (g : Gen) (s : State) : (drawhBody g s).x01 = s.x01 := rfl
@[simp] theorem drawhBody_x10 (g : Gen) (s : State) : (drawhBody g s).x10 = s.x10 := rfl
@[simp] theorem drawhBody_x11 (g : Gen) (s : State) : (drawhBody g s).x11 = s.x11 := rfl
@[simp] theorem drawhBody_z1 (g : Gen) (s : State) : (drawhBody g s).z1 = s.z1 := rfl
@[simp] theorem drawhBody_z2 (g : Gen) (s : State) : (drawhBody g s).z2 = s.z2 := rfl
@[simp] theorem drawhBody_den (g : Gen) (s : State) : (drawhBody g s).den = s.den := rfl
@[simp] theorem drawhBody_h (g : Gen) (s : State) : (drawhBody g s).h = (drawInto g s.seed s.stream (hOrder (antennas s)) (s.h, s.gaussIdx, s.draws)).1 := rfl
@[simp] theorem drawhBody_nz (g : Gen) (s : State) : (drawhBody g s).nz = s.nz := rfl
@[simp] theorem drawhBody_y (g : Gen) (s : State) : (drawhBody g s).y = s.y := rfl
@[simp] theorem drawhBody_result (g : Gen) (s : State) : (drawhBody g s).result = s.result := rfl
@[simp] theorem drawhBody_abortReq (g : Gen) (s : State) : (drawhBody g s).abortReq = s.abortReq := rfl
@[simp] theorem drawhBody_phase (g : Gen) (s : State) : (drawhBody g s).phase = s.phase := rfl
@[simp] theorem drawhBody_k (g : Gen) (s : State) : (drawhBody g s).k = s.k := rfl
@[simp] theorem drawhBody_p (g : Gen) (s : State) : (drawhBody g s).p = s.p := rfl
@[simp] theorem drawhBody_cwdone (g : Gen) (s : State) : (drawhBody g s).cwdone = s.cwdone := rfl
@[simp] theorem drawhBody_draws (g : Gen) (s : State) : (drawhBody g s).draws = (drawInto g s.seed s.stream (hOrder (antennas s)) (s.h, s.gaussIdx, s.draws)).2.2 := rfl
@[simp] theorem drawhBody_resp (g : Gen) (s : State) : (drawhBody g s).resp = s.resp := rfl
@[simp] theorem drawhBody_events (g : Gen) (s : State) : (drawhBody g s).events = s.events := rfl

/-! DRAWN (R174) -/

@[simp] theorem drawnBody_cmd (g : Gen) (s : State) : (drawnBody g s).cmd = s.cmd := rfl
@[simp] theorem drawnBody_state (g : Gen) (s : State) : (drawnBody g s).state = s.state := rfl
@[simp] theorem drawnBody_drop (g : Gen) (s : State) : (drawnBody g s).drop = s.drop := rfl
@[simp] theorem drawnBody_degen (g : Gen) (s : State) : (drawnBody g s).degen = s.degen := rfl
@[simp] theorem drawnBody_errCode (g : Gen) (s : State) : (drawnBody g s).errCode = s.errCode := rfl
@[simp] theorem drawnBody_errCause (g : Gen) (s : State) : (drawnBody g s).errCause = s.errCause := rfl
@[simp] theorem drawnBody_errInfo (g : Gen) (s : State) : (drawnBody g s).errInfo = s.errInfo := rfl
@[simp] theorem drawnBody_intStatus (g : Gen) (s : State) : (drawnBody g s).intStatus = s.intStatus := rfl
@[simp] theorem drawnBody_intEnable (g : Gen) (s : State) : (drawnBody g s).intEnable = s.intEnable := rfl
@[simp] theorem drawnBody_nbits (g : Gen) (s : State) : (drawnBody g s).nbits = s.nbits := rfl
@[simp] theorem drawnBody_nrx (g : Gen) (s : State) : (drawnBody g s).nrx = s.nrx := rfl
@[simp] theorem drawnBody_snrStart (g : Gen) (s : State) : (drawnBody g s).snrStart = s.snrStart := rfl
@[simp] theorem drawnBody_snrEnd (g : Gen) (s : State) : (drawnBody g s).snrEnd = s.snrEnd := rfl
@[simp] theorem drawnBody_snrStep (g : Gen) (s : State) : (drawnBody g s).snrStep = s.snrStep := rfl
@[simp] theorem drawnBody_snrCur (g : Gen) (s : State) : (drawnBody g s).snrCur = s.snrCur := rfl
@[simp] theorem drawnBody_seed (g : Gen) (s : State) : (drawnBody g s).seed = s.seed := rfl
@[simp] theorem drawnBody_stream (g : Gen) (s : State) : (drawnBody g s).stream = s.stream := rfl
@[simp] theorem drawnBody_bitIdx (g : Gen) (s : State) : (drawnBody g s).bitIdx = s.bitIdx := rfl
@[simp] theorem drawnBody_gaussIdx (g : Gen) (s : State) : (drawnBody g s).gaussIdx = (drawInto g s.seed s.stream (nzOrder (antennas s)) (s.nz, s.gaussIdx, s.draws)).2.1 := rfl
@[simp] theorem drawnBody_errcnt (g : Gen) (s : State) : (drawnBody g s).errcnt = s.errcnt := rfl
@[simp] theorem drawnBody_bitcnt (g : Gen) (s : State) : (drawnBody g s).bitcnt = s.bitcnt := rfl
@[simp] theorem drawnBody_degenCnt (g : Gen) (s : State) : (drawnBody g s).degenCnt = s.degenCnt := rfl
@[simp] theorem drawnBody_ber (g : Gen) (s : State) : (drawnBody g s).ber = s.ber := rfl
@[simp] theorem drawnBody_sigma (g : Gen) (s : State) : (drawnBody g s).sigma = s.sigma := rfl
@[simp] theorem drawnBody_resultCount (g : Gen) (s : State) : (drawnBody g s).resultCount = s.resultCount := rfl
@[simp] theorem drawnBody_bits (g : Gen) (s : State) : (drawnBody g s).bits = s.bits := rfl
@[simp] theorem drawnBody_bhat (g : Gen) (s : State) : (drawnBody g s).bhat = s.bhat := rfl
@[simp] theorem drawnBody_s1 (g : Gen) (s : State) : (drawnBody g s).s1 = s.s1 := rfl
@[simp] theorem drawnBody_s2 (g : Gen) (s : State) : (drawnBody g s).s2 = s.s2 := rfl
@[simp] theorem drawnBody_x00 (g : Gen) (s : State) : (drawnBody g s).x00 = s.x00 := rfl
@[simp] theorem drawnBody_x01 (g : Gen) (s : State) : (drawnBody g s).x01 = s.x01 := rfl
@[simp] theorem drawnBody_x10 (g : Gen) (s : State) : (drawnBody g s).x10 = s.x10 := rfl
@[simp] theorem drawnBody_x11 (g : Gen) (s : State) : (drawnBody g s).x11 = s.x11 := rfl
@[simp] theorem drawnBody_z1 (g : Gen) (s : State) : (drawnBody g s).z1 = s.z1 := rfl
@[simp] theorem drawnBody_z2 (g : Gen) (s : State) : (drawnBody g s).z2 = s.z2 := rfl
@[simp] theorem drawnBody_den (g : Gen) (s : State) : (drawnBody g s).den = s.den := rfl
@[simp] theorem drawnBody_h (g : Gen) (s : State) : (drawnBody g s).h = s.h := rfl
@[simp] theorem drawnBody_nz (g : Gen) (s : State) : (drawnBody g s).nz = (drawInto g s.seed s.stream (nzOrder (antennas s)) (s.nz, s.gaussIdx, s.draws)).1 := rfl
@[simp] theorem drawnBody_y (g : Gen) (s : State) : (drawnBody g s).y = s.y := rfl
@[simp] theorem drawnBody_result (g : Gen) (s : State) : (drawnBody g s).result = s.result := rfl
@[simp] theorem drawnBody_abortReq (g : Gen) (s : State) : (drawnBody g s).abortReq = s.abortReq := rfl
@[simp] theorem drawnBody_phase (g : Gen) (s : State) : (drawnBody g s).phase = s.phase := rfl
@[simp] theorem drawnBody_k (g : Gen) (s : State) : (drawnBody g s).k = s.k := rfl
@[simp] theorem drawnBody_p (g : Gen) (s : State) : (drawnBody g s).p = s.p := rfl
@[simp] theorem drawnBody_cwdone (g : Gen) (s : State) : (drawnBody g s).cwdone = s.cwdone := rfl
@[simp] theorem drawnBody_draws (g : Gen) (s : State) : (drawnBody g s).draws = (drawInto g s.seed s.stream (nzOrder (antennas s)) (s.nz, s.gaussIdx, s.draws)).2.2 := rfl
@[simp] theorem drawnBody_resp (g : Gen) (s : State) : (drawnBody g s).resp = s.resp := rfl
@[simp] theorem drawnBody_events (g : Gen) (s : State) : (drawnBody g s).events = s.events := rfl

/-! CHAN (R180) -/

@[simp] theorem chanBody_cmd (s : State) : (chanBody s).cmd = s.cmd := rfl
@[simp] theorem chanBody_state (s : State) : (chanBody s).state = s.state := rfl
@[simp] theorem chanBody_drop (s : State) : (chanBody s).drop = s.drop := rfl
@[simp] theorem chanBody_degen (s : State) : (chanBody s).degen = s.degen := rfl
@[simp] theorem chanBody_errCode (s : State) : (chanBody s).errCode = s.errCode := rfl
@[simp] theorem chanBody_errCause (s : State) : (chanBody s).errCause = s.errCause := rfl
@[simp] theorem chanBody_errInfo (s : State) : (chanBody s).errInfo = s.errInfo := rfl
@[simp] theorem chanBody_intStatus (s : State) : (chanBody s).intStatus = s.intStatus := rfl
@[simp] theorem chanBody_intEnable (s : State) : (chanBody s).intEnable = s.intEnable := rfl
@[simp] theorem chanBody_nbits (s : State) : (chanBody s).nbits = s.nbits := rfl
@[simp] theorem chanBody_nrx (s : State) : (chanBody s).nrx = s.nrx := rfl
@[simp] theorem chanBody_snrStart (s : State) : (chanBody s).snrStart = s.snrStart := rfl
@[simp] theorem chanBody_snrEnd (s : State) : (chanBody s).snrEnd = s.snrEnd := rfl
@[simp] theorem chanBody_snrStep (s : State) : (chanBody s).snrStep = s.snrStep := rfl
@[simp] theorem chanBody_snrCur (s : State) : (chanBody s).snrCur = s.snrCur := rfl
@[simp] theorem chanBody_seed (s : State) : (chanBody s).seed = s.seed := rfl
@[simp] theorem chanBody_stream (s : State) : (chanBody s).stream = s.stream := rfl
@[simp] theorem chanBody_bitIdx (s : State) : (chanBody s).bitIdx = s.bitIdx := rfl
@[simp] theorem chanBody_gaussIdx (s : State) : (chanBody s).gaussIdx = s.gaussIdx := rfl
@[simp] theorem chanBody_errcnt (s : State) : (chanBody s).errcnt = s.errcnt := rfl
@[simp] theorem chanBody_bitcnt (s : State) : (chanBody s).bitcnt = s.bitcnt := rfl
@[simp] theorem chanBody_degenCnt (s : State) : (chanBody s).degenCnt = s.degenCnt := rfl
@[simp] theorem chanBody_ber (s : State) : (chanBody s).ber = s.ber := rfl
@[simp] theorem chanBody_sigma (s : State) : (chanBody s).sigma = Sys2Proof.Machine.sigma s.snrCur := rfl
@[simp] theorem chanBody_resultCount (s : State) : (chanBody s).resultCount = s.resultCount := rfl
@[simp] theorem chanBody_bits (s : State) : (chanBody s).bits = s.bits := rfl
@[simp] theorem chanBody_bhat (s : State) : (chanBody s).bhat = s.bhat := rfl
@[simp] theorem chanBody_s1 (s : State) : (chanBody s).s1 = s.s1 := rfl
@[simp] theorem chanBody_s2 (s : State) : (chanBody s).s2 = s.s2 := rfl
@[simp] theorem chanBody_x00 (s : State) : (chanBody s).x00 = s.x00 := rfl
@[simp] theorem chanBody_x01 (s : State) : (chanBody s).x01 = s.x01 := rfl
@[simp] theorem chanBody_x10 (s : State) : (chanBody s).x10 = s.x10 := rfl
@[simp] theorem chanBody_x11 (s : State) : (chanBody s).x11 = s.x11 := rfl
@[simp] theorem chanBody_z1 (s : State) : (chanBody s).z1 = s.z1 := rfl
@[simp] theorem chanBody_z2 (s : State) : (chanBody s).z2 = s.z2 := rfl
@[simp] theorem chanBody_den (s : State) : (chanBody s).den = s.den := rfl
@[simp] theorem chanBody_h (s : State) : (chanBody s).h = s.h := rfl
@[simp] theorem chanBody_nz (s : State) : (chanBody s).nz = s.nz := rfl
@[simp] theorem chanBody_y (s : State) : (chanBody s).y = (chanInto s (Sys2Proof.Machine.sigma s.snrCur) (slotOrder (antennas s)) (s.y, s.draws)).1 := rfl
@[simp] theorem chanBody_result (s : State) : (chanBody s).result = s.result := rfl
@[simp] theorem chanBody_abortReq (s : State) : (chanBody s).abortReq = s.abortReq := rfl
@[simp] theorem chanBody_phase (s : State) : (chanBody s).phase = s.phase := rfl
@[simp] theorem chanBody_k (s : State) : (chanBody s).k = s.k := rfl
@[simp] theorem chanBody_p (s : State) : (chanBody s).p = s.p := rfl
@[simp] theorem chanBody_cwdone (s : State) : (chanBody s).cwdone = s.cwdone := rfl
@[simp] theorem chanBody_draws (s : State) : (chanBody s).draws = (chanInto s (Sys2Proof.Machine.sigma s.snrCur) (slotOrder (antennas s)) (s.y, s.draws)).2 := rfl
@[simp] theorem chanBody_resp (s : State) : (chanBody s).resp = s.resp := rfl
@[simp] theorem chanBody_events (s : State) : (chanBody s).events = s.events := rfl

/-! COMB (R201); the fields its divisor decides are in Laws/Ops.lean -/

@[simp] theorem combBody_cmd (s : State) : (combBody s).cmd = s.cmd := rfl
@[simp] theorem combBody_state (s : State) : (combBody s).state = s.state := rfl
@[simp] theorem combBody_drop (s : State) : (combBody s).drop = s.drop := rfl
@[simp] theorem combBody_errCode (s : State) : (combBody s).errCode = s.errCode := rfl
@[simp] theorem combBody_errCause (s : State) : (combBody s).errCause = s.errCause := rfl
@[simp] theorem combBody_errInfo (s : State) : (combBody s).errInfo = s.errInfo := rfl
@[simp] theorem combBody_intEnable (s : State) : (combBody s).intEnable = s.intEnable := rfl
@[simp] theorem combBody_nbits (s : State) : (combBody s).nbits = s.nbits := rfl
@[simp] theorem combBody_nrx (s : State) : (combBody s).nrx = s.nrx := rfl
@[simp] theorem combBody_snrStart (s : State) : (combBody s).snrStart = s.snrStart := rfl
@[simp] theorem combBody_snrEnd (s : State) : (combBody s).snrEnd = s.snrEnd := rfl
@[simp] theorem combBody_snrStep (s : State) : (combBody s).snrStep = s.snrStep := rfl
@[simp] theorem combBody_snrCur (s : State) : (combBody s).snrCur = s.snrCur := rfl
@[simp] theorem combBody_seed (s : State) : (combBody s).seed = s.seed := rfl
@[simp] theorem combBody_stream (s : State) : (combBody s).stream = s.stream := rfl
@[simp] theorem combBody_bitIdx (s : State) : (combBody s).bitIdx = s.bitIdx := rfl
@[simp] theorem combBody_gaussIdx (s : State) : (combBody s).gaussIdx = s.gaussIdx := rfl
@[simp] theorem combBody_errcnt (s : State) : (combBody s).errcnt = s.errcnt := rfl
@[simp] theorem combBody_bitcnt (s : State) : (combBody s).bitcnt = s.bitcnt := rfl
@[simp] theorem combBody_ber (s : State) : (combBody s).ber = s.ber := rfl
@[simp] theorem combBody_sigma (s : State) : (combBody s).sigma = s.sigma := rfl
@[simp] theorem combBody_resultCount (s : State) : (combBody s).resultCount = s.resultCount := rfl
@[simp] theorem combBody_bits (s : State) : (combBody s).bits = s.bits := rfl
@[simp] theorem combBody_bhat (s : State) : (combBody s).bhat = s.bhat := rfl
@[simp] theorem combBody_s1 (s : State) : (combBody s).s1 = s.s1 := rfl
@[simp] theorem combBody_s2 (s : State) : (combBody s).s2 = s.s2 := rfl
@[simp] theorem combBody_x00 (s : State) : (combBody s).x00 = s.x00 := rfl
@[simp] theorem combBody_x01 (s : State) : (combBody s).x01 = s.x01 := rfl
@[simp] theorem combBody_x10 (s : State) : (combBody s).x10 = s.x10 := rfl
@[simp] theorem combBody_x11 (s : State) : (combBody s).x11 = s.x11 := rfl
@[simp] theorem combBody_den (s : State) : (combBody s).den = (combSum s s.draws (antennas s - 1)).2.2 := rfl
@[simp] theorem combBody_h (s : State) : (combBody s).h = s.h := rfl
@[simp] theorem combBody_nz (s : State) : (combBody s).nz = s.nz := rfl
@[simp] theorem combBody_y (s : State) : (combBody s).y = s.y := rfl
@[simp] theorem combBody_result (s : State) : (combBody s).result = s.result := rfl
@[simp] theorem combBody_abortReq (s : State) : (combBody s).abortReq = s.abortReq := rfl
@[simp] theorem combBody_phase (s : State) : (combBody s).phase = s.phase := rfl
@[simp] theorem combBody_k (s : State) : (combBody s).k = s.k := rfl
@[simp] theorem combBody_p (s : State) : (combBody s).p = s.p := rfl
@[simp] theorem combBody_cwdone (s : State) : (combBody s).cwdone = s.cwdone := rfl
@[simp] theorem combBody_draws (s : State) : (combBody s).draws = s.draws + 40 * antennas s + 4 := rfl
@[simp] theorem combBody_resp (s : State) : (combBody s).resp = s.resp := rfl
@[simp] theorem combBody_events (s : State) : (combBody s).events = s.events := rfl

/-! DET (R221) -/

@[simp] theorem detBody_cmd (s : State) : (detBody s).cmd = s.cmd := rfl
@[simp] theorem detBody_state (s : State) : (detBody s).state = s.state := rfl
@[simp] theorem detBody_drop (s : State) : (detBody s).drop = s.drop := rfl
@[simp] theorem detBody_degen (s : State) : (detBody s).degen = s.degen := rfl
@[simp] theorem detBody_errCode (s : State) : (detBody s).errCode = s.errCode := rfl
@[simp] theorem detBody_errCause (s : State) : (detBody s).errCause = s.errCause := rfl
@[simp] theorem detBody_errInfo (s : State) : (detBody s).errInfo = s.errInfo := rfl
@[simp] theorem detBody_intStatus (s : State) : (detBody s).intStatus = s.intStatus := rfl
@[simp] theorem detBody_intEnable (s : State) : (detBody s).intEnable = s.intEnable := rfl
@[simp] theorem detBody_nbits (s : State) : (detBody s).nbits = s.nbits := rfl
@[simp] theorem detBody_nrx (s : State) : (detBody s).nrx = s.nrx := rfl
@[simp] theorem detBody_snrStart (s : State) : (detBody s).snrStart = s.snrStart := rfl
@[simp] theorem detBody_snrEnd (s : State) : (detBody s).snrEnd = s.snrEnd := rfl
@[simp] theorem detBody_snrStep (s : State) : (detBody s).snrStep = s.snrStep := rfl
@[simp] theorem detBody_snrCur (s : State) : (detBody s).snrCur = s.snrCur := rfl
@[simp] theorem detBody_seed (s : State) : (detBody s).seed = s.seed := rfl
@[simp] theorem detBody_stream (s : State) : (detBody s).stream = s.stream := rfl
@[simp] theorem detBody_bitIdx (s : State) : (detBody s).bitIdx = s.bitIdx := rfl
@[simp] theorem detBody_gaussIdx (s : State) : (detBody s).gaussIdx = s.gaussIdx := rfl
@[simp] theorem detBody_errcnt (s : State) : (detBody s).errcnt = s.errcnt + BitVec.ofNat 64 (mismatches (dec s.z1) (dec s.z2) s.bits) := rfl
@[simp] theorem detBody_bitcnt (s : State) : (detBody s).bitcnt = s.bitcnt + 2#64 := rfl
@[simp] theorem detBody_degenCnt (s : State) : (detBody s).degenCnt = s.degenCnt := rfl
@[simp] theorem detBody_ber (s : State) : (detBody s).ber = s.ber := rfl
@[simp] theorem detBody_sigma (s : State) : (detBody s).sigma = s.sigma := rfl
@[simp] theorem detBody_resultCount (s : State) : (detBody s).resultCount = s.resultCount := rfl
@[simp] theorem detBody_bits (s : State) : (detBody s).bits = s.bits := rfl
@[simp] theorem detBody_bhat (s : State) : (detBody s).bhat = pairBits (dec s.z1) (dec s.z2) := rfl
@[simp] theorem detBody_s1 (s : State) : (detBody s).s1 = s.s1 := rfl
@[simp] theorem detBody_s2 (s : State) : (detBody s).s2 = s.s2 := rfl
@[simp] theorem detBody_x00 (s : State) : (detBody s).x00 = s.x00 := rfl
@[simp] theorem detBody_x01 (s : State) : (detBody s).x01 = s.x01 := rfl
@[simp] theorem detBody_x10 (s : State) : (detBody s).x10 = s.x10 := rfl
@[simp] theorem detBody_x11 (s : State) : (detBody s).x11 = s.x11 := rfl
@[simp] theorem detBody_z1 (s : State) : (detBody s).z1 = s.z1 := rfl
@[simp] theorem detBody_z2 (s : State) : (detBody s).z2 = s.z2 := rfl
@[simp] theorem detBody_den (s : State) : (detBody s).den = s.den := rfl
@[simp] theorem detBody_h (s : State) : (detBody s).h = s.h := rfl
@[simp] theorem detBody_nz (s : State) : (detBody s).nz = s.nz := rfl
@[simp] theorem detBody_y (s : State) : (detBody s).y = s.y := rfl
@[simp] theorem detBody_result (s : State) : (detBody s).result = s.result := rfl
@[simp] theorem detBody_abortReq (s : State) : (detBody s).abortReq = s.abortReq := rfl
@[simp] theorem detBody_phase (s : State) : (detBody s).phase = s.phase := rfl
@[simp] theorem detBody_k (s : State) : (detBody s).k = s.k := rfl
@[simp] theorem detBody_p (s : State) : (detBody s).p = s.p := rfl
@[simp] theorem detBody_cwdone (s : State) : (detBody s).cwdone = s.cwdone := rfl
@[simp] theorem detBody_draws (s : State) : (detBody s).draws = s.draws := rfl
@[simp] theorem detBody_resp (s : State) : (detBody s).resp = s.resp := rfl
@[simp] theorem detBody_events (s : State) : (detBody s).events = s.events := rfl

/-! CLRACC (R222) -/

@[simp] theorem clraccBody_cmd (s : State) : (clraccBody s).cmd = s.cmd := rfl
@[simp] theorem clraccBody_state (s : State) : (clraccBody s).state = s.state := rfl
@[simp] theorem clraccBody_drop (s : State) : (clraccBody s).drop = s.drop := rfl
@[simp] theorem clraccBody_degen (s : State) : (clraccBody s).degen = s.degen := rfl
@[simp] theorem clraccBody_errCode (s : State) : (clraccBody s).errCode = s.errCode := rfl
@[simp] theorem clraccBody_errCause (s : State) : (clraccBody s).errCause = s.errCause := rfl
@[simp] theorem clraccBody_errInfo (s : State) : (clraccBody s).errInfo = s.errInfo := rfl
@[simp] theorem clraccBody_intStatus (s : State) : (clraccBody s).intStatus = s.intStatus := rfl
@[simp] theorem clraccBody_intEnable (s : State) : (clraccBody s).intEnable = s.intEnable := rfl
@[simp] theorem clraccBody_nbits (s : State) : (clraccBody s).nbits = s.nbits := rfl
@[simp] theorem clraccBody_nrx (s : State) : (clraccBody s).nrx = s.nrx := rfl
@[simp] theorem clraccBody_snrStart (s : State) : (clraccBody s).snrStart = s.snrStart := rfl
@[simp] theorem clraccBody_snrEnd (s : State) : (clraccBody s).snrEnd = s.snrEnd := rfl
@[simp] theorem clraccBody_snrStep (s : State) : (clraccBody s).snrStep = s.snrStep := rfl
@[simp] theorem clraccBody_snrCur (s : State) : (clraccBody s).snrCur = s.snrCur := rfl
@[simp] theorem clraccBody_seed (s : State) : (clraccBody s).seed = s.seed := rfl
@[simp] theorem clraccBody_stream (s : State) : (clraccBody s).stream = s.stream := rfl
@[simp] theorem clraccBody_bitIdx (s : State) : (clraccBody s).bitIdx = s.bitIdx := rfl
@[simp] theorem clraccBody_gaussIdx (s : State) : (clraccBody s).gaussIdx = s.gaussIdx := rfl
@[simp] theorem clraccBody_errcnt (s : State) : (clraccBody s).errcnt = 0#64 := rfl
@[simp] theorem clraccBody_bitcnt (s : State) : (clraccBody s).bitcnt = 0#64 := rfl
@[simp] theorem clraccBody_degenCnt (s : State) : (clraccBody s).degenCnt = 0#64 := rfl
@[simp] theorem clraccBody_ber (s : State) : (clraccBody s).ber = s.ber := rfl
@[simp] theorem clraccBody_sigma (s : State) : (clraccBody s).sigma = s.sigma := rfl
@[simp] theorem clraccBody_resultCount (s : State) : (clraccBody s).resultCount = s.resultCount := rfl
@[simp] theorem clraccBody_bits (s : State) : (clraccBody s).bits = s.bits := rfl
@[simp] theorem clraccBody_bhat (s : State) : (clraccBody s).bhat = s.bhat := rfl
@[simp] theorem clraccBody_s1 (s : State) : (clraccBody s).s1 = s.s1 := rfl
@[simp] theorem clraccBody_s2 (s : State) : (clraccBody s).s2 = s.s2 := rfl
@[simp] theorem clraccBody_x00 (s : State) : (clraccBody s).x00 = s.x00 := rfl
@[simp] theorem clraccBody_x01 (s : State) : (clraccBody s).x01 = s.x01 := rfl
@[simp] theorem clraccBody_x10 (s : State) : (clraccBody s).x10 = s.x10 := rfl
@[simp] theorem clraccBody_x11 (s : State) : (clraccBody s).x11 = s.x11 := rfl
@[simp] theorem clraccBody_z1 (s : State) : (clraccBody s).z1 = s.z1 := rfl
@[simp] theorem clraccBody_z2 (s : State) : (clraccBody s).z2 = s.z2 := rfl
@[simp] theorem clraccBody_den (s : State) : (clraccBody s).den = s.den := rfl
@[simp] theorem clraccBody_h (s : State) : (clraccBody s).h = s.h := rfl
@[simp] theorem clraccBody_nz (s : State) : (clraccBody s).nz = s.nz := rfl
@[simp] theorem clraccBody_y (s : State) : (clraccBody s).y = s.y := rfl
@[simp] theorem clraccBody_result (s : State) : (clraccBody s).result = s.result := rfl
@[simp] theorem clraccBody_abortReq (s : State) : (clraccBody s).abortReq = s.abortReq := rfl
@[simp] theorem clraccBody_phase (s : State) : (clraccBody s).phase = s.phase := rfl
@[simp] theorem clraccBody_k (s : State) : (clraccBody s).k = s.k := rfl
@[simp] theorem clraccBody_p (s : State) : (clraccBody s).p = s.p := rfl
@[simp] theorem clraccBody_cwdone (s : State) : (clraccBody s).cwdone = s.cwdone := rfl
@[simp] theorem clraccBody_draws (s : State) : (clraccBody s).draws = s.draws := rfl
@[simp] theorem clraccBody_resp (s : State) : (clraccBody s).resp = s.resp := rfl
@[simp] theorem clraccBody_events (s : State) : (clraccBody s).events = s.events := rfl

/-! CWORD (R240): the registers it leaves alone; what it writes is its parts' business -/

@[simp] theorem cwordBody_cmd (g : Gen) (s : State) : (cwordBody g s).cmd = s.cmd := by simp [cwordBody]
@[simp] theorem cwordBody_state (g : Gen) (s : State) : (cwordBody g s).state = s.state := by simp [cwordBody]
@[simp] theorem cwordBody_drop (g : Gen) (s : State) : (cwordBody g s).drop = s.drop := by simp [cwordBody]
@[simp] theorem cwordBody_errCode (g : Gen) (s : State) : (cwordBody g s).errCode = s.errCode := by simp [cwordBody]
@[simp] theorem cwordBody_errCause (g : Gen) (s : State) : (cwordBody g s).errCause = s.errCause := by simp [cwordBody]
@[simp] theorem cwordBody_errInfo (g : Gen) (s : State) : (cwordBody g s).errInfo = s.errInfo := by simp [cwordBody]
@[simp] theorem cwordBody_intEnable (g : Gen) (s : State) : (cwordBody g s).intEnable = s.intEnable := by simp [cwordBody]
@[simp] theorem cwordBody_nbits (g : Gen) (s : State) : (cwordBody g s).nbits = s.nbits := by simp [cwordBody]
@[simp] theorem cwordBody_nrx (g : Gen) (s : State) : (cwordBody g s).nrx = s.nrx := by simp [cwordBody]
@[simp] theorem cwordBody_snrStart (g : Gen) (s : State) : (cwordBody g s).snrStart = s.snrStart := by simp [cwordBody]
@[simp] theorem cwordBody_snrEnd (g : Gen) (s : State) : (cwordBody g s).snrEnd = s.snrEnd := by simp [cwordBody]
@[simp] theorem cwordBody_snrStep (g : Gen) (s : State) : (cwordBody g s).snrStep = s.snrStep := by simp [cwordBody]
@[simp] theorem cwordBody_snrCur (g : Gen) (s : State) : (cwordBody g s).snrCur = s.snrCur := by simp [cwordBody]
@[simp] theorem cwordBody_seed (g : Gen) (s : State) : (cwordBody g s).seed = s.seed := by simp [cwordBody]
@[simp] theorem cwordBody_stream (g : Gen) (s : State) : (cwordBody g s).stream = s.stream := by simp [cwordBody]
@[simp] theorem cwordBody_ber (g : Gen) (s : State) : (cwordBody g s).ber = s.ber := by simp [cwordBody]
@[simp] theorem cwordBody_resultCount (g : Gen) (s : State) : (cwordBody g s).resultCount = s.resultCount := by simp [cwordBody]
@[simp] theorem cwordBody_result (g : Gen) (s : State) : (cwordBody g s).result = s.result := by simp [cwordBody]
@[simp] theorem cwordBody_abortReq (g : Gen) (s : State) : (cwordBody g s).abortReq = s.abortReq := by simp [cwordBody]
@[simp] theorem cwordBody_phase (g : Gen) (s : State) : (cwordBody g s).phase = s.phase := by simp [cwordBody]
@[simp] theorem cwordBody_k (g : Gen) (s : State) : (cwordBody g s).k = s.k := by simp [cwordBody]
@[simp] theorem cwordBody_p (g : Gen) (s : State) : (cwordBody g s).p = s.p := by simp [cwordBody]
@[simp] theorem cwordBody_cwdone (g : Gen) (s : State) : (cwordBody g s).cwdone = s.cwdone := by simp [cwordBody]
@[simp] theorem cwordBody_resp (g : Gen) (s : State) : (cwordBody g s).resp = s.resp := by simp [cwordBody]
@[simp] theorem cwordBody_events (g : Gen) (s : State) : (cwordBody g s).events = s.events := by simp [cwordBody]

/-! a codeword of a point (R261): what CWORD does, CWDONE, and the next phase -/

@[simp] theorem pointCodeword_cmd (g : Gen) (s : State) : (pointCodeword g s).cmd = s.cmd := by simp [pointCodeword]
@[simp] theorem pointCodeword_state (g : Gen) (s : State) : (pointCodeword g s).state = s.state := by simp [pointCodeword]
@[simp] theorem pointCodeword_drop (g : Gen) (s : State) : (pointCodeword g s).drop = s.drop := by simp [pointCodeword]
@[simp] theorem pointCodeword_degen (g : Gen) (s : State) : (pointCodeword g s).degen = (cwordBody g s).degen := by simp only [pointCodeword]
@[simp] theorem pointCodeword_errCode (g : Gen) (s : State) : (pointCodeword g s).errCode = s.errCode := by simp [pointCodeword]
@[simp] theorem pointCodeword_errCause (g : Gen) (s : State) : (pointCodeword g s).errCause = s.errCause := by simp [pointCodeword]
@[simp] theorem pointCodeword_errInfo (g : Gen) (s : State) : (pointCodeword g s).errInfo = s.errInfo := by simp [pointCodeword]
@[simp] theorem pointCodeword_intStatus (g : Gen) (s : State) : (pointCodeword g s).intStatus = (cwordBody g s).intStatus := by simp only [pointCodeword]
@[simp] theorem pointCodeword_intEnable (g : Gen) (s : State) : (pointCodeword g s).intEnable = s.intEnable := by simp [pointCodeword]
@[simp] theorem pointCodeword_nbits (g : Gen) (s : State) : (pointCodeword g s).nbits = s.nbits := by simp [pointCodeword]
@[simp] theorem pointCodeword_nrx (g : Gen) (s : State) : (pointCodeword g s).nrx = s.nrx := by simp [pointCodeword]
@[simp] theorem pointCodeword_snrStart (g : Gen) (s : State) : (pointCodeword g s).snrStart = s.snrStart := by simp [pointCodeword]
@[simp] theorem pointCodeword_snrEnd (g : Gen) (s : State) : (pointCodeword g s).snrEnd = s.snrEnd := by simp [pointCodeword]
@[simp] theorem pointCodeword_snrStep (g : Gen) (s : State) : (pointCodeword g s).snrStep = s.snrStep := by simp [pointCodeword]
@[simp] theorem pointCodeword_snrCur (g : Gen) (s : State) : (pointCodeword g s).snrCur = s.snrCur := by simp [pointCodeword]
@[simp] theorem pointCodeword_seed (g : Gen) (s : State) : (pointCodeword g s).seed = s.seed := by simp [pointCodeword]
@[simp] theorem pointCodeword_stream (g : Gen) (s : State) : (pointCodeword g s).stream = s.stream := by simp [pointCodeword]
@[simp] theorem pointCodeword_bitIdx (g : Gen) (s : State) : (pointCodeword g s).bitIdx = (cwordBody g s).bitIdx := by simp only [pointCodeword]
@[simp] theorem pointCodeword_gaussIdx (g : Gen) (s : State) : (pointCodeword g s).gaussIdx = (cwordBody g s).gaussIdx := by simp only [pointCodeword]
@[simp] theorem pointCodeword_errcnt (g : Gen) (s : State) : (pointCodeword g s).errcnt = (cwordBody g s).errcnt := by simp only [pointCodeword]
@[simp] theorem pointCodeword_bitcnt (g : Gen) (s : State) : (pointCodeword g s).bitcnt = (cwordBody g s).bitcnt := by simp only [pointCodeword]
@[simp] theorem pointCodeword_degenCnt (g : Gen) (s : State) : (pointCodeword g s).degenCnt = (cwordBody g s).degenCnt := by simp only [pointCodeword]
@[simp] theorem pointCodeword_ber (g : Gen) (s : State) : (pointCodeword g s).ber = s.ber := by simp [pointCodeword]
@[simp] theorem pointCodeword_sigma (g : Gen) (s : State) : (pointCodeword g s).sigma = (cwordBody g s).sigma := by simp only [pointCodeword]
@[simp] theorem pointCodeword_resultCount (g : Gen) (s : State) : (pointCodeword g s).resultCount = s.resultCount := by simp [pointCodeword]
@[simp] theorem pointCodeword_bits (g : Gen) (s : State) : (pointCodeword g s).bits = (cwordBody g s).bits := by simp only [pointCodeword]
@[simp] theorem pointCodeword_bhat (g : Gen) (s : State) : (pointCodeword g s).bhat = (cwordBody g s).bhat := by simp only [pointCodeword]
@[simp] theorem pointCodeword_s1 (g : Gen) (s : State) : (pointCodeword g s).s1 = (cwordBody g s).s1 := by simp only [pointCodeword]
@[simp] theorem pointCodeword_s2 (g : Gen) (s : State) : (pointCodeword g s).s2 = (cwordBody g s).s2 := by simp only [pointCodeword]
@[simp] theorem pointCodeword_x00 (g : Gen) (s : State) : (pointCodeword g s).x00 = (cwordBody g s).x00 := by simp only [pointCodeword]
@[simp] theorem pointCodeword_x01 (g : Gen) (s : State) : (pointCodeword g s).x01 = (cwordBody g s).x01 := by simp only [pointCodeword]
@[simp] theorem pointCodeword_x10 (g : Gen) (s : State) : (pointCodeword g s).x10 = (cwordBody g s).x10 := by simp only [pointCodeword]
@[simp] theorem pointCodeword_x11 (g : Gen) (s : State) : (pointCodeword g s).x11 = (cwordBody g s).x11 := by simp only [pointCodeword]
@[simp] theorem pointCodeword_z1 (g : Gen) (s : State) : (pointCodeword g s).z1 = (cwordBody g s).z1 := by simp only [pointCodeword]
@[simp] theorem pointCodeword_z2 (g : Gen) (s : State) : (pointCodeword g s).z2 = (cwordBody g s).z2 := by simp only [pointCodeword]
@[simp] theorem pointCodeword_den (g : Gen) (s : State) : (pointCodeword g s).den = (cwordBody g s).den := by simp only [pointCodeword]
@[simp] theorem pointCodeword_h (g : Gen) (s : State) : (pointCodeword g s).h = (cwordBody g s).h := by simp only [pointCodeword]
@[simp] theorem pointCodeword_nz (g : Gen) (s : State) : (pointCodeword g s).nz = (cwordBody g s).nz := by simp only [pointCodeword]
@[simp] theorem pointCodeword_y (g : Gen) (s : State) : (pointCodeword g s).y = (cwordBody g s).y := by simp only [pointCodeword]
@[simp] theorem pointCodeword_result (g : Gen) (s : State) : (pointCodeword g s).result = s.result := by simp [pointCodeword]
@[simp] theorem pointCodeword_abortReq (g : Gen) (s : State) : (pointCodeword g s).abortReq = s.abortReq := by simp [pointCodeword]
@[simp] theorem pointCodeword_phase (g : Gen) (s : State) :
    (pointCodeword g s).phase = if s.cwdone + 1#64 = s.nbits / 2#64 then .ptFinal else s.phase := by simp [pointCodeword]
@[simp] theorem pointCodeword_k (g : Gen) (s : State) : (pointCodeword g s).k = s.k := by simp [pointCodeword]
@[simp] theorem pointCodeword_p (g : Gen) (s : State) : (pointCodeword g s).p = s.p := by simp [pointCodeword]
@[simp] theorem pointCodeword_cwdone (g : Gen) (s : State) : (pointCodeword g s).cwdone = s.cwdone + 1#64 := by simp [pointCodeword]
@[simp] theorem pointCodeword_draws (g : Gen) (s : State) : (pointCodeword g s).draws = (cwordBody g s).draws := by simp only [pointCodeword]
@[simp] theorem pointCodeword_resp (g : Gen) (s : State) : (pointCodeword g s).resp = s.resp := by simp [pointCodeword]
@[simp] theorem pointCodeword_events (g : Gen) (s : State) : (pointCodeword g s).events = s.events := by simp [pointCodeword]

/-! point_init (R251) -/

@[simp] theorem pointInit_cmd (sweep : Bool) (s : State) : (pointInit sweep s).cmd = s.cmd := rfl
@[simp] theorem pointInit_state (sweep : Bool) (s : State) : (pointInit sweep s).state = s.state := rfl
@[simp] theorem pointInit_drop (sweep : Bool) (s : State) : (pointInit sweep s).drop = s.drop := rfl
@[simp] theorem pointInit_degen (sweep : Bool) (s : State) : (pointInit sweep s).degen = s.degen := rfl
@[simp] theorem pointInit_errCode (sweep : Bool) (s : State) : (pointInit sweep s).errCode = s.errCode := rfl
@[simp] theorem pointInit_errCause (sweep : Bool) (s : State) : (pointInit sweep s).errCause = s.errCause := rfl
@[simp] theorem pointInit_errInfo (sweep : Bool) (s : State) : (pointInit sweep s).errInfo = s.errInfo := rfl
@[simp] theorem pointInit_intStatus (sweep : Bool) (s : State) : (pointInit sweep s).intStatus = s.intStatus := rfl
@[simp] theorem pointInit_intEnable (sweep : Bool) (s : State) : (pointInit sweep s).intEnable = s.intEnable := rfl
@[simp] theorem pointInit_nbits (sweep : Bool) (s : State) : (pointInit sweep s).nbits = s.nbits := rfl
@[simp] theorem pointInit_nrx (sweep : Bool) (s : State) : (pointInit sweep s).nrx = s.nrx := rfl
@[simp] theorem pointInit_snrStart (sweep : Bool) (s : State) : (pointInit sweep s).snrStart = s.snrStart := rfl
@[simp] theorem pointInit_snrEnd (sweep : Bool) (s : State) : (pointInit sweep s).snrEnd = s.snrEnd := rfl
@[simp] theorem pointInit_snrStep (sweep : Bool) (s : State) : (pointInit sweep s).snrStep = s.snrStep := rfl
@[simp] theorem pointInit_snrCur (sweep : Bool) (s : State) : (pointInit sweep s).snrCur = s.snrCur := rfl
@[simp] theorem pointInit_seed (sweep : Bool) (s : State) : (pointInit sweep s).seed = s.seed := rfl
@[simp] theorem pointInit_stream (sweep : Bool) (s : State) : (pointInit sweep s).stream = s.stream := rfl
@[simp] theorem pointInit_bitIdx (sweep : Bool) (s : State) : (pointInit sweep s).bitIdx = 0#64 := rfl
@[simp] theorem pointInit_gaussIdx (sweep : Bool) (s : State) : (pointInit sweep s).gaussIdx = 0#64 := rfl
@[simp] theorem pointInit_errcnt (sweep : Bool) (s : State) : (pointInit sweep s).errcnt = 0#64 := rfl
@[simp] theorem pointInit_bitcnt (sweep : Bool) (s : State) : (pointInit sweep s).bitcnt = 0#64 := rfl
@[simp] theorem pointInit_degenCnt (sweep : Bool) (s : State) : (pointInit sweep s).degenCnt = if sweep then s.degenCnt else 0#64 := rfl
@[simp] theorem pointInit_ber (sweep : Bool) (s : State) : (pointInit sweep s).ber = s.ber := rfl
@[simp] theorem pointInit_sigma (sweep : Bool) (s : State) : (pointInit sweep s).sigma = Sys2Proof.Machine.sigma s.snrCur := rfl
@[simp] theorem pointInit_resultCount (sweep : Bool) (s : State) : (pointInit sweep s).resultCount = s.resultCount := rfl
@[simp] theorem pointInit_bits (sweep : Bool) (s : State) : (pointInit sweep s).bits = s.bits := rfl
@[simp] theorem pointInit_bhat (sweep : Bool) (s : State) : (pointInit sweep s).bhat = s.bhat := rfl
@[simp] theorem pointInit_s1 (sweep : Bool) (s : State) : (pointInit sweep s).s1 = s.s1 := rfl
@[simp] theorem pointInit_s2 (sweep : Bool) (s : State) : (pointInit sweep s).s2 = s.s2 := rfl
@[simp] theorem pointInit_x00 (sweep : Bool) (s : State) : (pointInit sweep s).x00 = s.x00 := rfl
@[simp] theorem pointInit_x01 (sweep : Bool) (s : State) : (pointInit sweep s).x01 = s.x01 := rfl
@[simp] theorem pointInit_x10 (sweep : Bool) (s : State) : (pointInit sweep s).x10 = s.x10 := rfl
@[simp] theorem pointInit_x11 (sweep : Bool) (s : State) : (pointInit sweep s).x11 = s.x11 := rfl
@[simp] theorem pointInit_z1 (sweep : Bool) (s : State) : (pointInit sweep s).z1 = s.z1 := rfl
@[simp] theorem pointInit_z2 (sweep : Bool) (s : State) : (pointInit sweep s).z2 = s.z2 := rfl
@[simp] theorem pointInit_den (sweep : Bool) (s : State) : (pointInit sweep s).den = s.den := rfl
@[simp] theorem pointInit_h (sweep : Bool) (s : State) : (pointInit sweep s).h = s.h := rfl
@[simp] theorem pointInit_nz (sweep : Bool) (s : State) : (pointInit sweep s).nz = s.nz := rfl
@[simp] theorem pointInit_y (sweep : Bool) (s : State) : (pointInit sweep s).y = s.y := rfl
@[simp] theorem pointInit_result (sweep : Bool) (s : State) : (pointInit sweep s).result = s.result := rfl
@[simp] theorem pointInit_abortReq (sweep : Bool) (s : State) : (pointInit sweep s).abortReq = s.abortReq := rfl
@[simp] theorem pointInit_phase (sweep : Bool) (s : State) : (pointInit sweep s).phase = s.phase := rfl
@[simp] theorem pointInit_k (sweep : Bool) (s : State) : (pointInit sweep s).k = s.k := rfl
@[simp] theorem pointInit_p (sweep : Bool) (s : State) : (pointInit sweep s).p = s.p := rfl
@[simp] theorem pointInit_cwdone (sweep : Bool) (s : State) : (pointInit sweep s).cwdone = 0#64 := rfl
@[simp] theorem pointInit_draws (sweep : Bool) (s : State) : (pointInit sweep s).draws = s.draws := rfl
@[simp] theorem pointInit_resp (sweep : Bool) (s : State) : (pointInit sweep s).resp = s.resp := rfl
@[simp] theorem pointInit_events (sweep : Bool) (s : State) : (pointInit sweep s).events = s.events := rfl

/-! PT_INIT (R261) -/

@[simp] theorem pointStart_cmd (sweep : Bool) (s : State) : (pointStart sweep s).cmd = s.cmd := rfl
@[simp] theorem pointStart_state (sweep : Bool) (s : State) : (pointStart sweep s).state = s.state := rfl
@[simp] theorem pointStart_drop (sweep : Bool) (s : State) : (pointStart sweep s).drop = s.drop := rfl
@[simp] theorem pointStart_degen (sweep : Bool) (s : State) : (pointStart sweep s).degen = s.degen := rfl
@[simp] theorem pointStart_errCode (sweep : Bool) (s : State) : (pointStart sweep s).errCode = s.errCode := rfl
@[simp] theorem pointStart_errCause (sweep : Bool) (s : State) : (pointStart sweep s).errCause = s.errCause := rfl
@[simp] theorem pointStart_errInfo (sweep : Bool) (s : State) : (pointStart sweep s).errInfo = s.errInfo := rfl
@[simp] theorem pointStart_intStatus (sweep : Bool) (s : State) : (pointStart sweep s).intStatus = s.intStatus := rfl
@[simp] theorem pointStart_intEnable (sweep : Bool) (s : State) : (pointStart sweep s).intEnable = s.intEnable := rfl
@[simp] theorem pointStart_nbits (sweep : Bool) (s : State) : (pointStart sweep s).nbits = s.nbits := rfl
@[simp] theorem pointStart_nrx (sweep : Bool) (s : State) : (pointStart sweep s).nrx = s.nrx := rfl
@[simp] theorem pointStart_snrStart (sweep : Bool) (s : State) : (pointStart sweep s).snrStart = s.snrStart := rfl
@[simp] theorem pointStart_snrEnd (sweep : Bool) (s : State) : (pointStart sweep s).snrEnd = s.snrEnd := rfl
@[simp] theorem pointStart_snrStep (sweep : Bool) (s : State) : (pointStart sweep s).snrStep = s.snrStep := rfl
@[simp] theorem pointStart_snrCur (sweep : Bool) (s : State) : (pointStart sweep s).snrCur = s.snrCur := rfl
@[simp] theorem pointStart_seed (sweep : Bool) (s : State) : (pointStart sweep s).seed = s.seed := rfl
@[simp] theorem pointStart_stream (sweep : Bool) (s : State) : (pointStart sweep s).stream = s.stream := rfl
@[simp] theorem pointStart_bitIdx (sweep : Bool) (s : State) : (pointStart sweep s).bitIdx = 0#64 := rfl
@[simp] theorem pointStart_gaussIdx (sweep : Bool) (s : State) : (pointStart sweep s).gaussIdx = 0#64 := rfl
@[simp] theorem pointStart_errcnt (sweep : Bool) (s : State) : (pointStart sweep s).errcnt = 0#64 := rfl
@[simp] theorem pointStart_bitcnt (sweep : Bool) (s : State) : (pointStart sweep s).bitcnt = 0#64 := rfl
@[simp] theorem pointStart_degenCnt (sweep : Bool) (s : State) : (pointStart sweep s).degenCnt = if sweep then s.degenCnt else 0#64 := rfl
@[simp] theorem pointStart_ber (sweep : Bool) (s : State) : (pointStart sweep s).ber = s.ber := rfl
@[simp] theorem pointStart_sigma (sweep : Bool) (s : State) : (pointStart sweep s).sigma = Sys2Proof.Machine.sigma s.snrCur := rfl
@[simp] theorem pointStart_resultCount (sweep : Bool) (s : State) : (pointStart sweep s).resultCount = s.resultCount := rfl
@[simp] theorem pointStart_bits (sweep : Bool) (s : State) : (pointStart sweep s).bits = s.bits := rfl
@[simp] theorem pointStart_bhat (sweep : Bool) (s : State) : (pointStart sweep s).bhat = s.bhat := rfl
@[simp] theorem pointStart_s1 (sweep : Bool) (s : State) : (pointStart sweep s).s1 = s.s1 := rfl
@[simp] theorem pointStart_s2 (sweep : Bool) (s : State) : (pointStart sweep s).s2 = s.s2 := rfl
@[simp] theorem pointStart_x00 (sweep : Bool) (s : State) : (pointStart sweep s).x00 = s.x00 := rfl
@[simp] theorem pointStart_x01 (sweep : Bool) (s : State) : (pointStart sweep s).x01 = s.x01 := rfl
@[simp] theorem pointStart_x10 (sweep : Bool) (s : State) : (pointStart sweep s).x10 = s.x10 := rfl
@[simp] theorem pointStart_x11 (sweep : Bool) (s : State) : (pointStart sweep s).x11 = s.x11 := rfl
@[simp] theorem pointStart_z1 (sweep : Bool) (s : State) : (pointStart sweep s).z1 = s.z1 := rfl
@[simp] theorem pointStart_z2 (sweep : Bool) (s : State) : (pointStart sweep s).z2 = s.z2 := rfl
@[simp] theorem pointStart_den (sweep : Bool) (s : State) : (pointStart sweep s).den = s.den := rfl
@[simp] theorem pointStart_h (sweep : Bool) (s : State) : (pointStart sweep s).h = s.h := rfl
@[simp] theorem pointStart_nz (sweep : Bool) (s : State) : (pointStart sweep s).nz = s.nz := rfl
@[simp] theorem pointStart_y (sweep : Bool) (s : State) : (pointStart sweep s).y = s.y := rfl
@[simp] theorem pointStart_result (sweep : Bool) (s : State) : (pointStart sweep s).result = s.result := rfl
@[simp] theorem pointStart_abortReq (sweep : Bool) (s : State) : (pointStart sweep s).abortReq = s.abortReq := rfl
@[simp] theorem pointStart_phase (sweep : Bool) (s : State) : (pointStart sweep s).phase = .ptCw := rfl
@[simp] theorem pointStart_k (sweep : Bool) (s : State) : (pointStart sweep s).k = s.k := rfl
@[simp] theorem pointStart_p (sweep : Bool) (s : State) : (pointStart sweep s).p = s.p := rfl
@[simp] theorem pointStart_cwdone (sweep : Bool) (s : State) : (pointStart sweep s).cwdone = 0#64 := rfl
@[simp] theorem pointStart_draws (sweep : Bool) (s : State) : (pointStart sweep s).draws = s.draws := rfl
@[simp] theorem pointStart_resp (sweep : Bool) (s : State) : (pointStart sweep s).resp = s.resp := rfl
@[simp] theorem pointStart_events (sweep : Bool) (s : State) : (pointStart sweep s).events = s.events := rfl

/-! point finalisation (R252) -/

@[simp] theorem finalisePoint_cmd (s : State) : (finalisePoint s).cmd = s.cmd := rfl
@[simp] theorem finalisePoint_state (s : State) : (finalisePoint s).state = s.state := rfl
@[simp] theorem finalisePoint_drop (s : State) : (finalisePoint s).drop = s.drop := rfl
@[simp] theorem finalisePoint_degen (s : State) : (finalisePoint s).degen = s.degen := rfl
@[simp] theorem finalisePoint_errCode (s : State) : (finalisePoint s).errCode = s.errCode := rfl
@[simp] theorem finalisePoint_errCause (s : State) : (finalisePoint s).errCause = s.errCause := rfl
@[simp] theorem finalisePoint_errInfo (s : State) : (finalisePoint s).errInfo = s.errInfo := rfl
@[simp] theorem finalisePoint_intStatus (s : State) : (finalisePoint s).intStatus = s.intStatus := rfl
@[simp] theorem finalisePoint_intEnable (s : State) : (finalisePoint s).intEnable = s.intEnable := rfl
@[simp] theorem finalisePoint_nbits (s : State) : (finalisePoint s).nbits = s.nbits := rfl
@[simp] theorem finalisePoint_nrx (s : State) : (finalisePoint s).nrx = s.nrx := rfl
@[simp] theorem finalisePoint_snrStart (s : State) : (finalisePoint s).snrStart = s.snrStart := rfl
@[simp] theorem finalisePoint_snrEnd (s : State) : (finalisePoint s).snrEnd = s.snrEnd := rfl
@[simp] theorem finalisePoint_snrStep (s : State) : (finalisePoint s).snrStep = s.snrStep := rfl
@[simp] theorem finalisePoint_snrCur (s : State) : (finalisePoint s).snrCur = s.snrCur := rfl
@[simp] theorem finalisePoint_seed (s : State) : (finalisePoint s).seed = s.seed := rfl
@[simp] theorem finalisePoint_stream (s : State) : (finalisePoint s).stream = s.stream := rfl
@[simp] theorem finalisePoint_bitIdx (s : State) : (finalisePoint s).bitIdx = s.bitIdx := rfl
@[simp] theorem finalisePoint_gaussIdx (s : State) : (finalisePoint s).gaussIdx = s.gaussIdx := rfl
@[simp] theorem finalisePoint_errcnt (s : State) : (finalisePoint s).errcnt = s.errcnt := rfl
@[simp] theorem finalisePoint_bitcnt (s : State) : (finalisePoint s).bitcnt = s.bitcnt := rfl
@[simp] theorem finalisePoint_degenCnt (s : State) : (finalisePoint s).degenCnt = s.degenCnt := rfl
@[simp] theorem finalisePoint_ber (s : State) : (finalisePoint s).ber = Sys2Proof.Machine.ber s.errcnt s.bitcnt := rfl
@[simp] theorem finalisePoint_sigma (s : State) : (finalisePoint s).sigma = s.sigma := rfl
@[simp] theorem finalisePoint_resultCount (s : State) : (finalisePoint s).resultCount = s.resultCount := rfl
@[simp] theorem finalisePoint_bits (s : State) : (finalisePoint s).bits = s.bits := rfl
@[simp] theorem finalisePoint_bhat (s : State) : (finalisePoint s).bhat = s.bhat := rfl
@[simp] theorem finalisePoint_s1 (s : State) : (finalisePoint s).s1 = s.s1 := rfl
@[simp] theorem finalisePoint_s2 (s : State) : (finalisePoint s).s2 = s.s2 := rfl
@[simp] theorem finalisePoint_x00 (s : State) : (finalisePoint s).x00 = s.x00 := rfl
@[simp] theorem finalisePoint_x01 (s : State) : (finalisePoint s).x01 = s.x01 := rfl
@[simp] theorem finalisePoint_x10 (s : State) : (finalisePoint s).x10 = s.x10 := rfl
@[simp] theorem finalisePoint_x11 (s : State) : (finalisePoint s).x11 = s.x11 := rfl
@[simp] theorem finalisePoint_z1 (s : State) : (finalisePoint s).z1 = s.z1 := rfl
@[simp] theorem finalisePoint_z2 (s : State) : (finalisePoint s).z2 = s.z2 := rfl
@[simp] theorem finalisePoint_den (s : State) : (finalisePoint s).den = s.den := rfl
@[simp] theorem finalisePoint_h (s : State) : (finalisePoint s).h = s.h := rfl
@[simp] theorem finalisePoint_nz (s : State) : (finalisePoint s).nz = s.nz := rfl
@[simp] theorem finalisePoint_y (s : State) : (finalisePoint s).y = s.y := rfl
@[simp] theorem finalisePoint_result (s : State) : (finalisePoint s).result = s.result := rfl
@[simp] theorem finalisePoint_abortReq (s : State) : (finalisePoint s).abortReq = s.abortReq := rfl
@[simp] theorem finalisePoint_phase (s : State) : (finalisePoint s).phase = s.phase := rfl
@[simp] theorem finalisePoint_k (s : State) : (finalisePoint s).k = s.k := rfl
@[simp] theorem finalisePoint_p (s : State) : (finalisePoint s).p = s.p := rfl
@[simp] theorem finalisePoint_cwdone (s : State) : (finalisePoint s).cwdone = s.cwdone := rfl
@[simp] theorem finalisePoint_draws (s : State) : (finalisePoint s).draws = s.draws := rfl
@[simp] theorem finalisePoint_resp (s : State) : (finalisePoint s).resp = s.resp := rfl
@[simp] theorem finalisePoint_events (s : State) : (finalisePoint s).events = s.events := rfl

/-! the record of a point (R253) -/

@[simp] theorem recordPoint_cmd (s : State) : (recordPoint s).cmd = s.cmd := rfl
@[simp] theorem recordPoint_state (s : State) : (recordPoint s).state = s.state := rfl
@[simp] theorem recordPoint_drop (s : State) : (recordPoint s).drop = s.drop := rfl
@[simp] theorem recordPoint_degen (s : State) : (recordPoint s).degen = s.degen := rfl
@[simp] theorem recordPoint_errCode (s : State) : (recordPoint s).errCode = s.errCode := rfl
@[simp] theorem recordPoint_errCause (s : State) : (recordPoint s).errCause = s.errCause := rfl
@[simp] theorem recordPoint_errInfo (s : State) : (recordPoint s).errInfo = s.errInfo := rfl
@[simp] theorem recordPoint_intStatus (s : State) : (recordPoint s).intStatus = s.intStatus := rfl
@[simp] theorem recordPoint_intEnable (s : State) : (recordPoint s).intEnable = s.intEnable := rfl
@[simp] theorem recordPoint_nbits (s : State) : (recordPoint s).nbits = s.nbits := rfl
@[simp] theorem recordPoint_nrx (s : State) : (recordPoint s).nrx = s.nrx := rfl
@[simp] theorem recordPoint_snrStart (s : State) : (recordPoint s).snrStart = s.snrStart := rfl
@[simp] theorem recordPoint_snrEnd (s : State) : (recordPoint s).snrEnd = s.snrEnd := rfl
@[simp] theorem recordPoint_snrStep (s : State) : (recordPoint s).snrStep = s.snrStep := rfl
@[simp] theorem recordPoint_snrCur (s : State) : (recordPoint s).snrCur = s.snrCur := rfl
@[simp] theorem recordPoint_seed (s : State) : (recordPoint s).seed = s.seed := rfl
@[simp] theorem recordPoint_stream (s : State) : (recordPoint s).stream = s.stream := rfl
@[simp] theorem recordPoint_bitIdx (s : State) : (recordPoint s).bitIdx = s.bitIdx := rfl
@[simp] theorem recordPoint_gaussIdx (s : State) : (recordPoint s).gaussIdx = s.gaussIdx := rfl
@[simp] theorem recordPoint_errcnt (s : State) : (recordPoint s).errcnt = s.errcnt := rfl
@[simp] theorem recordPoint_bitcnt (s : State) : (recordPoint s).bitcnt = s.bitcnt := rfl
@[simp] theorem recordPoint_degenCnt (s : State) : (recordPoint s).degenCnt = s.degenCnt := rfl
@[simp] theorem recordPoint_ber (s : State) : (recordPoint s).ber = s.ber := rfl
@[simp] theorem recordPoint_sigma (s : State) : (recordPoint s).sigma = s.sigma := rfl
@[simp] theorem recordPoint_resultCount (s : State) : (recordPoint s).resultCount = BitVec.ofNat 64 (s.k + 1) := rfl
@[simp] theorem recordPoint_bits (s : State) : (recordPoint s).bits = s.bits := rfl
@[simp] theorem recordPoint_bhat (s : State) : (recordPoint s).bhat = s.bhat := rfl
@[simp] theorem recordPoint_s1 (s : State) : (recordPoint s).s1 = s.s1 := rfl
@[simp] theorem recordPoint_s2 (s : State) : (recordPoint s).s2 = s.s2 := rfl
@[simp] theorem recordPoint_x00 (s : State) : (recordPoint s).x00 = s.x00 := rfl
@[simp] theorem recordPoint_x01 (s : State) : (recordPoint s).x01 = s.x01 := rfl
@[simp] theorem recordPoint_x10 (s : State) : (recordPoint s).x10 = s.x10 := rfl
@[simp] theorem recordPoint_x11 (s : State) : (recordPoint s).x11 = s.x11 := rfl
@[simp] theorem recordPoint_z1 (s : State) : (recordPoint s).z1 = s.z1 := rfl
@[simp] theorem recordPoint_z2 (s : State) : (recordPoint s).z2 = s.z2 := rfl
@[simp] theorem recordPoint_den (s : State) : (recordPoint s).den = s.den := rfl
@[simp] theorem recordPoint_h (s : State) : (recordPoint s).h = s.h := rfl
@[simp] theorem recordPoint_nz (s : State) : (recordPoint s).nz = s.nz := rfl
@[simp] theorem recordPoint_y (s : State) : (recordPoint s).y = s.y := rfl
@[simp] theorem recordPoint_abortReq (s : State) : (recordPoint s).abortReq = s.abortReq := rfl
@[simp] theorem recordPoint_phase (s : State) : (recordPoint s).phase = s.phase := rfl
@[simp] theorem recordPoint_k (s : State) : (recordPoint s).k = s.k := rfl
@[simp] theorem recordPoint_p (s : State) : (recordPoint s).p = s.p := rfl
@[simp] theorem recordPoint_cwdone (s : State) : (recordPoint s).cwdone = s.cwdone := rfl
@[simp] theorem recordPoint_draws (s : State) : (recordPoint s).draws = s.draws := rfl
@[simp] theorem recordPoint_resp (s : State) : (recordPoint s).resp = s.resp := rfl
@[simp] theorem recordPoint_events (s : State) : (recordPoint s).events = s.events := rfl

/-! SW_START (R261) -/

@[simp] theorem sweepStart_cmd (s : State) : (sweepStart s).cmd = s.cmd := rfl
@[simp] theorem sweepStart_state (s : State) : (sweepStart s).state = s.state := rfl
@[simp] theorem sweepStart_drop (s : State) : (sweepStart s).drop = s.drop := rfl
@[simp] theorem sweepStart_degen (s : State) : (sweepStart s).degen = s.degen := rfl
@[simp] theorem sweepStart_errCode (s : State) : (sweepStart s).errCode = s.errCode := rfl
@[simp] theorem sweepStart_errCause (s : State) : (sweepStart s).errCause = s.errCause := rfl
@[simp] theorem sweepStart_errInfo (s : State) : (sweepStart s).errInfo = s.errInfo := rfl
@[simp] theorem sweepStart_intStatus (s : State) : (sweepStart s).intStatus = s.intStatus := rfl
@[simp] theorem sweepStart_intEnable (s : State) : (sweepStart s).intEnable = s.intEnable := rfl
@[simp] theorem sweepStart_nbits (s : State) : (sweepStart s).nbits = s.nbits := rfl
@[simp] theorem sweepStart_nrx (s : State) : (sweepStart s).nrx = s.nrx := rfl
@[simp] theorem sweepStart_snrStart (s : State) : (sweepStart s).snrStart = s.snrStart := rfl
@[simp] theorem sweepStart_snrEnd (s : State) : (sweepStart s).snrEnd = s.snrEnd := rfl
@[simp] theorem sweepStart_snrStep (s : State) : (sweepStart s).snrStep = s.snrStep := rfl
@[simp] theorem sweepStart_snrCur (s : State) : (sweepStart s).snrCur = snrPoint s 0 := rfl
@[simp] theorem sweepStart_seed (s : State) : (sweepStart s).seed = s.seed := rfl
@[simp] theorem sweepStart_stream (s : State) : (sweepStart s).stream = 0#64 := rfl
@[simp] theorem sweepStart_bitIdx (s : State) : (sweepStart s).bitIdx = s.bitIdx := rfl
@[simp] theorem sweepStart_gaussIdx (s : State) : (sweepStart s).gaussIdx = s.gaussIdx := rfl
@[simp] theorem sweepStart_errcnt (s : State) : (sweepStart s).errcnt = s.errcnt := rfl
@[simp] theorem sweepStart_bitcnt (s : State) : (sweepStart s).bitcnt = s.bitcnt := rfl
@[simp] theorem sweepStart_degenCnt (s : State) : (sweepStart s).degenCnt = 0#64 := rfl
@[simp] theorem sweepStart_ber (s : State) : (sweepStart s).ber = s.ber := rfl
@[simp] theorem sweepStart_sigma (s : State) : (sweepStart s).sigma = s.sigma := rfl
@[simp] theorem sweepStart_resultCount (s : State) : (sweepStart s).resultCount = 0#64 := rfl
@[simp] theorem sweepStart_bits (s : State) : (sweepStart s).bits = s.bits := rfl
@[simp] theorem sweepStart_bhat (s : State) : (sweepStart s).bhat = s.bhat := rfl
@[simp] theorem sweepStart_s1 (s : State) : (sweepStart s).s1 = s.s1 := rfl
@[simp] theorem sweepStart_s2 (s : State) : (sweepStart s).s2 = s.s2 := rfl
@[simp] theorem sweepStart_x00 (s : State) : (sweepStart s).x00 = s.x00 := rfl
@[simp] theorem sweepStart_x01 (s : State) : (sweepStart s).x01 = s.x01 := rfl
@[simp] theorem sweepStart_x10 (s : State) : (sweepStart s).x10 = s.x10 := rfl
@[simp] theorem sweepStart_x11 (s : State) : (sweepStart s).x11 = s.x11 := rfl
@[simp] theorem sweepStart_z1 (s : State) : (sweepStart s).z1 = s.z1 := rfl
@[simp] theorem sweepStart_z2 (s : State) : (sweepStart s).z2 = s.z2 := rfl
@[simp] theorem sweepStart_den (s : State) : (sweepStart s).den = s.den := rfl
@[simp] theorem sweepStart_h (s : State) : (sweepStart s).h = s.h := rfl
@[simp] theorem sweepStart_nz (s : State) : (sweepStart s).nz = s.nz := rfl
@[simp] theorem sweepStart_y (s : State) : (sweepStart s).y = s.y := rfl
@[simp] theorem sweepStart_result (s : State) : (sweepStart s).result = s.result := rfl
@[simp] theorem sweepStart_abortReq (s : State) : (sweepStart s).abortReq = s.abortReq := rfl
@[simp] theorem sweepStart_phase (s : State) : (sweepStart s).phase = .ptInit := rfl
@[simp] theorem sweepStart_k (s : State) : (sweepStart s).k = 0 := rfl
@[simp] theorem sweepStart_p (s : State) : (sweepStart s).p = s.p := rfl
@[simp] theorem sweepStart_cwdone (s : State) : (sweepStart s).cwdone = s.cwdone := rfl
@[simp] theorem sweepStart_draws (s : State) : (sweepStart s).draws = s.draws := rfl
@[simp] theorem sweepStart_resp (s : State) : (sweepStart s).resp = s.resp := rfl
@[simp] theorem sweepStart_events (s : State) : (sweepStart s).events = s.events := rfl

end Sys2Proof.Machine
end

