-- ==== Sys2Proof/Laws/Loops.lean ====
section
/-! SUPPORT. The loops of DRAWH, DRAWN and CHAN: the order in which they visit the file entries, and what each leaves in every entry, in
GAUSS_IDX and in the index of the next free value. -/

namespace Sys2Proof.Machine

theorem antennas_le (s : State) : antennas s ≤ 16 := Nat.min_le_right _ _

theorem antennas_eq (s : State) (h : s.nrx.toNat ≤ 16) : antennas s = s.nrx.toNat := Nat.min_eq_left h

theorem hOrder_succ (r : Nat) : hOrder (r + 1) = hOrder r ++ [hIdx 0 r, hIdx 1 r] := by
  simp [hOrder, List.range_succ]

theorem nzOrder_succ (r : Nat) : nzOrder (r + 1) = nzOrder r ++ [slotIdx r 0, slotIdx r 1] := by
  simp [nzOrder, List.range_succ]

theorem slotOrder_succ (r : Nat) : slotOrder (r + 1) = slotOrder r ++ [(r, 0), (r, 1)] := by
  simp [slotOrder, List.range_succ]

/-- The visiting orders as one run over 0 to 2·R - 1. -/
theorem range_two_mul (r : Nat) : List.range (2 * (r + 1)) = List.range (2 * r) ++ [2 * r, 2 * r + 1] := by
  rw [show 2 * (r + 1) = 2 * r + 1 + 1 by omega, List.range_succ, List.range_succ, List.append_assoc]; rfl

theorem hOrder_eq_map (r : Nat) : hOrder r = (List.range (2 * r)).map fun n => hIdx (n % 2) (n / 2) := by
  induction r with
  | zero => rfl
  | succ r ih =>
    rw [hOrder_succ, range_two_mul, List.map_append, ih]
    simp only [List.map_cons, List.map_nil]
    rw [show 2 * r % 2 = 0 by omega, show 2 * r / 2 = r by omega, show (2 * r + 1) % 2 = 1 by omega,
      show (2 * r + 1) / 2 = r by omega]

theorem nzOrder_eq_map (r : Nat) : nzOrder r = (List.range (2 * r)).map fun n => slotIdx (n / 2) (n % 2) := by
  induction r with
  | zero => rfl
  | succ r ih =>
    rw [nzOrder_succ, range_two_mul, List.map_append, ih]
    simp only [List.map_cons, List.map_nil]
    rw [show 2 * r % 2 = 0 by omega, show 2 * r / 2 = r by omega, show (2 * r + 1) % 2 = 1 by omega,
      show (2 * r + 1) / 2 = r by omega]

theorem slotOrder_eq_map (r : Nat) : slotOrder r = (List.range (2 * r)).map fun n => (n / 2, n % 2) := by
  induction r with
  | zero => rfl
  | succ r ih =>
    rw [slotOrder_succ, range_two_mul, List.map_append, ih]
    simp only [List.map_cons, List.map_nil]
    rw [show 2 * r % 2 = 0 by omega, show 2 * r / 2 = r by omega, show (2 * r + 1) % 2 = 1 by omega,
      show (2 * r + 1) / 2 = r by omega]

@[simp] theorem hOrder_length (r : Nat) : (hOrder r).length = 2 * r := by simp [hOrder_eq_map]

@[simp] theorem nzOrder_length (r : Nat) : (nzOrder r).length = 2 * r := by simp [nzOrder_eq_map]

@[simp] theorem slotOrder_length (r : Nat) : (slotOrder r).length = 2 * r := by simp [slotOrder_eq_map]

theorem hIdx_val (a r : Nat) (ha : a < 2) (hr : r < 16) : (hIdx a r).val = 16 * a + r := by
  simp only [hIdx, Fin.ofNat]; omega

theorem slotIdx_val (r t : Nat) (hr : r < 16) (ht : t < 2) : (slotIdx r t).val = 2 * r + t := by
  simp only [slotIdx, Fin.ofNat]; omega

theorem hOrder_nodup (r : Nat) (h : r ≤ 16) : (hOrder r).Nodup := by
  rw [hOrder_eq_map]
  refine List.Nodup.map_on ?_ List.nodup_range
  intro x hx y hy e
  simp only [List.mem_range] at hx hy
  have e' := congrArg Fin.val e
  rw [hIdx_val _ _ (by omega) (by omega), hIdx_val _ _ (by omega) (by omega)] at e'
  omega

theorem nzOrder_nodup (r : Nat) (h : r ≤ 16) : (nzOrder r).Nodup := by
  rw [nzOrder_eq_map]
  refine List.Nodup.map_on ?_ List.nodup_range
  intro x hx y hy e
  simp only [List.mem_range] at hx hy
  have e' := congrArg Fin.val e
  rw [slotIdx_val _ _ (by omega) (by omega), slotIdx_val _ _ (by omega) (by omega)] at e'
  omega

/-- What the draw loop leaves: GAUSS_IDX and the free-value index advance by 2 an entry. -/
theorem drawInto_idx (g : Gen) (seed stream : Word) (is : List (Fin 32)) :
    ∀ (file : Vector Cplx 32) (idx : Word) (d : Nat),
      (drawInto g seed stream is (file, idx, d)).2 = (idx + BitVec.ofNat 64 (2 * is.length), d + 2 * is.length) := by
  induction is with
  | nil => intro file idx d; simp [drawInto]
  | cons i is ih =>
    intro file idx d
    rw [drawInto, ih]
    simp only [List.length_cons, Prod.mk.injEq]
    refine ⟨?_, by omega⟩
    rw [show 2 * (is.length + 1) = 2 + 2 * is.length by omega, BitVec.ofNat_add, BitVec.add_assoc]

/-- An entry the draw loop does not visit keeps its value. -/
theorem drawInto_other (g : Gen) (seed stream : Word) (is : List (Fin 32)) (j : Fin 32) :
    ∀ (file : Vector Cplx 32) (idx : Word) (d : Nat), j ∉ is →
      (drawInto g seed stream is (file, idx, d)).1[j] = file[j] := by
  induction is with
  | nil => intro file idx d _; rfl
  | cons i is ih =>
    intro file idx d hj
    rw [drawInto, ih _ _ _ fun h => hj (by simp [h])]
    have hij : i.val ≠ j.val := fun e => hj (by rw [Fin.ext e]; simp)
    simp [hij]

/-- The n-th entry the draw loop visits holds the scaled draws at GAUSS_IDX + 2n and the next index. -/
theorem drawInto_visited (g : Gen) (seed stream : Word) (is : List (Fin 32)) :
    ∀ (file : Vector Cplx 32) (idx : Word) (d n : Nat) (hn : n < is.length), is.Nodup →
      (drawInto g seed stream is (file, idx, d)).1[is[n]] =
        rscale (d + 2 * n) kn
          ⟨finitePattern (g.gauss seed stream (idx + BitVec.ofNat 64 (2 * n))),
           finitePattern (g.gauss seed stream (idx + BitVec.ofNat 64 (2 * n) + 1#64))⟩ := by
  induction is with
  | nil => intro file idx d n hn; simp at hn
  | cons i is ih =>
    intro file idx d n hn hd
    obtain ⟨hi, hd⟩ := List.nodup_cons.1 hd
    rw [drawInto]
    cases n with
    | zero =>
      simp only [List.getElem_cons_zero]
      rw [drawInto_other _ _ _ _ _ _ _ _ hi]
      simp
    | succ n =>
      simp only [List.getElem_cons_succ]
      rw [ih _ _ _ n (by simpa using hn) hd]
      have e : idx + 2#64 + BitVec.ofNat 64 (2 * n) = idx + BitVec.ofNat 64 (2 * (n + 1)) := by
        rw [show 2 * (n + 1) = 2 + 2 * n by omega, BitVec.ofNat_add, BitVec.add_assoc]
      rw [e, show d + 2 + 2 * n = d + 2 * (n + 1) by omega]

/-- What the sample loop leaves in the free-value index: 18 an entry. -/
theorem chanInto_draws (s : State) (sg : F64) (ps : List (Nat × Nat)) :
    ∀ (file : Vector Cplx 32) (d : Nat), (chanInto s sg ps (file, d)).2 = d + 18 * ps.length := by
  induction ps with
  | nil => intro file d; simp [chanInto]
  | cons i is ih => intro file d; rw [chanInto, ih]; simp only [List.length_cons]; omega

/-- An entry the sample loop does not visit keeps its value. -/
theorem chanInto_other (s : State) (sg : F64) (ps : List (Nat × Nat)) (j : Fin 32) :
    ∀ (file : Vector Cplx 32) (d : Nat), (∀ p ∈ ps, slotIdx p.1 p.2 ≠ j) →
      (chanInto s sg ps (file, d)).1[j] = file[j] := by
  induction ps with
  | nil => intro file d _; rfl
  | cons p ps ih =>
    intro file d hj
    obtain ⟨r, t⟩ := p
    rw [chanInto, ih _ _ fun q hq => hj q (by simp [hq])]
    have hij : (slotIdx r t).val ≠ j.val := fun e => hj (r, t) (by simp) (Fin.ext e)
    simp [hij]

/-- The n-th sample the sample loop visits. -/
theorem chanInto_visited (s : State) (sg : F64) (ps : List (Nat × Nat)) :
    ∀ (file : Vector Cplx 32) (d n : Nat) (hn : n < ps.length), (ps.map fun p => slotIdx p.1 p.2).Nodup →
      (chanInto s sg ps (file, d)).1[slotIdx ps[n].1 ps[n].2] =
        received (d + 18 * n) (hAt s 0 ps[n].1) (hAt s 1 ps[n].1) (xAt s 0 ps[n].2) (xAt s 1 ps[n].2) sg
          (nzAt s ps[n].1 ps[n].2) := by
  induction ps with
  | nil => intro file d n hn; simp at hn
  | cons p ps ih =>
    intro file d n hn hd
    obtain ⟨r, t⟩ := p
    rw [List.map_cons, List.nodup_cons] at hd
    obtain ⟨hi, hd⟩ := hd
    rw [chanInto]
    cases n with
    | zero =>
      simp only [List.getElem_cons_zero]
      rw [chanInto_other _ _ _ _ _ _ fun q hq e => hi (List.mem_map.2 ⟨q, hq, e⟩)]
      simp
    | succ n =>
      simp only [List.getElem_cons_succ]
      rw [ih _ _ n (by simpa using hn) hd, show d + 18 + 18 * n = d + 18 * (n + 1) by omega]

/-- The file entries CHAN visits are distinct. -/
theorem slotOrder_nodup (r : Nat) (h : r ≤ 16) : ((slotOrder r).map fun p => slotIdx p.1 p.2).Nodup := by
  have : (slotOrder r).map (fun p => slotIdx p.1 p.2) = nzOrder r := by
    rw [slotOrder_eq_map, nzOrder_eq_map, List.map_map]; rfl
  rw [this]
  exact nzOrder_nodup r h

/-! The frame of the loops: entries of antennas r ≥ R (R50 to R52, R60). -/

theorem antennas_le_nrx (s : State) : antennas s ≤ s.nrx.toNat := Nat.min_le_left _ _

/-- DRAWH leaves every `H[a][r]` with r ≥ R as it was. -/
theorem drawhBody_other (g : Gen) (s : State) (a r : Nat) (ha : a < 2) (hr : r < 16) (h : s.nrx.toNat ≤ r) :
    (drawhBody g s).h[hIdx a r] = s.h[hIdx a r] := by
  rw [drawhBody_h, drawInto_other]
  rw [hOrder_eq_map]
  intro hm
  obtain ⟨n, hn, he⟩ := List.mem_map.1 hm
  have h1 := List.mem_range.1 hn
  have h2 := antennas_le_nrx s
  have h3 := antennas_le s
  have e := hIdx_val (n % 2) (n / 2) (by omega) (by omega)
  rw [he, hIdx_val a r ha hr] at e
  have h4 : n / 2 = r := by rcases Nat.mod_two_eq_zero_or_one n with h5 | h5 <;> rw [h5] at e <;> interval_cases a <;> omega
  omega

/-- DRAWN leaves every `NZ[r][t]` with r ≥ R as it was. -/
theorem drawnBody_other (g : Gen) (s : State) (r t : Nat) (hr : r < 16) (ht : t < 2) (h : s.nrx.toNat ≤ r) :
    (drawnBody g s).nz[slotIdx r t] = s.nz[slotIdx r t] := by
  rw [drawnBody_nz, drawInto_other]
  rw [nzOrder_eq_map]
  intro hm
  obtain ⟨n, hn, he⟩ := List.mem_map.1 hm
  have h1 := List.mem_range.1 hn
  have h2 := antennas_le_nrx s
  have h3 := antennas_le s
  have e := slotIdx_val (n / 2) (n % 2) (by omega) (by omega)
  rw [he, slotIdx_val r t hr ht] at e
  omega

/-- CHAN leaves every `Y[r][t]` with r ≥ R as it was. -/
theorem chanBody_other (s : State) (r t : Nat) (hr : r < 16) (ht : t < 2) (h : s.nrx.toNat ≤ r) :
    (chanBody s).y[slotIdx r t] = s.y[slotIdx r t] := by
  rw [chanBody_y, chanInto_other]
  intro p hm he
  rw [slotOrder_eq_map] at hm
  obtain ⟨n, hn, rfl⟩ := List.mem_map.1 hm
  have h1 := List.mem_range.1 hn
  have h2 := antennas_le_nrx s
  have h3 := antennas_le s
  have e := slotIdx_val (n / 2) (n % 2) (by omega) (by omega)
  rw [he, slotIdx_val r t hr ht] at e
  omega

end Sys2Proof.Machine
end

