-- ==== Sys2Proof/Laws/Memory.lean ====
section
/-! SUPPORT. The RESULT memory: read after write, writes elsewhere, and the canonical form, which every memory operation keeps. -/

namespace Sys2Proof.Machine

@[simp] theorem readByte_nil (a : Nat) : readByte [] a = unwritten := rfl

theorem readByte_cons (c : Host.Cell) (m : Memory) (a : Nat) :
    readByte (c :: m) a = if c.1 = a then c.2 else readByte m a := rfl

theorem wf_cons (c : Host.Cell) (m : Memory) :
    Memory.wf (c :: m) = true ↔ c.2 ≠ unwritten ∧ (∀ e ∈ m, c.1 < e.1) ∧ Memory.wf m = true := by
  simp [Memory.wf, and_assoc]

/-- No cell at the offset: the byte is unwritten. -/
theorem readByte_of_not_mem (m : Memory) (a : Nat) (h : ∀ e ∈ m, e.1 ≠ a) : readByte m a = unwritten := by
  induction m with
  | nil => rfl
  | cons c m ih =>
    rw [readByte_cons, if_neg (h c (by simp)), ih fun e he => h e (by simp [he])]

/-- The offsets a byte write leaves listed. -/
theorem writeByte_keys (m : Memory) (a : Nat) (b : Byte) : ∀ e ∈ writeByte m a b, e.1 = a ∨ ∃ c ∈ m, c.1 = e.1 := by
  induction m with
  | nil => intro e he; simp only [writeByte] at he; split at he <;> simp_all
  | cons c m ih =>
    intro e he
    simp only [writeByte] at he
    split at he
    · rcases List.mem_cons.1 he with rfl | he
      · exact .inr ⟨e, by simp, rfl⟩
      · rcases ih e he with h | ⟨x, hx, hk⟩
        · exact .inl h
        · exact .inr ⟨x, by simp [hx], hk⟩
    · have hrest : ∀ x ∈ (if c.1 = a then m else c :: m), x ∈ c :: m := by
        intro x hx; split at hx <;> simp_all
      split at he
      · exact .inr ⟨e, hrest e he, rfl⟩
      · rcases List.mem_cons.1 he with rfl | he
        · exact .inl rfl
        · exact .inr ⟨e, hrest e he, rfl⟩

/-- A byte write keeps the canonical form. -/
theorem writeByte_wf (m : Memory) (a : Nat) (b : Byte) (h : Memory.wf m = true) : Memory.wf (writeByte m a b) = true := by
  induction m with
  | nil => simp only [writeByte]; split <;> simp_all [Memory.wf]
  | cons c m ih =>
    obtain ⟨hb, hlt, hm⟩ := (wf_cons c m).1 h
    simp only [writeByte]
    split
    · rename_i hca
      refine (wf_cons _ _).2 ⟨hb, fun e he => ?_, ih hm⟩
      rcases writeByte_keys m a b e he with hk | ⟨x, hx, hk⟩
      · omega
      · have := hlt x hx; omega
    · rename_i hca
      have hrest : Memory.wf (if c.1 = a then m else c :: m) = true := by split <;> assumption
      have hgt : ∀ e ∈ (if c.1 = a then m else c :: m), a < e.1 := by
        intro e he
        split at he
        · have := hlt e he; omega
        · rcases List.mem_cons.1 he with rfl | he
          · omega
          · have := hlt e he; omega
      split
      · exact hrest
      · exact (wf_cons _ _).2 ⟨by assumption, hgt, hrest⟩

/-- Reading the byte just written. -/
theorem readByte_writeByte_same (m : Memory) (a : Nat) (b : Byte) (h : Memory.wf m = true) :
    readByte (writeByte m a b) a = b := by
  induction m with
  | nil => simp only [writeByte]; split <;> simp_all [readByte]
  | cons c m ih =>
    obtain ⟨hb, hlt, hm⟩ := (wf_cons c m).1 h
    simp only [writeByte]
    split
    · rw [readByte_cons, if_neg (by omega), ih hm]
    · split
      · subst b
        apply readByte_of_not_mem
        intro e he
        split at he
        · have := hlt e he; omega
        · rcases List.mem_cons.1 he with rfl | he
          · omega
          · have := hlt e he; omega
      · simp [readByte]

/-- A byte write leaves every other byte alone. -/
theorem readByte_writeByte_other (m : Memory) (a x : Nat) (b : Byte) (hx : x ≠ a) :
    readByte (writeByte m a b) x = readByte m x := by
  induction m with
  | nil => simp only [writeByte]; split <;> simp [readByte, Ne.symm hx]
  | cons c m ih =>
    simp only [writeByte]
    split
    · rw [readByte_cons, readByte_cons, ih]
    · have hrest : readByte (if c.1 = a then m else c :: m) x = readByte (c :: m) x := by
        split
        · rw [readByte_cons, if_neg (by omega)]
        · rfl
      split
      · exact hrest
      · rw [readByte_cons, if_neg (Ne.symm hx), hrest]

theorem writeBytes_wf (bs : List Byte) : ∀ (m : Memory) (a : Nat), Memory.wf m = true → Memory.wf (writeBytes m a bs) = true := by
  induction bs with
  | nil => intro m a h; exact h
  | cons b bs ih => intro m a h; exact ih _ _ (writeByte_wf m a b h)

theorem readByte_writeBytes_other (bs : List Byte) :
    ∀ (m : Memory) (a x : Nat), x < a ∨ a + bs.length ≤ x → readByte (writeBytes m a bs) x = readByte m x := by
  induction bs with
  | nil => intro m a x _; rfl
  | cons b bs ih =>
    intro m a x h
    simp only [List.length_cons] at h
    rw [writeBytes, ih _ _ _ (by omega), readByte_writeByte_other _ _ _ _ (by omega)]

theorem readByte_writeBytes_in (bs : List Byte) :
    ∀ (m : Memory) (a i : Nat) (hi : i < bs.length), Memory.wf m = true → readByte (writeBytes m a bs) (a + i) = bs[i] := by
  induction bs with
  | nil => intro m a i hi; simp at hi
  | cons b bs ih =>
    intro m a i hi h
    rw [writeBytes]
    cases i with
    | zero => rw [readByte_writeBytes_other _ _ _ _ (by omega)]; exact readByte_writeByte_same m a b h
    | succ i =>
      have := ih (writeByte m a b) (a + 1) i (by simpa using hi) (writeByte_wf m a b h)
      rw [show a + (i + 1) = a + 1 + i by omega, this]; rfl

@[simp] theorem bytesOfWord_length (v : Word) : (bytesOfWord v).length = 8 := by simp [bytesOfWord]

theorem bytesOfWord_get (v : Word) (i : Nat) (hi : i < (bytesOfWord v).length) :
    (bytesOfWord v)[i] = BitVec.ofNat 8 (v.toNat / 2 ^ (8 * i)) := by simp [bytesOfWord]

/-- The bytes of a word are that word. -/
theorem wordOfBytes_bytesOfWord (v : Word) : wordOfBytes (bytesOfWord v) = v := by
  have hv := v.isLt
  apply BitVec.eq_of_toNat_eq
  simp only [wordOfBytes, bytesOfWord, List.range_succ, List.range_zero, List.map, List.nil_append,
    List.cons_append, natOfBytes, BitVec.toNat_ofNat]
  omega

/-- A word write keeps the canonical form. -/
theorem writeWord_wf (m : Memory) (a : Nat) (v : Word) (h : Memory.wf m = true) : Memory.wf (writeWord m a v) = true :=
  writeBytes_wf _ m a h

/-- Reading the word just written. -/
theorem readWord_writeWord_same (m : Memory) (a : Nat) (v : Word) (h : Memory.wf m = true) :
    readWord (writeWord m a v) a = v := by
  have : (List.range 8).map (fun i => readByte (writeWord m a v) (a + i)) = bytesOfWord v := by
    apply List.ext_getElem (by simp)
    intro i h1 h2
    simp only [List.getElem_map, List.getElem_range]
    exact readByte_writeBytes_in _ m a i h2 h
  rw [readWord, this, wordOfBytes_bytesOfWord]

/-- A word write leaves every byte outside its eight alone. -/
theorem readByte_writeWord_other (m : Memory) (a x : Nat) (v : Word) (hx : x < a ∨ a + 8 ≤ x) :
    readByte (writeWord m a v) x = readByte m x :=
  readByte_writeBytes_other _ m a x (by simpa using hx)

/-- A word write leaves every word outside its eight bytes alone. -/
theorem readWord_writeWord_other (m : Memory) (a x : Nat) (v : Word) (hx : x + 8 ≤ a ∨ a + 8 ≤ x) :
    readWord (writeWord m a v) x = readWord m x := by
  unfold readWord
  congr 1
  apply List.map_congr_left
  intro i hi
  exact readByte_writeWord_other m a (x + i) v (by simp at hi; omega)

/-- The offsets a word write leaves listed. -/
theorem writeWord_keys (m : Memory) (a : Nat) (v : Word) :
    ∀ e ∈ writeWord m a v, (a ≤ e.1 ∧ e.1 < a + 8) ∨ ∃ c ∈ m, c.1 = e.1 := by
  have key : ∀ (bs : List Byte) (m : Memory) (a : Nat), ∀ e ∈ writeBytes m a bs,
      (a ≤ e.1 ∧ e.1 < a + bs.length) ∨ ∃ c ∈ m, c.1 = e.1 := by
    intro bs
    induction bs with
    | nil => intro m a e he; exact .inr ⟨e, he, rfl⟩
    | cons b bs ih =>
      intro m a e he
      simp only [List.length_cons]
      rcases ih _ _ e he with h | ⟨c, hc, hk⟩
      · exact .inl (by omega)
      · rcases writeByte_keys m a b c hc with h | ⟨x, hx, hk'⟩
        · exact .inl (by omega)
        · exact .inr ⟨x, hx, by omega⟩
  intro e he
  have := key (bytesOfWord v) m a e he
  rwa [bytesOfWord_length] at this

/-- Every operation of the RESULT memory keeps the canonical form: recording a point does, and no other command writes it. -/
theorem recordPoint_wf (s : State) (h : Memory.wf s.result = true) : Memory.wf (recordPoint s).result = true := by
  unfold recordPoint
  dsimp only
  iterate 4 apply writeWord_wf
  exact h

theorem reset_memory_wf : Memory.wf State.reset.result = true := rfl

end Sys2Proof.Machine
end

