-- ==== Sys2Proof/Laws/Ops.lean ====
section
/-! SUPPORT. One lemma for each shared operation that says once everything it can do, to be cited instead of unfolding it. -/

namespace Sys2Proof.Machine

/-! Bits and fields. -/

@[simp] theorem nopBody_eq (s : State) : nopBody s = s := rfl

@[simp] theorem pairBits_zero (a b : Bool) : (pairBits a b).getLsbD 0 = a := by cases a <;> cases b <;> rfl

@[simp] theorem pairBits_one (a b : Bool) : (pairBits a b).getLsbD 1 = b := by cases a <;> cases b <;> rfl

theorem mismatches_le (a b : Bool) (v : BitVec 2) : mismatches a b v ≤ 2 := by unfold mismatches; split <;> split <;> omega

/-! Checks at issue. -/

theorem checkNrx_none (s : State) : checkNrx s = none ↔ 1 ≤ s.nrx.toNat ∧ s.nrx.toNat ≤ 16 := by
  unfold checkNrx Config.rmax
  split
  · rename_i h; simp [h]
  · rename_i h
    have : s.nrx.toNat ≠ 0 := fun e => h (BitVec.eq_of_toNat_eq e)
    split <;> simp <;> omega

theorem checkNbits_none (s : State) : checkNbits s = none ↔ 0 < s.nbits.toNat ∧ s.nbits.toNat % 2 = 0 := by
  unfold checkNbits
  split
  · rename_i h; simp [h]
  · rename_i h
    have h0 : s.nbits.toNat ≠ 0 := fun e => h (BitVec.eq_of_toNat_eq e)
    have hb : s.nbits.getLsbD 0 = decide (s.nbits.toNat % 2 = 1) := by
      simp [BitVec.getLsbD, Nat.testBit_zero]
    rw [hb]
    split <;> (simp_all; try omega)

theorem checkRange_none (s : State) :
    checkRange s = none ↔ 0 < s.snrStep.toInt ∧ s.snrStart.toInt ≤ s.snrEnd.toInt ∧ pointCount s ≤ 256 := by
  unfold checkRange Config.maxPoints
  split
  · simp; omega
  · split
    · simp; omega
    · split <;> simp <;> omega

/-! Unit commands, end and abort. -/

theorem unitStep_next (body : State → State) (s t : State) (h : unitStep body s = .next t) : t = endCmd .done (body s) := by
  simp only [unitStep, Host.Outcome.next.injEq] at h
  exact h.symm

/-- A CTRL write does at most one thing: nothing, the clear outside BUSY, or the abort request of a running RUNPT or SWEEP. -/
theorem writeCtrl_cases (v : Word) (s : State) :
    writeCtrl v s = s ∨ (s.state ≠ .busy ∧ writeCtrl v s = clearBlock s) ∨
      (s.state = .busy ∧ isMultiStep s.cmd = true ∧ writeCtrl v s = { s with abortReq := true }) := by
  unfold writeCtrl
  by_cases hb : s.state = .busy
  · have hc : clearBlock s = s := by simp [clearBlock, hb]
    simp only [hc, ite_self]
    split
    · unfold requestAbort
      split
      · rename_i h; exact .inr (.inr ⟨h.1, h.2, rfl⟩)
      · exact .inl rfl
    · exact .inl rfl
  · have hr : ∀ u : State, u.state ≠ .busy → requestAbort u = u := by
      intro u hu; simp [requestAbort, hu]
    have hc : (clearBlock s).state ≠ .busy := by simp [clearBlock, hb]
    split
    · simp only [hr _ hc, ite_self]; exact .inr (.inl ⟨hb, trivial⟩)
    · simp only [hr _ hb, ite_self]; exact .inl trivial

theorem clearBlock_of_not_busy (s : State) (h : s.state ≠ .busy) :
    clearBlock s = { s with state := .idle, errCode := 0#8, errCause := 0#8, errInfo := 0#64, drop := false, degen := false } := by
  simp [clearBlock, h]

/-- The issue of a word: dropped, rejected as illegal, rejected by a check, or accepted. -/
theorem issue_cases (w : Word) (s : State) :
    ((s.state = .busy ∨ s.state = .error) ∧ issue w s = { s with drop := true }) ∨
    (s.state ≠ .busy ∧ s.state ≠ .error ∧
      ((∃ e, decode w = .error e ∧
          issue w s = raiseError codeIllegalCommand (illegalCause e) w { s with cmd := w, degen := false }) ∨
       (∃ i c v, decode w = .ok i ∧ validate i { s with cmd := w, degen := false } = some (c, v) ∧
          issue w s = raiseError codeInvalidInputSize c v { s with cmd := w, degen := false }) ∨
       (∃ i, decode w = .ok i ∧ validate i { s with cmd := w, degen := false } = none ∧
          issue w s = accept i { s with cmd := w, degen := false }))) := by
  unfold issue
  by_cases h : s.state = .busy ∨ s.state = .error
  · exact .inl ⟨h, if_pos h⟩
  · refine .inr ⟨fun e => h (.inl e), fun e => h (.inr e), ?_⟩
    rw [if_neg h]
    cases hd : decode w with
    | error e => exact .inl ⟨e, rfl, rfl⟩
    | ok i =>
      cases hv : validate i { s with cmd := w, degen := false } with
      | none => exact .inr (.inr ⟨i, rfl, hv, by simp [hv]⟩)
      | some p => exact .inr (.inl ⟨i, p.1, p.2, rfl, hv, by simp [hv]⟩)

/-! The host port. -/

/-- A host step that goes on is an admitted read or an admitted write. -/
theorem hostStep_next (a : Access) (s t : State) (h : hostStep a s = .next t) :
    a.wellFormed = true ∧
      ((∃ n off, a = .read n off ∧ t = memRead off s) ∨ (∃ n off v, a = .write n off v ∧ t = memWrite off v s)) := by
  unfold hostStep at h
  split at h
  · rename_i hw
    refine ⟨hw, ?_⟩
    cases a with
    | read n off => exact .inl ⟨n, off, rfl, by simpa using h.symm⟩
    | write n off v => exact .inr ⟨n, off, v, rfl, by simpa using h.symm⟩
  · cases h

/-- A read changes only the response and, when its value is free, the index of the next free value. -/
theorem memRead_cases (off : Nat) (s : State) :
    (readSpecified s (regAt off) = true ∧ memRead off s = { s with resp := some (readReg s (regAt off)) }) ∨
    (readSpecified s (regAt off) = false ∧
      memRead off s = { s with resp := some (Config.freeRead s.draws), draws := s.draws + 1 }) := by
  unfold memRead
  cases h : readSpecified s (regAt off) with
  | true => exact .inl ⟨rfl, by simp⟩
  | false => exact .inr ⟨rfl, by simp⟩

/-- A write is dropped, or follows the register's write rule. -/
theorem memWrite_cases (off : Nat) (v : Word) (s : State) :
    (s.state = .busy ∧ busyWritable (regAt off) = false ∧ memWrite off v s = { s with resp := none, drop := true }) ∨
    ((s.state ≠ .busy ∨ busyWritable (regAt off) = true) ∧
      memWrite off v s = writeReg { s with resp := none } v (regAt off)) := by
  unfold memWrite
  by_cases h : s.state = .busy ∧ busyWritable (regAt off) = false
  · exact .inl ⟨h.1, h.2, by simp [h]⟩
  · refine .inr ⟨?_, by simp only [if_neg h]⟩
    by_cases hb : s.state = .busy
    · exact .inr (by simpa using fun e => h ⟨hb, e⟩)
    · exact .inl hb

/-! The sequencer and the turns. -/

/-- Everything a sequencer step that goes on can do. -/
theorem sequencerStep_next (g : Gen) (sweep : Bool) (s t : State) (h : sequencerStep g sweep s = .next t) :
    (s.abortReq = true ∧ s.phase ≠ .swStart ∧ t = endCmd .aborted s) ∨
    ((s.abortReq = false ∨ s.phase = .swStart) ∧
      ((s.phase = .swStart ∧ t = sweepStart s) ∨
       (s.phase = .ptInit ∧ t = pointStart sweep s) ∨
       (s.phase = .ptCw ∧ t = pointCodeword g s) ∨
       (s.phase = .ptFinal ∧ t = if sweep then sweepFinal s else endCmd .done (finalisePoint s)))) := by
  unfold sequencerStep at h
  split at h
  · rename_i ha
    exact .inl ⟨ha.1, ha.2, by simpa using h.symm⟩
  · rename_i ha
    refine .inr ⟨?_, ?_⟩
    · by_cases hp : s.phase = .swStart
      · exact .inr hp
      · exact .inl (by simpa using fun e => ha ⟨e, hp⟩)
    · cases hp : s.phase <;> simp only [hp, reduceCtorEq, Host.Outcome.next.injEq] at h <;> simp [h]

/-- PT_FINAL of a SWEEP as one of two updates of the state with point K recorded. -/
theorem sweepFinal_eq (s : State) :
    sweepFinal s =
      if s.k + 1 = s.p then endCmd .done { recordPoint (finalisePoint s) with k := s.k + 1 }
      else
        { recordPoint (finalisePoint s) with
          k := s.k + 1, snrCur := snrPoint s (s.k + 1), stream := BitVec.ofNat 64 (s.k + 1), phase := .ptInit } := by
  have hk : (recordPoint (finalisePoint s)).k = s.k := by simp
  have hp : (recordPoint (finalisePoint s)).p = s.p := by simp
  have hq : ∀ k, snrPoint (recordPoint (finalisePoint s)) k = snrPoint s k := fun k => by simp [snrPoint]
  unfold sweepFinal
  generalize recordPoint (finalisePoint s) = r at *
  rw [← hk, ← hp, ← hq]
  rfl

/-- A core turn that goes on runs the command in CMD, or nothing outside BUSY. -/
theorem coreTurn_next (s t : State) (h : coreTurn s = .next t) :
    (s.state ≠ .busy ∧ t = s) ∨ (s.state = .busy ∧ ∃ i, decode s.cmd = .ok i ∧ exec i s = .next t) := by
  unfold coreTurn at h
  split at h
  · rename_i hb
    refine .inr ⟨hb, ?_⟩
    split at h
    · rename_i i hi; exact ⟨i, hi, h⟩
    · cases h
  · rename_i hb
    exact .inl ⟨hb, by simpa using h.symm⟩

/-- Everything a step that goes on can do. -/
theorem step_next (s t : State) (h : step s = .next t) :
    (s.events = [] ∧ coreTurn s = .next t) ∨
    (∃ rest, s.events = .core :: rest ∧ coreTurn { s with events := rest } = .next t) ∨
    (∃ a rest, s.events = .host a :: rest ∧ hostStep a { s with events := rest } = .next t) ∨
    (∃ rest, s.events = .reset :: rest ∧ t = applyReset { s with events := rest }) := by
  unfold step nextTurn at h
  split at h
  · rename_i he; exact .inl ⟨he, h⟩
  · rename_i e rest he
    cases e with
    | core => exact .inr (.inl ⟨rest, he, h⟩)
    | host a => exact .inr (.inr (.inl ⟨a, rest, he, h⟩))
    | reset => exact .inr (.inr (.inr ⟨rest, he, by simpa [takeEvent] using h.symm⟩))

/-! Binary64. -/

theorem roundUnits_le (n d : Nat) : roundUnits n d ≤ infPattern := Nat.min_le_right _ _

theorem infPattern_eq : infPattern = 9218868437227405312 := rfl

theorem fpack_toNat (neg : Bool) (p : Nat) (hp : p ≤ infPattern) :
    (fpack neg p).toNat = (if neg then 2 ^ 63 else 0) + p := by
  rw [infPattern_eq] at hp
  cases neg <;> simp [fpack] <;> omega

/-- A packed sign and magnitude reads back. -/
theorem fview_fpack (neg : Bool) (p : Nat) (hp : p ≤ infPattern) :
    fview (fpack neg p) = if p = infPattern then .inf neg else .fin neg (unitsOf p) := by
  have ht := fpack_toNat neg p hp
  rw [infPattern_eq] at hp
  have hm : (fpack neg p).msb = neg := by
    rw [BitVec.msb_eq_decide, ht]
    cases neg <;> (simp; try omega)
  have hp2 : (fpack neg p).toNat % 2 ^ 63 = p := by rw [ht]; cases neg <;> simp <;> omega
  unfold fview
  simp only [hp2, hm]
  rw [if_neg (by rw [infPattern_eq]; omega)]

/-- The free NaN is a NaN, whatever the free value is. -/
@[simp] theorem fview_quietNaN (d : Nat) : fview (quietNaN d) = .nan := by
  have h : infPattern < (quietNaN d).toNat % 2 ^ 63 := by
    have hx : (quietNaN d).toNat = (BitVec.ofBool (Config.freeNaN d).1).toNat * 2 ^ 63 + 0xFFF * 2 ^ 51 + (Config.freeNaN d).2.toNat := by
      unfold quietNaN
      have h2 := (Config.freeNaN d).2.isLt
      simp only [BitVec.toNat_append]
      rw [← Nat.shiftLeft_add_eq_or_of_lt h2, ← Nat.shiftLeft_add_eq_or_of_lt (by decide)]
      simp [Nat.shiftLeft_eq]
      omega
    have h2 := (Config.freeNaN d).2.isLt
    rw [hx, infPattern_eq]
    omega
  unfold fview
  simp only [if_pos h]

@[simp] theorem fgt0_quietNaN (d : Nat) : fgt0 (quietNaN d) = false := by simp [fgt0]

@[simp] theorem feq0_quietNaN (d : Nat) : feq0 (quietNaN d) = false := by simp [feq0]

theorem fneg_fneg (a : F64) : fneg (fneg a) = a := by
  simp [fneg]

end Sys2Proof.Machine
end

