-- ==== Sys2Proof/Laws/PerInstr.lean ====
section
/-! SUPPORT. One lemma per command: what the fields of its command word are (spec 30_encoding.md R110 to R112). -/

namespace Sys2Proof.Laws.EncodeFields

open Sys2Proof

/-- The word of a command carries its opcode and its NORM bit, keeps the reserved field clear, is legal, and stands at the port as eight
bytes that decode to the command. -/
def Statement (i : Instr) : Prop :=
  opcOf (encode i) = opcodeOf i ∧ normOf (encode i) = normBit i ∧ reservedOf (encode i) = 0 ∧ legalWord (encode i) = true ∧
    (bytesOfWord (encode i)).length = 8 ∧ decodeBytes (bytesOfWord (encode i)) = .ok i

theorem nop : Statement .nop := by unfold Statement; decide

theorem drawb : Statement .drawb := by unfold Statement; decide

theorem map : Statement .map := by unfold Statement; decide

theorem enc (norm : Bool) : Statement (.enc norm) := by cases norm <;> (unfold Statement; decide)

theorem drawh : Statement .drawh := by unfold Statement; decide

theorem drawn : Statement .drawn := by unfold Statement; decide

theorem chan : Statement .chan := by unfold Statement; decide

theorem comb : Statement .comb := by unfold Statement; decide

theorem det : Statement .det := by unfold Statement; decide

theorem clracc : Statement .clracc := by unfold Statement; decide

theorem cword : Statement .cword := by unfold Statement; decide

theorem runpt : Statement .runpt := by unfold Statement; decide

theorem sweep : Statement .sweep := by unfold Statement; decide

end Sys2Proof.Laws.EncodeFields
end

