-- ==== Sys2Proof/Tests/Slice0.lean ====
section
/-! SUPPORT. Tests. The expected values are the spec's: its rules, its examples and the vectors of 95_test_vectors.md, named beside each test. A
theorem witness_<Name> shows states and operands that meet the hypotheses of Obligations.<Name>, at boundary values. -/

namespace Sys2Proof.Tests

open Sys2Proof Sys2Proof.Machine Sys2Proof.Claims

-- In order, one theorem after the other: evaluated tests side by side need too much memory.
set_option Elab.async false

/-! ## Well-formed terms -/

theorem test_accepts_a_word_access : (Access.write 8 0x3FF8 5#64).wellFormed = true := by decide

/-- V-REG-6: a 32-bit access -/
theorem test_refuses_another_width : (Access.read 4 0x020).widthOk = false ∧ (Access.read 4 0x020).wellFormed = false := by decide

/-- V-REG-6: an access at offset 0x004 -/
theorem test_refuses_a_misaligned_offset :
    (Access.read 8 0x004).aligned = false ∧ (Access.read 8 0x004).wellFormed = false := by decide

/-- V-REG-6: an access at offset 0x4000 -/
theorem test_refuses_an_offset_outside :
    (Access.write 8 0x4000 0#64).inAperture = false ∧ (Access.write 8 0x4000 0#64).wellFormed = false := by decide

/-- E16 -/
theorem test_refuses_an_unknown_opcode : opcodeKnown 0x00D#64 = false ∧ legalWord 0x00D#64 = false := by decide

/-- E19 -/
theorem test_refuses_reserved_bits : reservedClear 0x200#64 = false ∧ legalWord 0x200#64 = false := by decide

/-- E18 -/
theorem test_refuses_norm_outside_enc : normAllowed 0x101#64 = false ∧ legalWord 0x101#64 = false := by decide

/-! ## Decoding: each word written out field by field, reserved, NORM, OPC (R110, R111) -/

theorem test_decode_nop : decode (0#55 ++ 0b0#1 ++ 0b00000000#8) = .ok .nop := by decide
theorem test_decode_drawb : decode (0#55 ++ 0b0#1 ++ 0b00000001#8) = .ok .drawb := by decide
theorem test_decode_map : decode (0#55 ++ 0b0#1 ++ 0b00000010#8) = .ok .map := by decide
theorem test_decode_enc : decode (0#55 ++ 0b0#1 ++ 0b00000011#8) = .ok (.enc false) := by decide
theorem test_decode_enc_norm : decode (0#55 ++ 0b1#1 ++ 0b00000011#8) = .ok (.enc true) := by decide
theorem test_decode_drawh : decode (0#55 ++ 0b0#1 ++ 0b00000100#8) = .ok .drawh := by decide
theorem test_decode_drawn : decode (0#55 ++ 0b0#1 ++ 0b00000101#8) = .ok .drawn := by decide
theorem test_decode_chan : decode (0#55 ++ 0b0#1 ++ 0b00000110#8) = .ok .chan := by decide
theorem test_decode_comb : decode (0#55 ++ 0b0#1 ++ 0b00000111#8) = .ok .comb := by decide
theorem test_decode_det : decode (0#55 ++ 0b0#1 ++ 0b00001000#8) = .ok .det := by decide
theorem test_decode_clracc : decode (0#55 ++ 0b0#1 ++ 0b00001001#8) = .ok .clracc := by decide
theorem test_decode_cword : decode (0#55 ++ 0b0#1 ++ 0b00001010#8) = .ok .cword := by decide
theorem test_decode_runpt : decode (0#55 ++ 0b0#1 ++ 0b00001011#8) = .ok .runpt := by decide
theorem test_decode_sweep : decode (0#55 ++ 0b0#1 ++ 0b00001100#8) = .ok .sweep := by decide

/-- The bytes of ENC with NORM = 1 at the port, little-endian (R83). -/
theorem test_decode_bytes :
    decodeBytes [0x03#8, 0x01#8, 0#8, 0#8, 0#8, 0#8, 0#8, 0#8] = .ok (.enc true) ∧
    decodeBytes [0x03#8, 0x01#8] = .error .notOneWord ∧ decodeTableWord 64 0x103 = some (.enc true) ∧
    decodeTableWord 64 0x10C = none := by decide

/-- R287: the opcode before the reserved bits, E17 and E20 -/
theorem test_decode_errors :
    decode 0x80000000000000FF#64 = .error .unknownOpcode ∧ decode 0x8000000000000003#64 = .error .reservedBits := by decide

/-! ## A small machine to test on -/

/-- TG.bit and TG.gauss (95_test_vectors.md section 2), the table of exact values by sign, exponent and fraction. -/
def testGen : Gen where
  bit := fun seed stream i =>
    decide (((List.range 64).map fun b => ((seed + stream + i).getLsbD b).toNat).sum % 2 = 1)
  gauss := fun seed stream i =>
    match (seed.toNat + 3 * stream.toNat + i.toNat) % 7 with
    | 0 => ⟨false, 1023, 0#52⟩
    | 1 => ⟨true, 1022, 0#52⟩
    | 2 => ⟨false, 1021, 0#52⟩
    | 3 => ⟨false, 1024, 0#52⟩
    | 4 => ⟨true, 1023, 0x8000000000000#52⟩
    | 5 => ⟨false, 0, 0#52⟩
    | _ => ⟨true, 1022, 0x8000000000000#52⟩

/-- The reset state after the host's writes. -/
def written (l : List (Nat × Word)) : State := l.foldl (fun s p => memWrite p.1 p.2 s) State.reset

/-- The state an outcome leads to; the given one for a stop. -/
def after (s : State) (o : Host.Outcome State Fault Refusal) : State :=
  match o with
  | .next t => t
  | .fault _ => s
  | .refused _ => s

/-- One core step of a command that draws nothing. -/
def ran (i : Instr) (s : State) : State := after s (exec i s)

/-- The reset state with the coming turns given. -/
def turns (evs : List Event) : State := { State.reset with events := evs }

/-- A running command. -/
def running (w : Word) (ph : Phase) (evs : List Event) : State :=
  { State.reset with state := .busy, cmd := w, phase := ph, nbits := 2#64, events := evs }

/-- A running SWEEP of one point. -/
def runningSweep (ph : Phase) (evs : List Event) : State := { running 0x00C#64 ph evs with p := 1 }

/-! ## Arithmetic: section 3.1 -/

theorem test_kn_squared : fmul 0 kn kn = 0x3FDFFFFFFFFFFFFE#64 := by decide +kernel
theorem test_sigma_1_mdb : Sys2Proof.Machine.sigma 1#32 = 0x3FEFFF0E92028D17#64 := by decide +kernel
theorem test_sigma_3000 : Sys2Proof.Machine.sigma 3000#32 = 0x3FE6A77DEAE8AB8A#64 := by decide +kernel
theorem test_sigma_noiseless : Sys2Proof.Machine.sigma 0x7FFFFFFF#32 = 0#64 := by decide +kernel
theorem test_sigma_infinite : Sys2Proof.Machine.sigma (BitVec.ofInt 32 (-6165095)) = 0x7FF0000000000000#64 := by decide +kernel
theorem test_ber_rounds :
    Sys2Proof.Machine.ber 2#64 3#64 = 0x3FE5555555555555#64 ∧
    Sys2Proof.Machine.ber 1#64 100000#64 = 0x3EE4F8B588E368F1#64 := by decide +kernel

/-! ## The commands, at most two tests each -/

/-- V-NOP-1 -/
theorem test_nop : ran .nop State.reset = { State.reset with state := .done, intStatus := 1#3 } := by decide

/-- V-DRAWB-1 -/
theorem test_drawb : (drawbBody testGen State.reset).bits = 0b10#2 ∧ (drawbBody testGen State.reset).bitIdx = 2#64 := by decide +kernel

/-- V-DRAWB-2 -/
theorem test_drawb_wraps :
    (drawbBody testGen (written [(0x080, 0xFFFFFFFFFFFFFFFF#64)])).bits = 0b00#2 ∧
    (drawbBody testGen (written [(0x080, 0xFFFFFFFFFFFFFFFF#64)])).bitIdx = 1#64 := by decide +kernel

/-- V-MAP-1, 0b10 -/
theorem test_map :
    (ran .map (written [(0x0C0, 0b10#64)])).s1 = ⟨0xBFF0000000000000#64, 0#64⟩ ∧
    (ran .map (written [(0x0C0, 0b10#64)])).s2 = ⟨0x3FF0000000000000#64, 0#64⟩ := by decide +kernel

/-- W1: S1 = (1, 1), S2 = (1, -1), NORM = 0 -/
theorem test_enc :
    let t := ran (.enc false) (written [(0x100, 0x3FF0000000000000#64), (0x108, 0x3FF0000000000000#64),
      (0x110, 0x3FF0000000000000#64), (0x118, 0xBFF0000000000000#64)])
    t.x00 = ⟨0x3FF0000000000000#64, 0x3FF0000000000000#64⟩ ∧ t.x01 = ⟨0xBFF0000000000000#64, 0xBFF0000000000000#64⟩ ∧
    t.x10 = ⟨0x3FF0000000000000#64, 0xBFF0000000000000#64⟩ ∧ t.x11 = ⟨0x3FF0000000000000#64, 0xBFF0000000000000#64⟩ := by
  decide +kernel

/-- V-ENC-2: S1 = (2, 3), S2 = (-1, 4), NORM = 1 -/
theorem test_enc_norm :
    let t := ran (.enc true) (written [(0x100, 0x4000000000000000#64), (0x108, 0x4008000000000000#64),
      (0x110, 0xBFF0000000000000#64), (0x118, 0x4010000000000000#64)])
    t.x00 = ⟨0x3FF6A09E667F3BCC#64, 0x4000F876CCDF6CD9#64⟩ ∧ t.x01 = ⟨0x3FE6A09E667F3BCC#64, 0x4006A09E667F3BCC#64⟩ ∧
    t.x10 = ⟨0xBFE6A09E667F3BCC#64, 0x4006A09E667F3BCC#64⟩ ∧ t.x11 = ⟨0x3FF6A09E667F3BCC#64, 0xC000F876CCDF6CD9#64⟩ := by
  decide +kernel

/-- V-DRAWH-2: two antennas, read back at their offsets -/
theorem test_drawh :
    let t := drawhBody testGen (written [(0x048, 2#64)])
    hAt t 0 1 = ⟨0xBFF0F876CCDF6CD9#64, 0#64⟩ ∧ hAt t 1 0 = ⟨0x3FC6A09E667F3BCC#64, 0x3FF6A09E667F3BCC#64⟩ ∧
    t.gaussIdx = 8#64 ∧ hAt t 0 2 = ⟨0#64, 0#64⟩ := by decide +kernel

/-- V-DRAWN-1 -/
theorem test_drawn :
    let t := drawnBody testGen (written [(0x088, 4#64)])
    nzAt t 0 0 = ⟨0xBFF0F876CCDF6CD9#64, 0#64⟩ ∧ nzAt t 0 1 = ⟨0xBFE0F876CCDF6CD9#64, 0x3FE6A09E667F3BCC#64⟩ ∧
    t.gaussIdx = 8#64 := by decide +kernel

/-- The setup of V-CHAN-5: R = 2, SNR_CUR = 10000, X, H and NZ written by the host. -/
def chanSetup : State :=
  { written [(0x048, 2#64), (0x068, 10000#64),
      (0x200, 0x3FE0000000000000#64), (0x208, 0xBFF0000000000000#64), (0x300, 0x3FD0000000000000#64), (0x308, 0x3FE8000000000000#64),
      (0x210, 0xBFF0000000000000#64), (0x318, 0x4000000000000000#64),
      (0x400, 0x3FE0000000000000#64), (0x418, 0xBFE0000000000000#64),
      (0x420, 0xBFD0000000000000#64), (0x428, 0x3FD0000000000000#64), (0x430, 0x3FF0000000000000#64), (0x438, 0x3FF0000000000000#64)] with
    x00 := ⟨0x3FE6A09E667F3BCC#64, 0#64⟩, x01 := ⟨0x3FE6A09E667F3BCC#64, 0#64⟩
    x10 := ⟨0xBFE6A09E667F3BCC#64, 0#64⟩, x11 := ⟨0x3FE6A09E667F3BCC#64, 0x8000000000000000#64⟩ }

/-- V-CHAN-5 -/
theorem test_chan :
    let t := ran .chan chanSetup
    yAt t 0 0 = ⟨0x3FD56ED8E463C26E#64, 0xBFF3CC8A99AF5452#64⟩ ∧ yAt t 0 1 = ⟨0x3FE0F876CCDF6CD9#64, 0xBFD56ED8E463C26E#64⟩ ∧
    yAt t 1 0 = ⟨0xBFE92840D2C844EE#64, 0xBFF55CCD305AB73B#64⟩ ∧ yAt t 1 1 = ⟨0xBFD904296AB62E89#64, 0x3FFBAFE33F114E10#64⟩ := by
  decide +kernel

/-- V-COMB-2: on the Y of V-CHAN-5 -/
theorem test_comb :
    let t := ran .comb (ran .chan chanSetup)
    t.den = 0x401B800000000000#64 ∧ t.z1 = ⟨0x3FE9C15498985E5D#64, 0x3FBBF74DFC2C07DE#64⟩ ∧
    t.z2 = ⟨0xBFE4F8B66A1792E9#64, 0xBFAA7E7FC67A8E30#64⟩ ∧ t.degenCnt = 0#64 := by decide +kernel

/-- V-COMB-3: the degenerate path ends in DONE with both DEGEN flags -/
theorem test_comb_degenerate :
    let t := ran .comb (written [(0x048, 2#64), (0x208, 0x8000000000000000#64), (0x600, 0x3FF0000000000000#64)])
    t.den = 0#64 ∧ t.z1 = ⟨0#64, 0#64⟩ ∧ t.degenCnt = 1#64 ∧ t.degen = true ∧ t.intStatus = 0b101#3 ∧ t.state = .done := by
  decide +kernel

/-- V-DET-3: a NaN decides 0, the smallest subnormal decides 1 -/
theorem test_det :
    let t := ran .det (written [(0x160, 0x7FF8000000000000#64), (0x170, 1#64), (0x0C0, 0b10#64)])
    t.bhat = 0b10#2 ∧ t.errcnt = 0#64 ∧ t.bitcnt = 2#64 := by decide +kernel

/-- V-DET-6: both counters wrap -/
theorem test_det_wraps :
    let t := ran .det { written [(0x160, 0xBFF0000000000000#64), (0x170, 0x7FF0000000000000#64), (0x0C0, 0b01#64)] with
      errcnt := 0xFFFFFFFFFFFFFFFF#64, bitcnt := 0xFFFFFFFFFFFFFFFF#64 }
    t.bhat = 0b10#2 ∧ t.errcnt = 1#64 ∧ t.bitcnt = 1#64 := by decide +kernel

/-- V-CLRACC-1 -/
theorem test_clracc :
    let t := ran .clracc { State.reset with errcnt := 5#64, bitcnt := 8#64, degenCnt := 1#64, intStatus := 4#3 }
    t.errcnt = 0#64 ∧ t.bitcnt = 0#64 ∧ t.degenCnt = 0#64 ∧ t.intStatus = 5#3 := by decide

/-- V-CWORD-1: the last values of the pipeline -/
theorem test_cword :
    let t := cwordBody testGen State.reset
    t.den = 0x40053FFFFFFFFFFF#64 ∧ t.z1 = ⟨0xBFE4BEBC849D59E9#64, 0xBFDE1E1E1E1E1E1D#64⟩ ∧
    t.z2 = ⟨0x3FEBE5E3ABC48112#64, 0x3FE5D5D5D5D5D5D5#64⟩ ∧ t.bhat = 0b10#2 ∧ t.gaussIdx = 8#64 := by decide +kernel

/-- R254: the last step of a RUNPT, ber(1, 8) -/
theorem test_runpt_final :
    let t := ran .runpt { running 0x00B#64 .ptFinal [] with errcnt := 1#64, bitcnt := 8#64 }
    t.ber = 0x3FC0000000000000#64 ∧ t.state = .done ∧ t.phase = .none ∧ t.resultCount = 0#64 := by decide +kernel

/-- R261: a codeword of a point, with its CWDONE and its next phase, under TG -/
theorem test_runpt_codeword :
    let t := pointCodeword testGen (running 0x00B#64 .ptCw [])
    t.cwdone = 1#64 ∧ t.phase = .ptFinal ∧ t.bitcnt = 2#64 ∧ t.state = .busy := by decide +kernel

/-- V-SWEEP-1, point 0: SNR -5, and the move to point 1 at 0 mdB -/
theorem test_sweep_records :
    let t := ran .sweep { running 0x00C#64 .ptFinal [] with
      snrStart := BitVec.ofInt 32 (-5), snrEnd := 7#32, snrStep := 5#32, snrCur := BitVec.ofInt 32 (-5), p := 3, bitcnt := 2#64 }
    readWord t.result 0x1000 = 0xFFFFFFFFFFFFFFFB#64 ∧ readWord t.result 0x1018 = 2#64 ∧ t.resultCount = 1#64 ∧
    t.snrCur = 0#32 ∧ t.stream = 1#64 ∧ t.phase = .ptInit := by decide +kernel

/-- P5, row j = 0: an abort requested before SW_START lets it run, and the next step aborts -/
theorem test_sweep_abort :
    let t := ran .sweep { runningSweep .swStart [] with abortReq := true, resultCount := 3#64 }
    t.resultCount = 0#64 ∧ t.state = .busy ∧ (ran .sweep t).state = .aborted ∧ (ran .sweep t).intStatus = 1#3 := by decide +kernel

/-! ## The host's accesses -/

/-- E8: NBITS_ODD first -/
theorem test_issue_priority :
    let t := written [(0x040, 3#64), (0x048, 0#64), (0x060, 0#64), (0x018, 0x00C#64)]
    statusWord t = 0x020103#64 ∧ t.errInfo = 3#64 ∧ t.intStatus = 2#3 ∧ t.cmd = 0x00C#64 := by decide +kernel

/-- E12: P = 2^32 -/
theorem test_issue_too_many_points :
    let t := written [(0x040, 2#64), (0x050, 0x80000000#64), (0x058, 0x7FFFFFFF#64), (0x060, 1#64), (0x018, 0x00C#64)]
    statusWord t = 0x070103#64 ∧ t.errInfo = 0x100000000#64 := by decide +kernel

/-- E14: P = 256 is accepted -/
theorem test_issue_most_points :
    let t := written [(0x040, 2#64), (0x058, 2550#64), (0x060, 10#64), (0x018, 0x00C#64)]
    t.state = .busy ∧ t.p = 256 ∧ t.phase = .swStart := by decide +kernel

/-- P4: a command in ERROR is dropped; clear() leaves IDLE -/
theorem test_error_and_clear :
    let t := written [(0x040, 7#64), (0x018, 0x00C#64), (0x018, 0x00B#64)]
    statusWord t = 0x02010B#64 ∧ t.cmd = 0x00C#64 ∧ statusWord (memWrite 0x010 1#64 t) = 0#64 := by decide +kernel

/-- V-REG-2: a read of an SNR register is sign-extended -/
theorem test_snr_sign_extends :
    (memRead 0x050 (written [(0x050, 0x00000001FFFFFFFF#64)])).resp = some 0xFFFFFFFFFFFFFFFF#64 := by decide +kernel

/-- V-REG-4: a written 1 clears -/
theorem test_acknowledge : (memWrite 0x030 0b101#64 { State.reset with intStatus := 0b111#3 }).intStatus = 0b010#3 := by decide +kernel

/-- V-REG-8: dropped while BUSY -/
theorem test_busy_drop :
    (memWrite 0x040 9#64 (running 0x000#64 .none [])).nbits = 2#64 ∧ (memWrite 0x040 9#64 (running 0x000#64 .none [])).drop = true := by
  decide +kernel

/-- R50, R52: the offsets of the file elements the programs of section 4 use -/
theorem test_offsets :
    regOffset (.h (hIdx 1 0) .re) = some 0x300 ∧ regOffset (.y (slotIdx 0 1) .im) = some 0x618 ∧
    regAt 0x1050 = .result 2 2 ∧ regAt 0x0D0 = .reserved := by decide +kernel

/-- R118: WRC H[1][0] and WAIT -/
theorem test_expansions :
    encodeProgram (expand (.wrc (.h 1 0) 1#64 0#64)) = [.write 8 0x300 1#64, .write 8 0x308 0#64] ∧
    encodeProgram (expand .wait) = [.read 8 0x020] ∧
    encodeProgram (expand (.cmd (.enc true))) = [.write 8 0x018 0x103#64] := by decide +kernel

/-- R117: the same field name at its own place in each register (R35, R37), and none where the register's rule has no such field -/
theorem test_fields :
    fieldOf .intStatus .degen 0b100#64 = some 1#64 ∧ fieldOf .status .degen 0b100#64 = some 0#64 ∧
    fieldOf .cmd .norm 0x103#64 = some 1#64 ∧ fieldOf .cmd .opc 0x103#64 = some 3#64 ∧
    fieldOf .param .maxPoints Config.paramValue = some 256#64 ∧ fieldOf .bhat .bh2 0b10#64 = some 1#64 ∧
    fieldOf .nrx .state 1#64 = none := by decide +kernel

/-- R118: in a program of two WAITs each branch polls in its own loop -/
theorem test_two_waits :
    labelPos (expand .wait ++ expand .wait) 1 "Lw" = some 0 ∧ labelPos (expand .wait ++ expand .wait) 3 "Lw" = some 2 := by decide

/-- R119: a WAIT on a NOP whose core step comes before the second poll is two reads of STATUS, BUSY then DONE -/
theorem test_wait_run :
    (hostRun (expand .wait) [0, 0, 0, 1] 0 (running 0x000#64 .none [])).map (fun r => (r.log, r.pos)) =
      some ([(.read 8 0x020, some 1#64), (.read 8 0x020, some 2#64)], 2) := by decide +kernel

/-- R119, R117: BNE on INT_STATUS.DONE falls through when the bit is set -/
theorem test_bne_run :
    encodeRun [.label "L", .bne (.numeric 0x030) .done 1#64 "L", .rd (.named .ber)] [0, 0, 0, 1, 0] (running 0x000#64 .none []) =
      some [.read 8 0x030, .read 8 0x030, .read 8 0x0A8] := by decide +kernel

/-- R260: a placed command has DEGEN cleared -/
theorem test_placed_command :
    let t := ({ State.reset with degen := true } : State).withFetchWord 64 0x103
    t.degen = false ∧ t.cmd = 0x103#64 ∧ t.state = .busy ∧ t.events = [.core] := by decide +kernel

/-! ## The hypotheses of the statements can be met -/

theorem witness_DecodeAndEncodeAgree : (Instr.enc true).wellFormed = true ∧ decode 0x103#64 = .ok (.enc true) := by decide

theorem witness_LegalWordsAreThoseThatDecode :
    decode 0x00C#64 = .ok .sweep ∧ legal 0x00C#64 ∧ legal 0x103#64 ∧ ¬legal 0x00D#64 ∧ ¬legal 0x101#64 ∧ ¬legal 0x200#64 := by
  unfold legal; decide

theorem witness_CommandWordsDecodeToTheirRows : 0x0D ≤ 0x0D ∧ 0x0D ≤ 0xFF ∧ 0x0D ≤ 0xFF ∧ 0xFF ≤ 0xFF := by decide

theorem witness_StepRunsTheCommandInCmd :
    (running 0x103#64 .none []).state = .busy ∧ decode (running 0x103#64 .none []).cmd = .ok (.enc true) ∧
    (Instr.enc true).wellFormed = true ∧ (running 0x103#64 .none []).events = [] ∧
    (running 0x103#64 .none [.core, .reset]).state = .busy ∧
    (running 0x103#64 .none [.core, .reset]).events = .core :: [.reset] := by decide

theorem witness_CoreWaitsOutsideBusy :
    State.reset.state ≠ .busy ∧ State.reset.events = [] ∧ (turns [.core]).state ≠ .busy ∧ (turns [.core]).events = .core :: [] := by
  decide

theorem witness_ResetInputEntersTheResetState :
    (running 0x00B#64 .ptCw [.reset, .core]).events = .reset :: [.core] := by decide

/-- A RUNPT about to start its point is a legal state. -/
theorem inv_runpt (evs : List Event) : LegalState (running 0x00B#64 .ptInit evs) :=
  ⟨⟨rfl, by simp [running, State.reset]⟩, by simp [ErrorInv, running, State.reset],
    ⟨by simp [running, State.reset], fun _ => ⟨.runpt, (show decode 0x00B#64 = .ok .runpt by decide), by
      simp [RunningInv, NbitsInv, NrxInv, PointInv, running, State.reset, Config.rmax]⟩⟩,
    by simp [running, State.reset]⟩

/-- So is a SWEEP of one point, about to start and about to start that point. -/
theorem inv_sweep (ph : Phase) (h : ph = .swStart ∨ ph = .ptInit) (evs : List Event) : LegalState (runningSweep ph evs) :=
  ⟨⟨rfl, by simp [runningSweep, running, State.reset]⟩, by simp [ErrorInv, runningSweep, running, State.reset],
    ⟨by simp [runningSweep, running, State.reset], fun _ => ⟨.sweep, (show decode 0x00C#64 = .ok .sweep by decide), by
      rcases h with rfl | rfl <;>
        simp [RunningInv, NbitsInv, NrxInv, RangeInv, PointInv, SweepPointInv, pointCount, snrPoint, runningSweep, running, State.reset,
          Config.rmax, Config.maxPoints]⟩⟩,
    by simp [runningSweep, running, State.reset]⟩

theorem witness_StepKeepsTheInvariant :
    ∃ t, LegalState (running 0x00B#64 .ptInit []) ∧ step (running 0x00B#64 .ptInit []) = .next t ∧ t.phase = .ptCw :=
  ⟨_, inv_runpt [], rfl, rfl⟩

theorem witness_LegalStateStepsOn :
    LegalState (running 0x00B#64 .ptInit [.host (.write 8 0x3FF8 0#64)]) ∧
    NoBusError (running 0x00B#64 .ptInit [.host (.write 8 0x3FF8 0#64)]) :=
  ⟨inv_runpt _, fun a rest h => by
    simp only [running, List.cons.injEq, Event.host.injEq] at h
    rw [← h.1]; decide⟩

/-- A running NOP is a legal state, with INT_STATUS and DEGEN set or not. -/
theorem inv_nop (is : BitVec 3) (dg : Bool) : LegalState { running 0x000#64 .none [] with intStatus := is, degen := dg } :=
  ⟨⟨rfl, by simp [running, State.reset]⟩, by simp [ErrorInv, running, State.reset],
    ⟨by simp [running, State.reset], fun _ => ⟨.nop, (show decode 0x000#64 = .ok .nop by decide), by
      simp [RunningInv, running, State.reset]⟩⟩,
    by simp [running, State.reset]⟩

/-- A RUNPT and a SWEEP, the first steps of each. -/
theorem witness_CommandsWriteOnlyTheirRegisters :
    (∃ t, LegalState (running 0x00B#64 .ptInit []) ∧ (running 0x00B#64 .ptInit []).state = .busy ∧
      decode (running 0x00B#64 .ptInit []).cmd = .ok .runpt ∧ exec .runpt (running 0x00B#64 .ptInit []) = .next t) ∧
    ∃ t, LegalState (runningSweep .swStart []) ∧ (runningSweep .swStart []).state = .busy ∧
      decode (runningSweep .swStart []).cmd = .ok .sweep ∧ exec .sweep (runningSweep .swStart []) = .next t :=
  ⟨⟨_, inv_runpt [], rfl, by decide, rfl⟩, _, inv_sweep .swStart (.inl rfl) [], rfl, by decide, rfl⟩

/-- A command outside every row of R60, an antenna R leaves out at its boundary, an INT_STATUS bit and a DEGEN flag to keep. -/
theorem witness_CommandsWriteOnlyTheirRegisters_rows :
    let s := { running 0x000#64 .none [] with intStatus := 4#3, degen := true }
    (∃ t, LegalState s ∧ s.state = .busy ∧ decode s.cmd = .ok .nop ∧ exec .nop s = .next t) ∧
    (∀ row ∈ unitWrites, .nop ∉ row.1) ∧ runsPipeline .nop = false ∧ s.nrx.toNat ≤ (1 : Fin 16).val ∧
    s.intStatus.getLsbD 2 = true ∧ s.degen = true :=
  ⟨⟨_, inv_nop 4#3 true, rfl, by decide, rfl⟩, by simp [unitWrites], rfl, by decide, rfl, rfl⟩

theorem witness_RegisterMapIsOneToOne :
    regOffset (.result 255 3) = some 0x2FF8 ∧ regOffset .id = some 0x000 ∧ inReserved 0x3FF8 ∧ ¬inReserved 0x2FF8 := by
  unfold inReserved; decide

/-- An access as the one coming turn of the idle machine. -/
def reading (off : Nat) : State := turns [.host (.read 8 off)]

/-- A write as the one coming turn of the idle machine. -/
def writing (off : Nat) (v : Word) : State := turns [.host (.write 8 off v)]

theorem witness_FileElementsReadAtTheirOffsets :
    (reading 0x3F0).state ≠ .busy ∧ (reading 0x3F0).events = .host (.read 8 0x3F0) :: [] ∧
    0x3F0 = 0x200 + (16 * 1 + 15) * 16 ∧ 0x3F8 = 0x200 + (16 * 1 + 15) * 16 + 8 ∧ 0x400 = 0x400 + (2 * 0 + 0) * 16 ∧
    0x5F8 = 0x400 + (2 * 15 + 1) * 16 + 8 ∧ 0x600 = 0x600 + (2 * 0 + 0) * 16 ∧ 0x7F8 = 0x600 + (2 * 15 + 1) * 16 + 8 := by decide

/-- The two ends of the list of registers outside the files. -/
theorem witness_FileElementsReadAtTheirOffsets_registers :
    (0x010, fun _ : State => 0#64) ∈ idleReads ∧ (0x180, fun s : State => s.den) ∈ idleReads ∧
    (reading 0x180).state ≠ .busy ∧ (reading 0x180).events = .host (.read 8 0x180) :: [] :=
  ⟨by simp [idleReads], by simp [idleReads], by decide, by decide⟩

theorem witness_ExactReadsInEveryState :
    (reading 0x0B8).events = .host (.read 8 0x0B8) :: [] ∧ (0x0B8, fun s : State => s.resultCount) ∈ exactReads ∧
    0x2FF8 = 0x1000 + 32 * 255 + 8 * 3 ∧
    255 < ({ reading 0x2FF8 with resultCount := 256#64 } : State).resultCount.toNat :=
  ⟨by decide, by simp [exactReads], by decide, by decide⟩

theorem witness_UnspecifiedReadsReturnAFreeValue :
    (running 0x000#64 .none [.host (.read 8 0x7F8)]).events = .host (.read 8 0x7F8) :: [] ∧
    (running 0x000#64 .none [.host (.read 8 0x7F8)]).state = .busy ∧ inexactWhileBusy 0x7F8 ∧ inexactWhileBusy 0x010 ∧
    (reading 0x1000).events = .host (.read 8 0x1000) :: [] ∧ (reading 0x1000).resultCount.toNat ≤ (0x1000 - 0x1000) / 32 := by
  unfold inexactWhileBusy; decide

theorem witness_ReservedOffsetsReadZeroAndIgnoreWrites :
    inReserved 0x0D0 ∧ inReserved 0x188 ∧ inReserved 0xFF8 ∧ inReserved 0x3000 ∧
    (reading 0x0D0).events = .host (.read 8 0x0D0) :: [] ∧ (writing 0x0D0 5#64).events = .host (.write 8 0x0D0 5#64) :: [] := by
  unfold inReserved; decide

theorem witness_BadAccessGetsABusError :
    (4 ≠ 8 ∧ 0x004 % 8 ≠ 0 ∧ 0x4000 ≤ 0x4000) ∧ (turns [.host (.read 4 0x020)]).events = .host (.read 4 0x020) :: [] ∧
    (writing 0x4000 0#64).events = .host (.write 8 0x4000 0#64) :: [] := by decide

theorem witness_WritesWhileBusyAreDropped :
    (running 0x000#64 .none [.host (.write 8 0x018 1#64)]).state = .busy ∧
    (running 0x000#64 .none [.host (.write 8 0x018 1#64)]).events = .host (.write 8 0x018 1#64) :: [] ∧
    ¬inReserved 0x018 ∧ ¬inReserved 0x000 ∧ ¬inReserved 0x2FF8 := by unfold inReserved; decide

theorem witness_DataWritesAreStored :
    (writing 0x100 7#64).state ≠ .busy ∧ (writing 0x100 7#64).events = .host (.write 8 0x100 7#64) :: [] ∧ inData 0x100 ∧
    inData 0x178 ∧ inData 0x200 ∧ inData 0x7F8 ∧ (0x7F8 % 8 = 0 ∧ 0x3FF8 < 0x4000 ∧ 0x3FF8 ≠ 0x100) := by unfold inData; decide

theorem witness_ConfigurationWritesAreStored :
    (writing 0x068 7#64).state ≠ .busy ∧ (writing 0x068 7#64).events = .host (.write 8 0x068 7#64) :: [] := by decide

theorem witness_ReadOnlyWritesAreIgnored :
    (writing 0x090 5#64).state ≠ .busy ∧ (writing 0x090 5#64).events = .host (.write 8 0x090 5#64) :: [] ∧ inReadOnly 0x090 ∧
    inReadOnly 0x000 ∧ inReadOnly 0x2FF8 := by unfold inReadOnly; decide

theorem witness_InterruptRegisterWrites :
    (writing 0x030 7#64).events = .host (.write 8 0x030 7#64) :: [] ∧ (writing 0x038 7#64).events = .host (.write 8 0x038 7#64) :: [] ∧
    2 < 3 := by decide

theorem witness_CtrlClearsOrAborts :
    (writing 0x010 3#64).events = .host (.write 8 0x010 3#64) :: [] ∧
    (running 0x00B#64 .ptCw [.host (.write 8 0x010 3#64)]).events = .host (.write 8 0x010 3#64) :: [] := by decide

theorem witness_IllegalWordIsRejectedWithItsCause :
    takesCommands (writing 0x018 0x101#64) ∧ ¬legal 0x101#64 ∧ ¬legal 0x00D#64 ∧
    (writing 0x018 0x101#64).events = .host (.write 8 0x018 0x101#64) :: [] := by unfold takesCommands legal; decide

/-- Each cause is a first failure somewhere, at a boundary of its range. -/
theorem witness_InvalidInputIsRejectedAtIssue :
    takesCommands (writing 0x018 0x00C#64) ∧ decode 0x00C#64 = .ok .sweep ∧
    (writing 0x018 0x00C#64).events = .host (.write 8 0x018 0x00C#64) :: [] ∧
    firstFailure .sweep (writing 0x018 0x00C#64) = some (1, 0#64) ∧
    firstFailure .sweep { writing 0x018 0x00C#64 with nbits := 1#64 } = some (2, 1#64) ∧
    firstFailure .sweep { writing 0x018 0x00C#64 with nbits := 2#64, nrx := 0#64 } = some (3, 0#64) ∧
    firstFailure .sweep { writing 0x018 0x00C#64 with nbits := 2#64, nrx := 17#64 } = some (4, 17#64) ∧
    firstFailure .sweep { writing 0x018 0x00C#64 with nbits := 2#64, snrStep := 0#32 } = some (5, 0#64) ∧
    firstFailure .sweep { writing 0x018 0x00C#64 with nbits := 2#64, snrStart := 1#32 } = some (6, 1#64) ∧
    firstFailure .sweep { writing 0x018 0x00C#64 with nbits := 2#64, snrEnd := 256#32, snrStep := 1#32 } = some (7, 257#64) := by
  unfold takesCommands; decide +kernel

theorem witness_ValidCommandIsAccepted :
    takesCommands (writing 0x018 0x00C#64) ∧ decode 0x00C#64 = .ok .sweep ∧ decode 0x00B#64 = .ok .runpt ∧
    (writing 0x018 0x00C#64).events = .host (.write 8 0x018 0x00C#64) :: [] ∧
    firstFailure .sweep { writing 0x018 0x00C#64 with nbits := 2#64, nrx := 16#64, snrEnd := 255#32, snrStep := 1#32 } = none ∧
    firstFailure .runpt { writing 0x018 0x00B#64 with nbits := 2#64 } = none ∧
    firstFailure .det { writing 0x018 0x008#64 with nrx := 0#64 } = none := by unfold takesCommands; decide +kernel

theorem witness_CommandsInErrorAreDropped :
    ({ writing 0x018 0x00B#64 with state := .error } : State).state = .error ∧
    ({ writing 0x018 0x00B#64 with state := .error } : State).events = .host (.write 8 0x018 0x00B#64) :: [] := by decide

theorem witness_NopOnlyEnds :
    let s := turns [.host (.write 8 0x018 0x000#64), .core]
    s.state = .idle ∧ s.degen = false ∧ s.phase = .none ∧ s.abortReq = false ∧
    s.events = [.host (.write 8 0x018 0x000#64), .core] := by decide

/-- The two ends of the legal range of NRX, for DRAWH, DRAWN, CHAN and COMB. -/
theorem witness_DrawhDrawsTheCoefficients :
    1 ≤ State.reset.nrx.toNat ∧ State.reset.nrx.toNat ≤ 16 ∧ 1 ≤ (written [(0x048, 16#64)]).nrx.toNat ∧
    (written [(0x048, 16#64)]).nrx.toNat ≤ 16 := by decide +kernel

theorem witness_DrawnDrawsTheNoise : 1 ≤ (written [(0x048, 16#64)]).nrx.toNat ∧ (written [(0x048, 16#64)]).nrx.toNat ≤ 16 := by
  decide +kernel

theorem witness_ChanFormsTheReceivedSamples : 1 ≤ chanSetup.nrx.toNat ∧ chanSetup.nrx.toNat ≤ 16 := by decide +kernel

theorem witness_CombCombinesTheAntennas : 1 ≤ chanSetup.nrx.toNat ∧ chanSetup.nrx.toNat ≤ 16 ∧ 0 + 1 < chanSetup.nrx.toNat := by
  decide +kernel

theorem witness_RunptStepsThroughItsPhases :
    (running 0x00B#64 .ptInit []).abortReq = false ∧ (running 0x00B#64 .ptInit []).phase = .ptInit ∧
    (running 0x00B#64 .ptCw []).phase = .ptCw ∧ (running 0x00B#64 .ptFinal []).phase = .ptFinal := by decide

theorem witness_SweepStepsThroughItsPhases :
    (runningSweep .swStart []).phase = .swStart ∧ (runningSweep .ptInit []).abortReq = false ∧
    (runningSweep .ptInit []).phase = .ptInit ∧ (runningSweep .ptCw []).phase = .ptCw := by decide

theorem witness_SweepRecordsThePoint :
    Memory.wf (runningSweep .ptFinal []).result = true ∧ (runningSweep .ptFinal []).abortReq = false ∧
    (runningSweep .ptFinal []).phase = .ptFinal ∧ 0xFFF < 0x1000 + 32 * (runningSweep .ptFinal []).k := by decide

theorem witness_AbortEndsTheCommand :
    ({ running 0x00B#64 .ptCw [] with abortReq := true } : State).abortReq = true ∧
    ({ running 0x00B#64 .ptCw [] with abortReq := true } : State).phase ≠ .swStart := by decide

/-- A RUNPT of one codeword about to start its point. -/
theorem atPoint_runpt : atPoint (running 0x00B#64 .ptInit []) := ⟨inv_runpt [], rfl, rfl, rfl, rfl⟩

/-- A SWEEP of one point about to start it. -/
theorem atPoint_sweep : atPoint (runningSweep .ptInit []) := ⟨inv_sweep .ptInit (.inr rfl) [], rfl, rfl, rfl, rfl⟩

theorem witness_RunptTakesItsStepCount :
    atPoint (running 0x00B#64 .ptInit []) ∧ decode (running 0x00B#64 .ptInit []).cmd = .ok .runpt ∧
    0 < (running 0x00B#64 .ptInit []).nbits.toNat / 2 + 2 := ⟨atPoint_runpt, by decide, by decide⟩

theorem witness_SweepTakesItsStepCount :
    let s := runningSweep .swStart []
    LegalState s ∧ s.state = .busy ∧ s.phase = .swStart ∧ s.abortReq = false ∧ s.events = [] ∧ 0 < 1 + s.p * (s.nbits.toNat / 2 + 2) :=
  ⟨inv_sweep .swStart (.inl rfl) [], rfl, rfl, rfl, rfl, by decide⟩

theorem witness_PointResultsDependOnItsKeysOnly :
    let s := running 0x00B#64 .ptInit []
    let s' := runningSweep .ptInit []
    atPoint s ∧ atPoint s' ∧ s.seed = s'.seed ∧ s.stream = s'.stream ∧ s.snrCur = s'.snrCur ∧ s.nbits = s'.nbits ∧ s.nrx = s'.nrx :=
  ⟨atPoint_runpt, atPoint_sweep, rfl, rfl, rfl, rfl, rfl⟩

theorem witness_SumsRoundToNearestEven :
    finite 0x7FEFFFFFFFFFFFFF#64 ∧ finite 0x8000000000000000#64 ∧ valueOf 0x8000000000000000#64 + valueOf 0#64 = 0 ∧
    valueOf 0x8000000000000000#64 - valueOf 0#64 = 0 := by
  refine ⟨by unfold finite; decide, by unfold finite; decide, by simp [valueOf, expField, fracField], by simp [valueOf, expField, fracField]⟩

/-- An infinity beside the largest finite value, one of its own sign, and one of the other. -/
theorem witness_SumsRoundToNearestEven_infinite :
    infinite 0x7FF0000000000000#64 ∧ finite 0xFFEFFFFFFFFFFFFF#64 ∧ infinite 0xFFF0000000000000#64 ∧
    (0xFFF0000000000000#64 : F64).msb = (0xFFF0000000000000#64 : F64).msb ∧
    (0xFFF0000000000000#64 : F64).msb ≠ (0x7FF0000000000000#64 : F64).msb := by unfold infinite finite; decide

theorem witness_ProductsRoundToNearestEven :
    finite 0x7FEFFFFFFFFFFFFF#64 ∧ finite 0x0000000000000001#64 ∧ ¬isZero 0x0000000000000001#64 ∧ infinite 0x7FF0000000000000#64 ∧
    infinite 0xFFF0000000000000#64 := by unfold infinite finite; decide

theorem witness_QuotientsRoundToNearestEven :
    finite 0x7FEFFFFFFFFFFFFF#64 ∧ ¬isZero 0x7FEFFFFFFFFFFFFF#64 ∧ ¬isZero 0x0000000000000001#64 ∧ finite 0x0000000000000001#64 ∧
    isZero 0x8000000000000000#64 ∧ finite 0x8000000000000000#64 ∧ infinite 0xFFF0000000000000#64 := by unfold infinite finite; decide

theorem witness_SquareRootRoundsToNearestEven :
    isZero 0x8000000000000000#64 ∧ finite 0x0000000000000001#64 ∧ (0x0000000000000001#64 : F64).msb = false := by
  unfold finite; decide

/-- A NaN operand gives a NaN. -/
theorem witness_NaNsArisePreciselyAndAreQuiet : isNaN 0x7FF8000000000000#64 ∧ isNaN (fadd 0 0x7FF8000000000000#64 0#64) := by
  have h : fadd 0 0x7FF8000000000000#64 0#64 = quietNaN 0 := rfl
  have hm : ∀ (b : Bool) (x : BitVec 51), isNaN (BitVec.ofBool b ++ 0xFFF#12 ++ x) := by
    intro b x
    have hx := x.isLt
    have hn : (BitVec.ofBool b ++ 0xFFF#12 ++ x).toNat = (4096 * b.toNat + 4095) * 2 ^ 51 + x.toNat := by
      rw [BitVec.toNat_append, ← Nat.shiftLeft_add_eq_or_of_lt hx, Nat.shiftLeft_eq]
      cases b <;> rfl
    unfold isNaN expField fracField
    rw [BitVec.extractLsb'_toNat, BitVec.extractLsb'_toNat, hn, Nat.shiftRight_eq_div_pow, Nat.shiftRight_eq_div_pow]
    cases b <;> simp <;> omega
  exact ⟨by unfold isNaN; decide, h ▸ hm _ _⟩

/-- Both sides of the overflow: 10^1000 is above the largest finite value, 10^0 is not. -/
theorem witness_SigmaIsCorrectlyRounded :
    maxFinite < (10 : ℝ) ^ (-((BitVec.ofInt 32 (-20000000)).toInt : ℝ) / 20000) ∧
    (10 : ℝ) ^ (-((BitVec.ofInt 32 0).toInt : ℝ) / 20000) ≤ maxFinite := by
  constructor
  · rw [show (BitVec.ofInt 32 (-20000000)).toInt = -20000000 by decide]
    rw [show (-((-20000000 : ℤ) : ℝ) / 20000) = ((1000 : ℕ) : ℝ) by norm_num, Real.rpow_natCast]
    unfold maxFinite
    have h1 : (2 : ℝ) ^ 1024 ≤ 2 ^ 3000 := pow_le_pow_right₀ (by norm_num) (by norm_num)
    have h2 : (2 : ℝ) ^ 3000 ≤ 10 ^ 1000 := by
      rw [show (3000 : ℕ) = 3 * 1000 by norm_num, pow_mul]
      exact pow_le_pow_left₀ (by norm_num) (by norm_num) _
    have h3 : (0 : ℝ) < 2 ^ 971 := by positivity
    exact lt_of_lt_of_le (sub_lt_self _ h3) (h1.trans h2)
  · rw [show (BitVec.ofInt 32 0).toInt = 0 by decide]
    have h2 : maxFinite = (2 ^ 53 - 1) * 2 ^ 971 := by
      unfold maxFinite
      rw [show (1024 : ℕ) = 53 + 971 from rfl, pow_add, sub_mul, one_mul]
    rw [h2, Int.cast_zero, neg_zero, zero_div, Real.rpow_zero]
    exact one_le_mul_of_one_le_of_one_le (by norm_num) (one_le_pow₀ (by norm_num))

theorem witness_BerIsCorrectlyRounded :
    (0#64).toNat ≤ (1#64).toNat ∧ 0 < (1#64).toNat ∧ (0xFFFFFFFFFFFFFFFF#64).toNat ≤ (0xFFFFFFFFFFFFFFFF#64).toNat := by decide

theorem witness_EncRowsAreOrthogonal :
    ∃ t, exec (.enc true) { State.reset with s1 := ⟨0xBFF0000000000000#64, 0#64⟩, s2 := ⟨0x3FF0000000000000#64, 0#64⟩ } = .next t ∧
      finite (cmul 2 t.x00 (conj t.x10)).re ∧ finite (cmul 2 t.x00 (conj t.x10)).im :=
  ⟨_, rfl, by unfold finite; decide +kernel, by unfold finite; decide +kernel⟩

/-- A run of a WAIT that has ended. -/
theorem witness_WaitPollsUntilNotBusy :
    ∃ r, hostRun (expand .wait) [0, 0, 0, 1] 0 (running 0x000#64 .none []) = some r ∧ r.pos = 2 := ⟨_, rfl, rfl⟩

end Sys2Proof.Tests
end

section
/-! PROOFS. Binary64 patterns (R11): the fields of a pattern, its classes, and negation, through the magnitude pattern. -/

namespace Sys2Proof.Rounding
open Sys2Proof Sys2Proof.Machine Sys2Proof.Claims

/-- The magnitude pattern of a binary64 pattern: every bit but the sign. -/
def magOf (a : F64) : Nat := a.toNat % 2 ^ 63

theorem expField_eq (a : F64) : expField a = magOf a / 2 ^ 52 := by
  unfold expField magOf
  rw [BitVec.extractLsb'_toNat, Nat.shiftRight_eq_div_pow]
  omega

theorem fracField_eq (a : F64) : fracField a = magOf a % 2 ^ 52 := by
  unfold fracField magOf
  rw [BitVec.extractLsb'_toNat, Nat.shiftRight_eq_div_pow]
  omega

theorem finite_iff (a : F64) : finite a ↔ magOf a < infPattern := by
  have h : magOf a < 2 ^ 63 := Nat.mod_lt _ (by decide)
  rw [finite, expField_eq, infPattern_eq]
  omega

theorem infinite_iff (a : F64) : infinite a ↔ magOf a = infPattern := by
  rw [infinite, expField_eq, fracField_eq, infPattern_eq]
  omega

theorem isNaN_iff (a : F64) : isNaN a ↔ infPattern < magOf a := by
  have h : magOf a < 2 ^ 63 := Nat.mod_lt _ (by decide)
  rw [isNaN, expField_eq, fracField_eq, infPattern_eq]
  omega

theorem isZero_iff (a : F64) : isZero a ↔ magOf a = 0 := by
  rw [isZero, expField_eq, fracField_eq]
  omega

/-- A pattern is its sign bit and its magnitude pattern. -/
theorem toNat_eq (a : F64) : a.toNat = (if a.msb then 2 ^ 63 else 0) + magOf a := by
  have h := a.isLt
  rw [BitVec.msb_eq_decide, magOf]
  simp only [decide_eq_true_eq]
  split <;> omega

theorem fpack_msb_magOf (a : F64) : fpack a.msb (magOf a) = a := by
  apply BitVec.eq_of_toNat_eq
  have h := a.isLt
  rw [toNat_eq a] at h
  cases hs : a.msb <;> simp [fpack, hs, toNat_eq a] at h ⊢ <;> omega

@[simp] theorem magOf_fpack (neg : Bool) {p : Nat} (hp : p ≤ infPattern) : magOf (fpack neg p) = p := by
  rw [magOf, fpack_toNat neg p hp]
  rw [infPattern_eq] at hp
  cases neg <;> (simp; omega)

@[simp] theorem msb_fpack (neg : Bool) {p : Nat} (hp : p ≤ infPattern) : (fpack neg p).msb = neg := by
  rw [BitVec.msb_eq_decide, fpack_toNat neg p hp]
  rw [infPattern_eq] at hp
  cases neg
  · simp; omega
  · simp

theorem getLsbD_zero_fpack (neg : Bool) (p : Nat) : (fpack neg p).getLsbD 0 = decide (p % 2 = 1) := by
  cases neg <;> simp [fpack, BitVec.getLsbD, Nat.testBit_zero]; omega

/-- Two patterns with one sign bit and one magnitude pattern are one pattern. -/
theorem eq_fpack_of {a : F64} {neg : Bool} {p : Nat} (hs : a.msb = neg) (hp : magOf a = p) : a = fpack neg p := by
  rw [← hs, ← hp, fpack_msb_magOf]

theorem finf_false : finf false = 0x7FF0000000000000#64 := by decide

theorem finf_true : finf true = 0xFFF0000000000000#64 := by decide

/-! Negation. -/

theorem fneg_eq_flip (a : F64) : fneg a = Claims.flip a := by
  apply BitVec.eq_of_getLsbD_eq
  intro i hi
  have hbit : (0x8000000000000000#64).getLsbD i = decide (i = 63) := by
    rw [show (0x8000000000000000#64) = BitVec.twoPow 64 63 by decide, BitVec.getLsbD_twoPow]
    simp [eq_comm]
  rw [fneg, Claims.flip, BitVec.getLsbD_xor, hbit, BitVec.getLsbD_append]
  rcases Nat.lt_or_ge i 63 with h | h
  · simp [h, Nat.ne_of_lt h]
  · obtain rfl : i = 63 := by omega
    simp

@[simp] theorem msb_fneg (a : F64) : (fneg a).msb = !a.msb := by
  have h : (0x8000000000000000#64).msb = true := by decide
  rw [fneg, BitVec.msb_xor, h, Bool.xor_true]

@[simp] theorem magOf_fneg (a : F64) : magOf (fneg a) = magOf a := by
  have h : ∀ b : F64, magOf b = (b.extractLsb' 0 63).toNat := fun b => by simp [magOf]
  rw [h, h, fneg, BitVec.extractLsb'_xor]
  simp

theorem fneg_fpack (neg : Bool) {p : Nat} (hp : p ≤ infPattern) : fneg (fpack neg p) = fpack (!neg) p :=
  eq_fpack_of (by simp [hp]) (by simp [hp])

end Sys2Proof.Rounding
end

section
/-! PROOFS. Rounding magnitudes to nearest, ties to even (R12). Magnitude patterns and magnitudes rise together, so a rounding is fixed by
which midpoints of neighbours a value passes: `IsRounding`. `roundUnits` is shown to compute it. -/

namespace Sys2Proof.Rounding
open Sys2Proof Sys2Proof.Machine Sys2Proof.Claims

/-- The exponent of the unit in the last place of a magnitude pattern, counted from the subnormals'. -/
def ulpExp (c : Nat) : Nat := c / 2 ^ 52 - 1

/-- The whole significand of a magnitude pattern, hidden bit included. -/
def signif (c : Nat) : Nat := if c / 2 ^ 52 = 0 then c else 2 ^ 52 + c % 2 ^ 52

theorem ulpExp_signif (c : Nat) : ulpExp c * 2 ^ 52 + signif c = c := by
  unfold ulpExp signif
  split <;> omega

theorem signif_lt (c : Nat) : signif c < 2 ^ 53 := by
  unfold signif
  split <;> omega

theorem ulpExp_eq_zero_or (c : Nat) : ulpExp c = 0 ∨ 2 ^ 52 ≤ signif c := by
  unfold ulpExp signif
  split <;> omega

/-- A significand `q` and an exponent `k` give `q · 2^k` units, also when `q` is the first significand of the next binade: patterns of
successive magnitudes are successive numbers. -/
theorem unitsOf_mul_add (k q : Nat) (hq : q ≤ 2 ^ 53) (hk : k = 0 ∨ 2 ^ 52 ≤ q) : unitsOf (k * 2 ^ 52 + q) = q * 2 ^ k := by
  unfold unitsOf
  rcases Nat.lt_or_ge q (2 ^ 52) with hlt | hge
  · obtain rfl : k = 0 := by omega
    rw [if_pos (by omega)]
    simp
  · rcases Nat.lt_or_ge q (2 ^ 53) with hlt | hge'
    · rw [show (k * 2 ^ 52 + q) / 2 ^ 52 = k + 1 by omega, show (k * 2 ^ 52 + q) % 2 ^ 52 = q - 2 ^ 52 by omega,
        if_neg (by omega), Nat.add_sub_cancel' hge, Nat.add_sub_cancel]
    · obtain rfl : q = 2 ^ 53 := by omega
      rw [show (k * 2 ^ 52 + 2 ^ 53) / 2 ^ 52 = k + 2 by omega, show (k * 2 ^ 52 + 2 ^ 53) % 2 ^ 52 = 0 by omega,
        if_neg (by omega), show k + 2 - 1 = k + 1 by omega, pow_succ]
      ring

theorem unitsOf_eq (c : Nat) : unitsOf c = signif c * 2 ^ ulpExp c := by
  rw [← unitsOf_mul_add _ _ (signif_lt c).le (ulpExp_eq_zero_or c), ulpExp_signif]

theorem unitsOf_succ (c : Nat) : unitsOf (c + 1) = (signif c + 1) * 2 ^ ulpExp c := by
  have hk := ulpExp_eq_zero_or c
  rw [← unitsOf_mul_add _ (signif c + 1) (signif_lt c) (by omega), ← Nat.add_assoc, ulpExp_signif]

theorem unitsOf_strictMono : StrictMono unitsOf :=
  strictMono_nat_of_lt_succ fun c => by
    rw [unitsOf_succ, unitsOf_eq]
    exact Nat.mul_lt_mul_of_pos_right (Nat.lt_succ_self _) (Nat.two_pow_pos _)

@[simp] theorem unitsOf_zero : unitsOf 0 = 0 := rfl

theorem unitsOf_eq_zero_iff (p : Nat) : unitsOf p = 0 ↔ p = 0 :=
  unitsOf_strictMono.injective.eq_iff' unitsOf_zero

/-- The midpoint, in units, of the magnitudes of `c` and `c + 1`. -/
noncomputable def mid (c : Nat) : ℝ := ((unitsOf c : ℝ) + unitsOf (c + 1)) / 2

theorem mid_eq (c : Nat) : mid c = (2 * signif c + 1) * 2 ^ ulpExp c / 2 := by
  rw [mid, unitsOf_succ, unitsOf_eq]
  push_cast
  ring

theorem unitsOf_lt_mid (c : Nat) : (unitsOf c : ℝ) < mid c := by
  have h : (unitsOf c : ℝ) < unitsOf (c + 1) := by exact_mod_cast unitsOf_strictMono c.lt_succ_self
  rw [mid]; linarith

theorem mid_lt_unitsOf_succ (c : Nat) : mid c < unitsOf (c + 1) := by
  have h : (unitsOf c : ℝ) < unitsOf (c + 1) := by exact_mod_cast unitsOf_strictMono c.lt_succ_self
  rw [mid]; linarith

theorem unitsOf_le {c e : Nat} (h : c ≤ e) : (unitsOf c : ℝ) ≤ unitsOf e := by
  exact_mod_cast unitsOf_strictMono.monotone h

/-- x units round to a magnitude above that of `c`: past the midpoint, or on it with `c` odd (R12). -/
def passes (x : ℝ) (c : Nat) : Prop := mid c < x ∨ (mid c = x ∧ c % 2 = 1)

theorem passes_of_le {x : ℝ} {c e : Nat} (h : (unitsOf e : ℝ) ≤ x) (hc : c < e) : passes x c :=
  .inl ((mid_lt_unitsOf_succ c).trans_le ((unitsOf_le hc).trans h))

theorem not_passes_of_le {x : ℝ} {c e : Nat} (h : x ≤ unitsOf e) (hc : e ≤ c) : ¬ passes x c := by
  have hx : x < mid c := (h.trans (unitsOf_le hc)).trans_lt (unitsOf_lt_mid c)
  rintro (hlt | ⟨heq, -⟩)
  · exact lt_asymm hx hlt
  · exact hx.ne' heq

theorem le_mid_of_not_passes {x : ℝ} {c : Nat} (h : ¬ passes x c) : x ≤ mid c :=
  not_lt.1 fun hlt => h (.inl hlt)

theorem mid_le_of_passes {x : ℝ} {c : Nat} (h : passes x c) : mid c ≤ x :=
  h.elim le_of_lt fun h => h.1.le

/-- What passes a midpoint passes every smaller one. -/
theorem passes_of_passes {x : ℝ} {c e : Nat} (h : passes x e) (hc : c ≤ e) : passes x c := by
  rcases hc.eq_or_lt with rfl | hlt
  · exact h
  · exact passes_of_le ((unitsOf_lt_mid e).le.trans (mid_le_of_passes h)) hlt

/-- The magnitude pattern `p` is x units rounded to nearest, ties to even: x passes exactly the midpoints below it, as far as
the finite magnitudes go. -/
structure IsRounding (x : ℝ) (p : Nat) : Prop where
  le : p ≤ infPattern
  passes_iff : ∀ c < infPattern, (passes x c ↔ c < p)

theorem isRounding_of {x : ℝ} {p : Nat} (hp : p ≤ infPattern) (below : p = 0 ∨ passes x (p - 1))
    (above : p = infPattern ∨ ¬ passes x p) : IsRounding x p := by
  refine ⟨hp, fun c hc => ⟨fun h => ?_, fun h => ?_⟩⟩
  · by_contra hle
    rcases above with rfl | hn
    · exact hle hc
    · exact hn (passes_of_passes h (Nat.not_lt.1 hle))
  · rcases below with rfl | hpass
    · omega
    · exact passes_of_passes hpass (by omega)

theorem exists_isRounding (x : ℝ) : ∃ p, IsRounding x p := by
  classical
  have hex : ∃ p, p = infPattern ∨ ¬ passes x p := ⟨infPattern, .inl rfl⟩
  refine ⟨Nat.find hex, isRounding_of (Nat.find_le (.inl rfl)) ?_ (Nat.find_spec hex)⟩
  rcases Nat.eq_zero_or_pos (Nat.find hex) with h0 | hpos
  · exact .inl h0
  · have h := Nat.find_min hex (Nat.sub_lt hpos Nat.one_pos)
    exact .inr (not_not.1 (not_or.1 h).2)

theorem IsRounding.congr {x y : ℝ} {p : Nat} (h : IsRounding x p) (hxy : ∀ c < infPattern, (passes y c ↔ passes x c)) :
    IsRounding y p :=
  ⟨h.le, fun c hc => (hxy c hc).trans (h.passes_iff c hc)⟩

/-- An exact magnitude is its own rounding. -/
theorem isRounding_unitsOf {p : Nat} (hp : p ≤ infPattern) : IsRounding (unitsOf p) p :=
  ⟨hp, fun _ _ => ⟨fun h => by_contra fun hle => not_passes_of_le le_rfl (Nat.not_lt.1 hle) h, passes_of_le le_rfl⟩⟩

/-- A value between neighbours rounds to the upper one when it passes their midpoint, else to the lower one. -/
theorem isRounding_of_between {x : ℝ} {c up : Nat} (hlo : (unitsOf c : ℝ) ≤ x) (hhi : x ≤ unitsOf (c + 1))
    (hup : (passes x c ∧ up = 1) ∨ (¬ passes x c ∧ up = 0)) : IsRounding x (min (c + up) infPattern) := by
  refine ⟨Nat.min_le_right _ _, fun e he => ?_⟩
  rcases Nat.lt_trichotomy e c with hlt | rfl | hgt
  · exact iff_of_true (passes_of_le hlo hlt) (by omega)
  · rcases hup with ⟨hp, rfl⟩ | ⟨hp, rfl⟩
    · exact iff_of_true hp (by omega)
    · exact iff_of_false hp (by omega)
  · exact iff_of_false (not_passes_of_le hhi hgt) (by omega)

theorem roundUnits_exponent (m : Nat) : m / 2 ^ (Nat.log2 m - 52) < 2 ^ 53 ∧
    (Nat.log2 m - 52 = 0 ∨ 2 ^ 52 ≤ m / 2 ^ (Nat.log2 m - 52)) := by
  have hlt : m < 2 ^ (Nat.log2 m + 1) := Nat.lt_log2_self
  constructor
  · rw [Nat.div_lt_iff_lt_mul (Nat.two_pow_pos _), ← pow_add]
    exact hlt.trans_le (Nat.pow_le_pow_right (by decide) (by omega))
  · rcases Nat.eq_zero_or_pos (Nat.log2 m - 52) with h0 | hpos
    · exact .inl h0
    · have hm : m ≠ 0 := by rintro rfl; simp at hpos
      refine .inr ((Nat.le_div_iff_mul_le (Nat.two_pow_pos _)).2 ?_)
      rw [← pow_add, Nat.add_sub_cancel' (by omega)]
      exact Nat.log2_self_le hm

/-- `roundUnits n d` is the rounding of n / d units. -/
theorem isRounding_roundUnits (n : Nat) {d : Nat} (hd : 0 < d) : IsRounding ((n : ℝ) / d) (roundUnits n d) := by
  obtain ⟨hq, hk⟩ := roundUnits_exponent (n / d)
  unfold roundUnits
  dsimp only
  generalize Nat.log2 (n / d) - 52 = k at hq hk ⊢
  rw [Nat.div_div_eq_div_mul] at hq hk
  have hulp : 0 < d * 2 ^ k := Nat.mul_pos hd (Nat.two_pow_pos k)
  have hn := Nat.div_add_mod n (d * 2 ^ k)
  have hr := Nat.mod_lt n hulp
  generalize n / (d * 2 ^ k) = q at *
  generalize n % (d * 2 ^ k) = r at *
  have hd' : (0 : ℝ) < d := by exact_mod_cast hd
  have hunits : unitsOf (k * 2 ^ 52 + q) = q * 2 ^ k := unitsOf_mul_add k q hq.le hk
  have hsucc : unitsOf (k * 2 ^ 52 + q + 1) = (q + 1) * 2 ^ k := by
    rw [Nat.add_assoc, unitsOf_mul_add k (q + 1) hq (by omega)]
  have hmid : mid (k * 2 ^ 52 + q) < (n : ℝ) / d ↔ d * 2 ^ k < 2 * r := by
    rw [mid, hunits, hsucc, lt_div_iff₀ hd', ← hn, ← @Nat.cast_lt ℝ]
    push_cast
    constructor <;> intro h <;> linarith
  have hmid' : mid (k * 2 ^ 52 + q) = (n : ℝ) / d ↔ 2 * r = d * 2 ^ k := by
    rw [mid, hunits, hsucc, eq_div_iff hd'.ne', ← hn, ← @Nat.cast_inj ℝ]
    push_cast
    constructor <;> intro h <;> linarith
  have hodd : (k * 2 ^ 52 + q) % 2 = q % 2 := by omega
  apply isRounding_of_between
  · rw [hunits, le_div_iff₀ hd', ← hn]
    push_cast
    nlinarith [(Nat.cast_nonneg r : (0 : ℝ) ≤ r)]
  · rw [hsucc, div_le_iff₀ hd']
    have hle : n ≤ (q + 1) * 2 ^ k * d := by rw [← hn]; nlinarith
    exact_mod_cast hle
  · rw [passes, hmid, hmid', hodd]
    split_ifs <;> omega

end Sys2Proof.Rounding
end

section
/-! PROOFS. From `IsRounding` to the statements' words: the value of a pattern, the nearest finite value, and overflow (R11, R12). -/

namespace Sys2Proof.Rounding
open Sys2Proof Sys2Proof.Machine Sys2Proof.Claims

/-- The smallest subnormal magnitude, the unit of `unitsOf` (R11). -/
noncomputable def unit : ℝ := 2 ^ (-1074 : ℤ)

theorem unit_pos : 0 < unit := by unfold unit; positivity

theorem two_pow_mul_unit : (2 : ℝ) ^ 1074 * unit = 1 := by
  rw [unit, ← zpow_natCast, ← zpow_add₀ two_ne_zero]
  rfl

/-- The sign a sign bit stands for. -/
def sgn (neg : Bool) : ℝ := if neg then -1 else 1

@[simp] theorem sgn_false : sgn false = 1 := rfl

@[simp] theorem sgn_true : sgn true = -1 := rfl

theorem sgn_xor (s t : Bool) : sgn (s ^^ t) = sgn s * sgn t := by cases s <;> cases t <;> simp

theorem sgn_not (s : Bool) : sgn (!s) = -sgn s := by cases s <;> simp

theorem sgn_ne_zero (s : Bool) : sgn s ≠ 0 := by cases s <;> simp

/-- The value of a pattern is its signed count of units. -/
theorem valueOf_eq (a : F64) : (valueOf a : ℝ) = sgn a.msb * unitsOf (magOf a) * unit := by
  have hfrac : ((if expField a = 0 then (fracField a : ℚ) * 2 ^ (-1074 : ℤ)
      else (2 ^ 52 + (fracField a : ℚ)) * 2 ^ ((expField a : ℤ) - 1075) : ℚ) : ℝ) = unitsOf (magOf a) * unit := by
    rw [expField_eq, fracField_eq, unitsOf, unit]
    split
    · rw [Nat.mod_eq_of_lt (by omega)]
      simp only [Rat.cast_mul, Rat.cast_natCast, Rat.cast_zpow, Rat.cast_ofNat]
    · rw [show ((magOf a / 2 ^ 52 : ℕ) : ℤ) - 1075 = ((magOf a / 2 ^ 52 - 1 : ℕ) : ℤ) + (-1074) by omega]
      simp only [Rat.cast_mul, Rat.cast_add, Rat.cast_natCast, Rat.cast_zpow, Rat.cast_pow, Rat.cast_ofNat, Nat.cast_mul, Nat.cast_add,
        Nat.cast_pow, Nat.cast_ofNat]
      rw [zpow_add₀ two_ne_zero, zpow_natCast, mul_assoc]
  rw [valueOf, Rat.cast_mul, hfrac, sgn, ← mul_assoc]
  split <;> simp

theorem valueOf_fpack (neg : Bool) {p : Nat} (hp : p ≤ infPattern) :
    (valueOf (fpack neg p) : ℝ) = sgn neg * unitsOf p * unit := by
  rw [valueOf_eq, msb_fpack neg hp, magOf_fpack neg hp]

theorem valueOf_fneg (a : F64) : valueOf (fneg a) = -valueOf a := by
  have h : (valueOf (fneg a) : ℝ) = -valueOf a := by
    rw [valueOf_eq, valueOf_eq, msb_fneg, magOf_fneg, sgn_not]
    ring
  exact_mod_cast h

theorem finite_fneg (a : F64) : finite (fneg a) ↔ finite a := by rw [finite_iff, finite_iff, magOf_fneg]

/-! From midpoints to the nearest value. -/

theorem abs_sub_upper_le_iff {a b x : ℝ} (h : a < b) : |x - b| ≤ |x - a| ↔ a + b ≤ 2 * x := by
  rw [← sq_le_sq]
  constructor <;> intro hx <;> nlinarith

theorem abs_sub_lower_le_iff {a b x : ℝ} (h : a < b) : |x - a| ≤ |x - b| ↔ 2 * x ≤ a + b := by
  rw [← sq_le_sq]
  constructor <;> intro hx <;> nlinarith

theorem abs_sub_eq_iff {a b x : ℝ} (h : a < b) : |x - a| = |x - b| ↔ 2 * x = a + b := by
  rw [le_antisymm_iff, abs_sub_lower_le_iff h, abs_sub_upper_le_iff h, ← le_antisymm_iff]

/-- No finite magnitude is nearer to x than its rounding, and one as near leaves the rounding even. -/
theorem IsRounding.nearest {x : ℝ} {p : Nat} (h : IsRounding x p) (hp : p < infPattern) (c : Nat) :
    |x - unitsOf p| ≤ |x - unitsOf c| ∧ (|x - unitsOf p| = |x - unitsOf c| → c ≠ p → p % 2 = 0) := by
  rcases Nat.lt_trichotomy c p with hlt | rfl | hgt
  · have hpass := (h.passes_iff (p - 1) (by omega)).2 (by omega)
    have hlt' : (unitsOf c : ℝ) < unitsOf p := by exact_mod_cast unitsOf_strictMono hlt
    have hle : (unitsOf c : ℝ) ≤ unitsOf (p - 1) := unitsOf_le (by omega)
    have hmid : mid (p - 1) = (unitsOf (p - 1) + unitsOf p) / 2 := by rw [mid, show p - 1 + 1 = p by omega]
    rw [abs_sub_upper_le_iff hlt', eq_comm, abs_sub_eq_iff hlt']
    refine ⟨by linarith [mid_le_of_passes hpass], fun heq _ => ?_⟩
    rcases hpass with hx | ⟨-, hodd⟩
    · linarith
    · omega
  · exact ⟨le_rfl, fun _ hne => absurd rfl hne⟩
  · have hpass := mt (h.passes_iff p hp).1 (lt_irrefl p)
    have hlt' : (unitsOf p : ℝ) < unitsOf c := by exact_mod_cast unitsOf_strictMono hgt
    have hle : (unitsOf (p + 1) : ℝ) ≤ unitsOf c := unitsOf_le hgt
    have hmid := le_mid_of_not_passes hpass
    rw [abs_sub_lower_le_iff hlt', abs_sub_eq_iff hlt']
    refine ⟨by rw [mid] at hmid; linarith, fun heq _ => ?_⟩
    have hx : mid p = x := le_antisymm (by rw [mid]; linarith) hmid
    by_contra hodd
    exact hpass (.inr ⟨hx, by omega⟩)

/-- The signed magnitudes are no nearer either: for x not negative, a negative one is beaten by 0. -/
theorem IsRounding.nearest_signed {x : ℝ} {p : Nat} (hx : 0 ≤ x) (h : IsRounding x p) (hp : p < infPattern) (c : Nat)
    (neg : Bool) :
    |x - unitsOf p| ≤ |x - sgn neg * unitsOf c| ∧
      (|x - unitsOf p| = |x - sgn neg * unitsOf c| → sgn neg * (unitsOf c : ℝ) ≠ unitsOf p → p % 2 = 0) := by
  obtain ⟨hle, htie⟩ := h.nearest hp c
  cases neg with
  | false =>
    simp only [sgn_false, one_mul]
    exact ⟨hle, fun heq hne => htie heq (by rintro rfl; exact hne rfl)⟩
  | true =>
    obtain ⟨hle0, htie0⟩ := h.nearest hp 0
    have hu : (0 : ℝ) ≤ unitsOf c := Nat.cast_nonneg _
    simp only [sgn_true, neg_one_mul, sub_neg_eq_add, unitsOf_zero, Nat.cast_zero, sub_zero, abs_of_nonneg hx,
      abs_of_nonneg (add_nonneg hx hu)] at hle0 htie0 ⊢
    refine ⟨by linarith, fun heq hne => htie0 (by linarith) ?_⟩
    rintro rfl
    have hc0 : (unitsOf c : ℝ) = 0 := by linarith
    exact hne (by simp [hc0])

/-- The rounding of x units, packed, is the finite value nearest to them. -/
theorem IsRounding.nearestEven {x : ℝ} {p : Nat} (hx : 0 ≤ x) (h : IsRounding x p) (hp : p < infPattern) :
    nearestEven (x * unit) (fpack false p) := by
  have hr : (valueOf (fpack false p) : ℝ) = unitsOf p * unit := by rw [valueOf_fpack false hp.le, sgn_false, one_mul]
  have hscale : ∀ y : ℝ, |x * unit - y * unit| = |x - y| * unit := fun y => by
    rw [← sub_mul, abs_mul, abs_of_pos unit_pos]
  refine ⟨by rwa [finite_iff, magOf_fpack false hp.le], fun b _ => ?_, fun b _ heq hne => ?_⟩ <;>
    obtain ⟨hle, htie⟩ := h.nearest_signed hx hp (magOf b) b.msb
  · rw [hr, valueOf_eq, hscale, hscale]
    exact mul_le_mul_of_nonneg_right hle unit_pos.le
  · rw [hr, valueOf_eq, hscale, hscale] at heq
    have hne' : (valueOf b : ℝ) ≠ valueOf (fpack false p) := by exact_mod_cast hne
    rw [hr, valueOf_eq] at hne'
    have heven := htie (mul_right_cancel₀ unit_pos.ne' heq) fun he => hne' (by rw [he])
    rw [getLsbD_zero_fpack, heven]
    rfl

theorem getLsbD_zero_fneg (a : F64) : (fneg a).getLsbD 0 = a.getLsbD 0 := by
  simp [fneg]

theorem nearestEven_neg {x : ℝ} {r : F64} (h : Claims.nearestEven x r) : Claims.nearestEven (-x) (fneg r) := by
  obtain ⟨hfin, hnear, htie⟩ := h
  have hdist : ∀ a : F64, |-x - (valueOf a : ℝ)| = |x - (valueOf (fneg a) : ℝ)| := fun a => by
    rw [valueOf_fneg, Rat.cast_neg, ← abs_neg]
    congr 1
    ring
  refine ⟨(finite_fneg r).2 hfin, fun b hb => ?_, fun b hb heq hne => ?_⟩
  · rw [hdist, hdist, fneg_fneg]
    exact hnear _ ((finite_fneg b).2 hb)
  · rw [hdist, hdist, fneg_fneg] at heq
    rw [getLsbD_zero_fneg]
    refine htie _ ((finite_fneg b).2 hb) heq ?_
    rw [valueOf_fneg] at hne ⊢
    exact fun he => hne (by rw [← he, neg_neg])

/-! Overflow. -/

/-- Half a unit in the last place above the largest finite value, in units: the last midpoint (R12). -/
theorem mid_last : mid (infPattern - 1) = (2 ^ 54 - 1) * 2 ^ 2044 := by
  rw [mid_eq, show signif (infPattern - 1) = 2 ^ 53 - 1 by decide, show ulpExp (infPattern - 1) = 2044 + 1 by decide,
    pow_succ (2 : ℝ) 2044, ← mul_assoc, mul_div_cancel_right₀ _ two_ne_zero]
  congr 1
  norm_num

theorem overflow_bound : (2 : ℝ) ^ 1024 - 2 ^ 970 = mid (infPattern - 1) * unit := by
  have h : (2 : ℝ) ^ 2044 * unit = 2 ^ 970 := by
    rw [show 2044 = 970 + 1074 from rfl, pow_add, mul_assoc, two_pow_mul_unit, mul_one]
  rw [mid_last, mul_assoc, h, show 1024 = 54 + 970 from rfl, pow_add, sub_mul, one_mul]

/-- A rounding stays finite exactly below the last midpoint; on it, ties to even goes up. -/
theorem IsRounding.lt_iff {x : ℝ} {p : Nat} (h : IsRounding x p) : p < infPattern ↔ x < mid (infPattern - 1) := by
  have hlast := h.passes_iff (infPattern - 1) (by decide)
  have hle := h.le
  have hpass : passes x (infPattern - 1) ↔ mid (infPattern - 1) ≤ x := by
    rw [passes, le_iff_lt_or_eq, and_iff_left (by decide)]
  rw [← @not_le _ _ (mid (infPattern - 1)) x, ← hpass, hlast]
  rw [infPattern_eq] at *
  omega

theorem IsRounding.roundsTo {x : ℝ} {p : Nat} (hx : 0 ≤ x) (h : IsRounding x p) (neg : Bool) :
    roundsTo (sgn neg * x * unit) (fpack neg p) := by
  have hu := unit_pos
  have habs : |sgn neg * x * unit| = x * unit := by
    rw [abs_mul, abs_mul, abs_of_pos hu, abs_of_nonneg hx]
    cases neg <;> simp
  have hxu : 0 ≤ x * unit := mul_nonneg hx hu.le
  have hbound : 0 < mid (infPattern - 1) * unit := mul_pos (by rw [mid_last]; positivity) hu
  have hinf : mid (infPattern - 1) * unit ≤ x * unit → p = infPattern := fun hle =>
    h.le.antisymm (not_lt.1 (mt h.lt_iff.1 (not_lt.2 (le_of_mul_le_mul_right hle hu))))
  rw [Claims.roundsTo, overflow_bound, habs]
  refine ⟨fun hlt => ?_, fun hle => ?_, fun hle => ?_⟩
  · have hp := h.lt_iff.2 (lt_of_mul_lt_mul_right hlt hu.le)
    cases neg with
    | false => simpa using h.nearestEven hx hp
    | true => simpa [fneg_fpack _ hp.le] using nearestEven_neg (h.nearestEven hx hp)
  · cases neg with
    | false => rw [hinf (by simpa using hle), ← finf_false, finf]
    | true => simp at hle; linarith
  · cases neg with
    | false => simp at hle; linarith
    | true => rw [hinf (by simpa using hle), ← finf_true, finf]

end Sys2Proof.Rounding
end

section
/-! PROOFS. Sums, differences, products and quotients are rounded exact results (R12). -/

namespace Sys2Proof.Rounding
open Sys2Proof Sys2Proof.Machine Sys2Proof.Claims

/-! The classes of patterns and what the operations see of them. -/

theorem fview_of_isNaN {a : F64} (h : isNaN a) : fview a = .nan :=
  if_pos ((isNaN_iff a).1 h)

theorem fview_of_infinite {a : F64} (h : infinite a) : fview a = .inf a.msb := by
  have hm := (infinite_iff a).1 h
  exact (if_neg (not_lt.2 hm.le)).trans (if_pos hm)

theorem fview_of_finite {a : F64} (h : finite a) : fview a = .fin a.msb (unitsOf (magOf a)) := by
  have hm := (finite_iff a).1 h
  exact (if_neg (not_lt.2 hm.le)).trans (if_neg hm.ne)

/-- Every pattern is a NaN, an infinity or finite. -/
theorem class_cases (a : F64) : isNaN a ∨ infinite a ∨ finite a := by
  rw [isNaN_iff, infinite_iff, finite_iff]
  omega

theorem infinite_fneg (a : F64) : infinite (fneg a) ↔ infinite a := by rw [infinite_iff, infinite_iff, magOf_fneg]

theorem isNaN_fneg (a : F64) : isNaN (fneg a) ↔ isNaN a := by rw [isNaN_iff, isNaN_iff, magOf_fneg]

theorem eq_finf_of_infinite {a : F64} (h : infinite a) : finf a.msb = a :=
  (eq_fpack_of rfl ((infinite_iff a).1 h)).symm

@[simp] theorem infinite_finf (neg : Bool) : infinite (finf neg) := by
  rw [infinite_iff, finf, magOf_fpack neg le_rfl]

@[simp] theorem msb_finf (neg : Bool) : (finf neg).msb = neg := msb_fpack neg le_rfl

@[simp] theorem msb_roundSigned (neg : Bool) (n d : Nat) : (roundSigned neg n d).msb = neg :=
  msb_fpack neg (roundUnits_le n d)

theorem units_ne_zero {a : F64} (h : ¬ isZero a) : unitsOf (magOf a) ≠ 0 := by
  rwa [Ne, unitsOf_eq_zero_iff, ← isZero_iff]

theorem units_eq_zero {a : F64} (h : isZero a) : unitsOf (magOf a) = 0 := by
  rwa [unitsOf_eq_zero_iff, ← isZero_iff]

theorem finite_of_isZero {a : F64} (h : isZero a) : finite a := by
  rw [finite_iff, (isZero_iff a).1 h]
  decide

/-- A signed quotient of units is rounded to nearest, ties to even, and overflows to the infinity of its sign. -/
theorem roundSigned_roundsTo (neg : Bool) (n : Nat) {d : Nat} (hd : 0 < d) :
    roundsTo (sgn neg * ((n : ℝ) / d) * unit) (roundSigned neg n d) :=
  (isRounding_roundUnits n hd).roundsTo (by positivity) neg

theorem roundSigned_zero (neg : Bool) : roundSigned neg 0 1 = if neg then 0x8000000000000000#64 else 0#64 := by
  cases neg <;> decide

/-! Sums and differences. -/

theorem fadd_of_finite (d : Nat) {a b : F64} (ha : finite a) (hb : finite b) :
    fadd d a b = addUnits a.msb (unitsOf (magOf a)) b.msb (unitsOf (magOf b)) := by
  rw [fadd, fview_of_finite ha, fview_of_finite hb]

theorem addUnits_roundsTo (s : Bool) (m : Nat) (t : Bool) (n : Nat) :
    roundsTo ((sgn s * m + sgn t * n) * unit) (addUnits s m t n) := by
  have hone : ∀ (neg : Bool) (k : Nat), roundsTo (sgn neg * k * unit) (roundSigned neg k 1) := fun neg k => by
    simpa using roundSigned_roundsTo neg k Nat.one_pos
  rw [addUnits]
  split_ifs with hst hmn hlt
  · subst hst
    simpa [mul_add] using hone s (m + n)
  all_goals obtain rfl : t = !s := by cases s <;> cases t <;> simp_all
  · subst hmn
    simpa [sgn_not, roundSigned_zero, fzero] using hone false 0
  · have h := hone s (m - n)
    rw [Nat.cast_sub hlt.le] at h
    convert h using 2
    rw [sgn_not]
    ring
  · have h := hone (!s) (n - m)
    rw [Nat.cast_sub (by omega)] at h
    convert h using 2
    rw [sgn_not]
    ring

theorem fadd_roundsTo (d : Nat) {a b : F64} (ha : finite a) (hb : finite b) :
    roundsTo ((valueOf a : ℝ) + valueOf b) (fadd d a b) := by
  rw [fadd_of_finite d ha hb, valueOf_eq, valueOf_eq, ← add_mul]
  exact addUnits_roundsTo _ _ _ _

/-- An exact zero sum is +0.0 unless both operands are negative. -/
theorem fadd_of_sum_eq_zero (d : Nat) {a b : F64} (ha : finite a) (hb : finite b) (h : valueOf a + valueOf b = 0) :
    fadd d a b = if a.msb = true ∧ b.msb = true then 0x8000000000000000#64 else 0#64 := by
  have hsum : sgn a.msb * unitsOf (magOf a) + sgn b.msb * (unitsOf (magOf b) : ℝ) = 0 := by
    have hr : (valueOf a : ℝ) + valueOf b = 0 := by exact_mod_cast h
    rw [valueOf_eq, valueOf_eq, ← add_mul] at hr
    exact (mul_eq_zero.1 hr).resolve_right unit_pos.ne'
  rw [fadd_of_finite d ha hb, addUnits]
  generalize unitsOf (magOf a) = m at hsum ⊢
  generalize unitsOf (magOf b) = n at hsum ⊢
  by_cases hs : a.msb = b.msb
  · rw [if_pos hs]
    rw [hs, ← mul_add, mul_eq_zero, or_iff_right (sgn_ne_zero _)] at hsum
    have hmn : m + n = 0 := by exact_mod_cast hsum
    rw [hmn, roundSigned_zero]
    simp [hs]
  · have hsgn : sgn b.msb = -sgn a.msb := by
      rw [← sgn_not]
      congr 1
      cases ha' : a.msb <;> cases hb' : b.msb <;> simp_all
    rw [hsgn, neg_mul, ← sub_eq_add_neg, ← mul_sub, mul_eq_zero, or_iff_right (sgn_ne_zero _), sub_eq_zero] at hsum
    rw [if_neg hs, if_pos (by exact_mod_cast hsum), if_neg (fun h => hs (h.1.trans h.2.symm)), fzero]

theorem fadd_of_infinite_left (d : Nat) {a b : F64} (ha : infinite a) (hb : finite b ∨ (infinite b ∧ b.msb = a.msb)) :
    fadd d a b = a := by
  rcases hb with hb | ⟨hb, hs⟩
  · rw [fadd, fview_of_infinite ha, fview_of_finite hb]
    exact eq_finf_of_infinite ha
  · rw [fadd, fview_of_infinite ha, fview_of_infinite hb]
    exact (if_pos hs.symm).trans (eq_finf_of_infinite ha)

theorem fadd_of_infinite_right (d : Nat) {a b : F64} (ha : finite a) (hb : infinite b) : fadd d a b = b := by
  rw [fadd, fview_of_finite ha, fview_of_infinite hb]
  exact eq_finf_of_infinite hb

theorem fsub_eq (d : Nat) (a b : F64) : fsub d a b = fadd d a (fneg b) := rfl

/-- Settles O49: fsub is fadd with the second operand's sign flipped, so each clause about it is fadd's. -/
theorem sumsRoundToNearestEven : Obligations.SumsRoundToNearestEven := by
  intro d a b
  refine ⟨fun ha hb => ⟨fadd_roundsTo d ha hb, ?_, fadd_of_sum_eq_zero d ha hb, fun h => ?_⟩,
    fadd_of_infinite_left d, fadd_of_infinite_right d, fun ha hb => ?_, fun ha hb => ?_⟩
  · rw [sub_eq_add_neg, ← Rat.cast_neg, ← valueOf_fneg]
    exact fadd_roundsTo d ha ((finite_fneg b).2 hb)
  · rw [sub_eq_add_neg, ← valueOf_fneg] at h
    simpa [fsub_eq] using fadd_of_sum_eq_zero d ha ((finite_fneg b).2 hb) h
  · refine fadd_of_infinite_left d ha ?_
    rw [finite_fneg, infinite_fneg, msb_fneg]
    exact hb.imp_right fun ⟨hi, hs⟩ => ⟨hi, Bool.not_eq_eq_eq_not.2 (Bool.eq_not.2 hs)⟩
  · rw [← fneg_eq_flip]
    exact fadd_of_infinite_right d ha ((infinite_fneg b).2 hb)

/-! Products. -/

theorem fmul_of_finite (d : Nat) {a b : F64} (ha : finite a) (hb : finite b) :
    fmul d a b = roundSigned (a.msb ^^ b.msb) (unitsOf (magOf a) * unitsOf (magOf b)) (2 ^ 1074) := by
  rw [fmul, fview_of_finite ha, fview_of_finite hb]

/-- Multiplying two counts of units of 2^-1074 leaves one factor 2^-1074 over. -/
theorem fmul_roundsTo (d : Nat) {a b : F64} (ha : finite a) (hb : finite b) :
    roundsTo ((valueOf a : ℝ) * valueOf b) (fmul d a b) := by
  have hx : (valueOf a : ℝ) * valueOf b =
      sgn (a.msb ^^ b.msb) * (((unitsOf (magOf a) * unitsOf (magOf b) : ℕ) : ℝ) / (2 ^ 1074 : ℕ)) * unit := by
    rw [valueOf_eq, valueOf_eq, sgn_xor, Nat.cast_mul, Nat.cast_pow, Nat.cast_ofNat,
      div_eq_mul_inv, ← eq_inv_of_mul_eq_one_right two_pow_mul_unit]
    ring
  rw [fmul_of_finite d ha hb, hx]
  exact roundSigned_roundsTo _ _ (pow_pos two_pos _)

theorem fmul_of_infinite (d : Nat) {a b : F64}
    (h : (infinite a ∧ infinite b) ∨ (infinite a ∧ finite b ∧ ¬isZero b) ∨ (finite a ∧ ¬isZero a ∧ infinite b)) :
    fmul d a b = finf (a.msb ^^ b.msb) := by
  rcases h with ⟨ha, hb⟩ | ⟨ha, hb, hz⟩ | ⟨ha, hz, hb⟩
  · rw [fmul, fview_of_infinite ha, fview_of_infinite hb]
  · rw [fmul, fview_of_infinite ha, fview_of_finite hb]
    exact if_neg (units_ne_zero hz)
  · rw [fmul, fview_of_finite ha, fview_of_infinite hb]
    exact if_neg (units_ne_zero hz)

/-- Settles O50: a finite product is one `roundSigned`, and every other one of the clauses is an infinity. -/
theorem productsRoundToNearestEven : Obligations.ProductsRoundToNearestEven := by
  intro d a b
  refine ⟨fun ha hb => ⟨fmul_roundsTo d ha hb, ?_⟩, fun h => ?_⟩
  · rw [fmul_of_finite d ha hb, msb_roundSigned]
  · rw [fmul_of_infinite d h]
    exact ⟨infinite_finf _, msb_finf _⟩

/-! Quotients. -/

theorem fdiv_of_finite (d : Nat) {a b : F64} (ha : finite a) (hb : finite b) (hz : ¬ isZero b) :
    fdiv d a b = roundSigned (a.msb ^^ b.msb) (unitsOf (magOf a) * 2 ^ 1074) (unitsOf (magOf b)) := by
  rw [fdiv, fview_of_finite ha, fview_of_finite hb]
  exact if_neg (units_ne_zero hz)

/-- The quotient of two counts of units is a plain number, 2^1074 times as many units. -/
theorem fdiv_roundsTo (d : Nat) {a b : F64} (ha : finite a) (hb : finite b) (hz : ¬ isZero b) :
    roundsTo ((valueOf a : ℝ) / valueOf b) (fdiv d a b) := by
  rw [fdiv_of_finite d ha hb hz]
  have hpos : 0 < unitsOf (magOf b) := Nat.pos_of_ne_zero (units_ne_zero hz)
  convert roundSigned_roundsTo (a.msb ^^ b.msb) (unitsOf (magOf a) * 2 ^ 1074) hpos using 1
  have hn : (unitsOf (magOf b) : ℝ) ≠ 0 := by exact_mod_cast hpos.ne'
  have hinv : (sgn b.msb)⁻¹ = sgn b.msb := by cases b.msb <;> norm_num
  rw [valueOf_eq, valueOf_eq, mul_div_mul_right _ _ unit_pos.ne', mul_div_mul_comm, sgn_xor, Nat.cast_mul, Nat.cast_pow,
    Nat.cast_ofNat, div_eq_mul_inv (sgn _), hinv, mul_div_right_comm, ← mul_assoc, mul_assoc _ _ unit, two_pow_mul_unit, mul_one]

theorem fdiv_of_zero_divisor (d : Nat) {a b : F64} (ha : finite a) (hb : isZero b) (hz : ¬ isZero a) :
    fdiv d a b = finf (a.msb ^^ b.msb) := by
  rw [fdiv, fview_of_finite ha, fview_of_finite (finite_of_isZero hb)]
  exact (if_pos (units_eq_zero hb)).trans (if_neg (units_ne_zero hz))

theorem fdiv_of_infinite_left (d : Nat) {a b : F64} (ha : infinite a) (hb : finite b) :
    fdiv d a b = finf (a.msb ^^ b.msb) := by
  rw [fdiv, fview_of_infinite ha, fview_of_finite hb]

theorem fdiv_of_infinite_right (d : Nat) {a b : F64} (ha : finite a) (hb : infinite b) :
    fdiv d a b = fpack (a.msb ^^ b.msb) 0 := by
  rw [fdiv, fview_of_finite ha, fview_of_infinite hb]

/-- Settles O51, by the kinds of quotient above: rounded, over a zero, of an infinity, by an infinity. -/
theorem quotientsRoundToNearestEven : Obligations.QuotientsRoundToNearestEven := by
  intro d a b
  refine ⟨fun ha hb hz => ⟨fdiv_roundsTo d ha hb hz, ?_⟩, fun ha hb hz => ?_, fun ha hb => ?_, fun ha hb => ?_⟩
  · rw [fdiv_of_finite d ha hb hz, msb_roundSigned]
  · rw [fdiv_of_zero_divisor d ha hb hz]
    exact ⟨infinite_finf _, msb_finf _⟩
  · rw [fdiv_of_infinite_left d ha hb]
    exact ⟨infinite_finf _, msb_finf _⟩
  · rw [fdiv_of_infinite_right d ha hb, isZero_iff]
    exact ⟨magOf_fpack _ (Nat.zero_le _), msb_fpack _ (Nat.zero_le _)⟩

end Sys2Proof.Rounding
end

section
/-! PROOFS. The square root: the whole root by bits is the library's, and a half added to an inexact whole root passes the same midpoints
as the root itself (R12). -/
namespace Sys2Proof.Rounding
open Sys2Proof Sys2Proof.Machine Sys2Proof.Claims

theorem isqrtFrom_eq_sqrt (fuel acc x : Nat) (hlo : acc * acc ≤ x) (hhi : x < (acc + 2 ^ fuel) * (acc + 2 ^ fuel)) :
    isqrtFrom fuel acc x = Nat.sqrt x := by
  induction fuel generalizing acc with
  | zero => exact Nat.eq_sqrt.2 ⟨hlo, hhi⟩
  | succ fuel ih =>
    rw [isqrtFrom]
    split_ifs with ht
    · exact ih _ ht (by rwa [Nat.add_assoc, ← Nat.two_mul, ← pow_succ'])
    · exact ih _ hlo (Nat.lt_of_not_le ht)

theorem isqrt_eq_sqrt (x : Nat) : isqrt x = Nat.sqrt x := by
  refine isqrtFrom_eq_sqrt _ 0 x (Nat.zero_le _) ?_
  rw [Nat.zero_add, ← pow_add]
  exact Nat.lt_log2_self.trans_le (Nat.pow_le_pow_right (by decide) (by omega))

/-- Twice the whole root of x, and one more when it is not exact: what `fsqrt` rounds the half of. -/
def stickyRoot (x : Nat) : Nat := 2 * Nat.sqrt x + if Nat.sqrt x * Nat.sqrt x = x then 0 else 1

theorem two_mul_lt_stickyRoot (n x : Nat) : 2 * n < stickyRoot x ↔ n * n < x := by
  unfold stickyRoot
  split_ifs with hx
  · have hsq : n * n < x ↔ n < Nat.sqrt x := by
      conv_lhs => rw [← hx]
      exact Nat.mul_self_lt_mul_self_iff
    rw [hsq]
    omega
  · have hne : n * n ≠ x := by
      rintro rfl
      exact hx (by rw [Nat.sqrt_eq])
    rw [← Nat.le_iff_lt_or_eq.trans (or_iff_left hne), ← Nat.le_sqrt]
    omega

theorem two_mul_eq_stickyRoot (n x : Nat) : 2 * n = stickyRoot x ↔ n * n = x := by
  unfold stickyRoot
  constructor
  · split_ifs with hx <;> intro h
    · rwa [show n = Nat.sqrt x by omega]
    · omega
  · rintro rfl
    rw [Nat.sqrt_eq, if_pos rfl, Nat.add_zero]

/-- From 53 bits on, a root and the half of its `stickyRoot` pass the same midpoints: those that are not whole lie below both, and a
whole one compares with both alike. -/
theorem passes_sqrt_iff {x : Nat} (hx : 2 ^ 106 ≤ x) (c : Nat) :
    passes √(x : ℝ) c ↔ passes ((stickyRoot x : ℝ) / (2 : ℕ)) c := by
  rcases hk : ulpExp c with _ | e
  · have hsig := signif_lt c
    have hq : 2 ^ 53 ≤ Nat.sqrt x := Nat.le_sqrt.2 hx
    have hle : (unitsOf (c + 1) : ℝ) ≤ Nat.sqrt x := by
      rw [unitsOf_succ, hk, pow_zero, mul_one]
      exact_mod_cast (show signif c + 1 ≤ Nat.sqrt x by omega)
    have hhalf : (Nat.sqrt x : ℝ) ≤ stickyRoot x / (2 : ℕ) := by
      rw [le_div_iff₀ (by norm_num), mul_comm]
      exact_mod_cast Nat.le_add_right _ _
    exact iff_of_true (passes_of_le (hle.trans Real.nat_sqrt_le_real_sqrt) c.lt_succ_self)
      (passes_of_le (hle.trans hhalf) c.lt_succ_self)
  · have hmid : mid c = ((2 * signif c + 1) * 2 ^ e : ℕ) := by
      rw [mid_eq, hk, pow_succ]
      push_cast
      ring
    rw [passes, passes, hmid]
    generalize (2 * signif c + 1) * 2 ^ e = n
    have hlt : (n : ℝ) < √(x : ℝ) ↔ (n : ℝ) < stickyRoot x / (2 : ℕ) := by
      rw [Real.lt_sqrt (Nat.cast_nonneg _), lt_div_iff₀ (by norm_num), mul_comm, sq]
      exact_mod_cast (two_mul_lt_stickyRoot n x).symm
    have heq : (n : ℝ) = √(x : ℝ) ↔ (n : ℝ) = stickyRoot x / (2 : ℕ) := by
      rw [eq_comm, Real.sqrt_eq_iff_mul_self_eq (Nat.cast_nonneg _) (Nat.cast_nonneg _), eq_div_iff (by norm_num),
        mul_comm (n : ℝ) (2 : ℕ)]
      rw [eq_comm]
      exact_mod_cast (two_mul_eq_stickyRoot n x).symm
    rw [hlt, heq]

/-- The root of m units is √(m · 2^1074) units. -/
theorem sqrt_mul_unit (m : ℝ) : √(m * unit) = √(m * 2 ^ 1074) * unit := by
  have h : m * unit = m * 2 ^ 1074 * (unit * unit) := by
    rw [← mul_assoc, mul_assoc m, two_pow_mul_unit, mul_one]
  rw [h, Real.sqrt_mul' _ (mul_self_nonneg _), Real.sqrt_mul_self unit_pos.le]

theorem fsqrt_of_isZero (d : Nat) {a : F64} (h : isZero a) : fsqrt d a = a := by
  rw [fsqrt, fview_of_finite (finite_of_isZero h)]
  exact if_pos (units_eq_zero h)

theorem fsqrt_of_finite (d : Nat) {a : F64} (ha : finite a) (hz : ¬ isZero a) (hs : a.msb = false) :
    fsqrt d a = roundSigned false (stickyRoot (unitsOf (magOf a) * 2 ^ 1074)) 2 := by
  rw [fsqrt, fview_of_finite ha, hs]
  simp only [units_ne_zero hz, isqrt_eq_sqrt, if_false, Bool.false_eq_true, stickyRoot]

/-- The root of a nonzero count of units, taken as the root of 2^1074 times as many, has bits enough to be rounded by its `stickyRoot`. -/
theorem isRounding_sqrt {m : Nat} (hm : 0 < m) :
    IsRounding √((m : ℝ) * 2 ^ 1074) (roundUnits (stickyRoot (m * 2 ^ 1074)) 2) := by
  have hx : 2 ^ 106 ≤ m * 2 ^ 1074 :=
    (pow_le_pow_right₀ one_le_two (by norm_num)).trans (Nat.le_mul_of_pos_left _ hm)
  have h := (isRounding_roundUnits (stickyRoot (m * 2 ^ 1074)) two_pos).congr fun c _ => passes_sqrt_iff hx c
  rwa [Nat.cast_mul, Nat.cast_pow, Nat.cast_ofNat] at h

theorem fsqrt_roundsTo (d : Nat) {a : F64} (ha : finite a) (hs : a.msb = false) :
    roundsTo √(valueOf a : ℝ) (fsqrt d a) := by
  rw [valueOf_eq, hs, sgn_false, one_mul, sqrt_mul_unit]
  by_cases hz : isZero a
  · rw [fsqrt_of_isZero d hz, units_eq_zero hz, ← fpack_msb_magOf a, hs, (isZero_iff a).1 hz]
    simpa using (isRounding_unitsOf (Nat.zero_le infPattern)).roundsTo (by simp) false
  · rw [fsqrt_of_finite d ha hz hs]
    have h := (isRounding_sqrt (Nat.pos_of_ne_zero (units_ne_zero hz))).roundsTo (Real.sqrt_nonneg _) false
    rwa [sgn_false, one_mul] at h

/-- Settles O52: zeros are returned as they are, and a positive root is rounded by its `stickyRoot`. -/
theorem squareRootRoundsToNearestEven : Obligations.SquareRootRoundsToNearestEven := by
  intro d a
  refine ⟨fsqrt_of_isZero d, fsqrt_roundsTo d, ?_⟩
  have hinf : infinite 0x7FF0000000000000#64 := by rw [infinite_iff]; decide
  rw [fsqrt, fview_of_infinite hinf]
  exact finf_false

end Sys2Proof.Rounding
end

section
/-! PROOFS. Which operations deliver a NaN (R13), negation and the complex operations (R14, R15), and the comparison with +0.0 (R16). -/
namespace Sys2Proof.Rounding
open Sys2Proof Sys2Proof.Machine Sys2Proof.Claims

theorem not_isNaN_of_infinite {a : F64} (h : infinite a) : ¬ isNaN a := by
  rw [infinite_iff] at h
  rw [isNaN_iff]
  omega

theorem not_isNaN_of_finite {a : F64} (h : finite a) : ¬ isNaN a := by
  rw [finite_iff] at h
  rw [isNaN_iff]
  omega

theorem not_infinite_of_finite {a : F64} (h : finite a) : ¬ infinite a := by
  rw [finite_iff] at h
  rw [infinite_iff]
  omega

theorem not_isZero_of_infinite {a : F64} (h : infinite a) : ¬ isZero a :=
  fun hz => not_infinite_of_finite (finite_of_isZero hz) h

theorem not_isNaN_fpack (neg : Bool) {p : Nat} (hp : p ≤ infPattern) : ¬ isNaN (fpack neg p) := by
  rw [isNaN_iff, magOf_fpack neg hp]
  omega

theorem not_isNaN_finf (neg : Bool) : ¬ isNaN (finf neg) := not_isNaN_fpack neg le_rfl

theorem not_isNaN_roundSigned (neg : Bool) (n d : Nat) : ¬ isNaN (roundSigned neg n d) :=
  not_isNaN_fpack neg (roundUnits_le n d)

theorem not_isNaN_addUnits (s : Bool) (m : Nat) (t : Bool) (n : Nat) : ¬ isNaN (addUnits s m t n) := by
  unfold addUnits
  split_ifs
  · exact not_isNaN_roundSigned _ _ _
  · exact not_isNaN_fpack false (Nat.zero_le _)
  · exact not_isNaN_roundSigned _ _ _
  · exact not_isNaN_roundSigned _ _ _

theorem isNaN_quietNaN (d : Nat) : isNaN (quietNaN d) := by
  have h := fview_quietNaN d
  rcases class_cases (quietNaN d) with hn | hi | hf
  · exact hn
  · rw [fview_of_infinite hi] at h
    cases h
  · rw [fview_of_finite hf] at h
    cases h

theorem quietNaN_quiet (d : Nat) : (quietNaN d).extractLsb' 51 12 = 0xFFF#12 := by
  rw [quietNaN, BitVec.extractLsb'_append_eq_of_le le_rfl]
  exact BitVec.extractLsb'_append_eq_right

/-- The result `r` of an operation with the free NaN `d` is that NaN when the operation is invalid, and no NaN otherwise. -/
def NaNExactly (d : Nat) (r : F64) (invalid : Prop) : Prop :=
  (invalid ∧ r = quietNaN d) ∨ (¬ invalid ∧ ¬ isNaN r)

theorem NaNExactly.isNaN_iff {d : Nat} {r : F64} {invalid : Prop} (h : NaNExactly d r invalid) : isNaN r ↔ invalid := by
  rcases h with ⟨hi, rfl⟩ | ⟨hi, hr⟩
  · exact iff_of_true (isNaN_quietNaN d) hi
  · exact iff_of_false hr hi

theorem NaNExactly.quiet {d : Nat} {r : F64} {invalid : Prop} (h : NaNExactly d r invalid) (hr : isNaN r) :
    r.extractLsb' 51 12 = 0xFFF#12 := by
  rcases h with ⟨-, rfl⟩ | ⟨-, hn⟩
  · exact quietNaN_quiet d
  · exact absurd hr hn

theorem NaNExactly.congr {d : Nat} {r : F64} {p q : Prop} (h : NaNExactly d r p) (hpq : p ↔ q) : NaNExactly d r q :=
  propext hpq ▸ h

/-- An operation that answers a NaN operand with its free NaN is judged on the other operands alone. -/
theorem nanExactly_of_operands {d : Nat} {a b r : F64} {invalid : Prop} (ha : isNaN a → r = quietNaN d)
    (hb : isNaN b → r = quietNaN d) (h : ¬ isNaN a → ¬ isNaN b → NaNExactly d r invalid) :
    NaNExactly d r (isNaN a ∨ isNaN b ∨ invalid) := by
  by_cases hna : isNaN a
  · exact .inl ⟨.inl hna, ha hna⟩
  by_cases hnb : isNaN b
  · exact .inl ⟨.inr (.inl hnb), hb hnb⟩
  exact (h hna hnb).congr (by rw [or_iff_right hna, or_iff_right hnb])

theorem class_cases_of_not_isNaN {a : F64} (h : ¬ isNaN a) : infinite a ∨ finite a := (class_cases a).resolve_left h

theorem fadd_nanExactly (d : Nat) (a b : F64) :
    NaNExactly d (fadd d a b) (isNaN a ∨ isNaN b ∨ (infinite a ∧ infinite b ∧ a.msb ≠ b.msb)) := by
  refine nanExactly_of_operands (fun h => ?_) (fun h => ?_) fun ha hb => ?_
  · rw [fadd, fview_of_isNaN h]
  · rw [fadd, fview_of_isNaN h]
    cases fview a <;> rfl
  rcases class_cases_of_not_isNaN ha with ha | ha
  · rcases class_cases_of_not_isNaN hb with hb | hb
    · by_cases hs : a.msb = b.msb
      · refine .inr ⟨fun h => h.2.2 hs, ?_⟩
        rwa [fadd_of_infinite_left d ha (.inr ⟨hb, hs.symm⟩)]
      · refine .inl ⟨⟨ha, hb, hs⟩, ?_⟩
        rw [fadd, fview_of_infinite ha, fview_of_infinite hb]
        exact if_neg hs
    · refine .inr ⟨fun h => not_infinite_of_finite hb h.2.1, ?_⟩
      rwa [fadd_of_infinite_left d ha (.inl hb)]
  · refine .inr ⟨fun h => not_infinite_of_finite ha h.1, ?_⟩
    rcases class_cases_of_not_isNaN hb with hb | hb
    · rwa [fadd_of_infinite_right d ha hb]
    · rw [fadd_of_finite d ha hb]
      exact not_isNaN_addUnits _ _ _ _

theorem fsub_nanExactly (d : Nat) (a b : F64) :
    NaNExactly d (fsub d a b) (isNaN a ∨ isNaN b ∨ (infinite a ∧ infinite b ∧ a.msb = b.msb)) := by
  refine (fadd_nanExactly d a (fneg b)).congr ?_
  rw [isNaN_fneg, infinite_fneg, msb_fneg, ← Bool.eq_not, Bool.not_not]

theorem fmul_nanExactly (d : Nat) (a b : F64) :
    NaNExactly d (fmul d a b) (isNaN a ∨ isNaN b ∨ (infinite a ∧ isZero b) ∨ (isZero a ∧ infinite b)) := by
  refine nanExactly_of_operands (fun h => ?_) (fun h => ?_) fun ha hb => ?_
  · rw [fmul, fview_of_isNaN h]
  · rw [fmul, fview_of_isNaN h]
    cases fview a <;> rfl
  rcases class_cases_of_not_isNaN ha with ha | ha
  · have hza := not_isZero_of_infinite ha
    by_cases hzb : isZero b
    · refine .inl ⟨.inl ⟨ha, hzb⟩, ?_⟩
      rw [fmul, fview_of_infinite ha, fview_of_finite (finite_of_isZero hzb)]
      exact if_pos (units_eq_zero hzb)
    · refine .inr ⟨fun h => h.elim (fun h => hzb h.2) fun h => hza h.1, ?_⟩
      rw [fmul_of_infinite d ((class_cases_of_not_isNaN hb).imp (fun hb => ⟨ha, hb⟩) fun hb => .inl ⟨ha, hb, hzb⟩)]
      exact not_isNaN_finf _
  · have hia := not_infinite_of_finite ha
    rcases class_cases_of_not_isNaN hb with hb | hb
    · by_cases hza : isZero a
      · refine .inl ⟨.inr ⟨hza, hb⟩, ?_⟩
        rw [fmul, fview_of_finite ha, fview_of_infinite hb]
        exact if_pos (units_eq_zero hza)
      · refine .inr ⟨fun h => h.elim (fun h => hia h.1) fun h => hza h.1, ?_⟩
        rw [fmul_of_infinite d (.inr (.inr ⟨ha, hza, hb⟩))]
        exact not_isNaN_finf _
    · refine .inr ⟨fun h => h.elim (fun h => hia h.1) fun h => not_infinite_of_finite hb h.2, ?_⟩
      rw [fmul_of_finite d ha hb]
      exact not_isNaN_roundSigned _ _ _

theorem fdiv_nanExactly (d : Nat) (a b : F64) :
    NaNExactly d (fdiv d a b) (isNaN a ∨ isNaN b ∨ (isZero a ∧ isZero b) ∨ (infinite a ∧ infinite b)) := by
  refine nanExactly_of_operands (fun h => ?_) (fun h => ?_) fun ha hb => ?_
  · rw [fdiv, fview_of_isNaN h]
  · rw [fdiv, fview_of_isNaN h]
    cases fview a <;> rfl
  rcases class_cases_of_not_isNaN ha with ha | ha
  · have hza := not_isZero_of_infinite ha
    rcases class_cases_of_not_isNaN hb with hb | hb
    · refine .inl ⟨.inr ⟨ha, hb⟩, ?_⟩
      rw [fdiv, fview_of_infinite ha, fview_of_infinite hb]
    · refine .inr ⟨fun h => h.elim (fun h => hza h.1) fun h => not_infinite_of_finite hb h.2, ?_⟩
      rw [fdiv_of_infinite_left d ha hb]
      exact not_isNaN_finf _
  · have hia := not_infinite_of_finite ha
    rcases class_cases_of_not_isNaN hb with hb | hb
    · refine .inr ⟨fun h => h.elim (fun h => not_isZero_of_infinite hb h.2) fun h => hia h.1, ?_⟩
      rw [fdiv_of_infinite_right d ha hb]
      exact not_isNaN_fpack _ (Nat.zero_le _)
    · by_cases hzb : isZero b
      · by_cases hza : isZero a
        · refine .inl ⟨.inl ⟨hza, hzb⟩, ?_⟩
          rw [fdiv, fview_of_finite ha, fview_of_finite hb]
          exact (if_pos (units_eq_zero hzb)).trans (if_pos (units_eq_zero hza))
        · refine .inr ⟨fun h => h.elim (fun h => hza h.1) fun h => hia h.1, ?_⟩
          rw [fdiv_of_zero_divisor d ha hzb hza]
          exact not_isNaN_finf _
      · refine .inr ⟨fun h => h.elim (fun h => hzb h.2) fun h => hia h.1, ?_⟩
        rw [fdiv_of_finite d ha hb hzb]
        exact not_isNaN_roundSigned _ _ _

theorem fsqrt_nanExactly (d : Nat) (a : F64) :
    NaNExactly d (fsqrt d a) (isNaN a ∨ (a.msb = true ∧ ¬isZero a)) := by
  rcases class_cases a with ha | ha | ha
  · refine .inl ⟨.inl ha, ?_⟩
    rw [fsqrt, fview_of_isNaN ha]
  · rw [fsqrt, fview_of_infinite ha]
    cases hs : a.msb with
    | true => exact .inl ⟨.inr ⟨rfl, not_isZero_of_infinite ha⟩, rfl⟩
    | false => exact .inr ⟨fun h => h.elim (not_isNaN_of_infinite ha) (fun h => by simp at h), not_isNaN_finf _⟩
  · have hna := not_isNaN_of_finite ha
    by_cases hz : isZero a
    · refine .inr ⟨fun h => h.elim hna fun h => h.2 hz, ?_⟩
      rwa [fsqrt_of_isZero d hz]
    · cases hs : a.msb with
      | true =>
        refine .inl ⟨.inr ⟨rfl, hz⟩, ?_⟩
        rw [fsqrt, fview_of_finite ha, hs]
        exact (if_neg (units_ne_zero hz)).trans (if_pos rfl)
      | false =>
        refine .inr ⟨fun h => h.elim hna fun h => by simp at h, ?_⟩
        rw [fsqrt_of_finite d ha hz hs]
        exact not_isNaN_roundSigned _ _ _

/-- Settles O53: each operation delivers its free quiet NaN exactly when it is invalid. -/
theorem naNsArisePreciselyAndAreQuiet : Obligations.NaNsArisePreciselyAndAreQuiet := by
  intro d a b
  refine ⟨(fadd_nanExactly d a b).isNaN_iff, (fsub_nanExactly d a b).isNaN_iff, (fmul_nanExactly d a b).isNaN_iff,
    (fdiv_nanExactly d a b).isNaN_iff, (fsqrt_nanExactly d a).isNaN_iff, ?_⟩
  rintro r (rfl | rfl | rfl | rfl | rfl)
  · exact (fadd_nanExactly d a b).quiet
  · exact (fsub_nanExactly d a b).quiet
  · exact (fmul_nanExactly d a b).quiet
  · exact (fdiv_nanExactly d a b).quiet
  · exact (fsqrt_nanExactly d a).quiet

/-- Settles O54: only negation needs an argument, the complex operations are R15's by definition. -/
theorem negationFlipsTheSignBit : Obligations.NegationFlipsTheSignBit := by
  refine ⟨fneg_eq_flip, fun z => ⟨?_, ?_⟩, fun d k a b => ⟨rfl, rfl, rfl, rfl, rfl, rfl⟩⟩
  · rw [conj, fneg_eq_flip]
  · rw [cneg, fneg_eq_flip, fneg_eq_flip]

theorem valueOf_pos_iff (a : F64) : 0 < valueOf a ↔ a.msb = false ∧ 0 < unitsOf (magOf a) := by
  have hcast : (0 : ℝ) < valueOf a ↔ 0 < valueOf a := Rat.cast_pos
  rw [← hcast, valueOf_eq, mul_pos_iff_of_pos_right unit_pos]
  cases a.msb
  · simp
  · simp

/-- Settles O55, by the class of the operand. -/
theorem greaterThanZeroIsOrdered : Obligations.GreaterThanZeroIsOrdered := by
  intro a
  have hinf : infinite 0x7FF0000000000000#64 := by rw [infinite_iff]; decide
  rcases class_cases a with ha | ha | ha
  · rw [fgt0, fview_of_isNaN ha]
    refine iff_of_false Bool.false_ne_true (not_or.2 ⟨?_, fun h => not_isNaN_of_finite h.1 ha⟩)
    rintro rfl
    exact not_isNaN_of_infinite hinf ha
  · have hfin : ¬ finite a := fun h => not_infinite_of_finite h ha
    rw [or_iff_left fun h => hfin h.1, fgt0, fview_of_infinite ha, ← finf_false, Bool.not_eq_true']
    refine ⟨fun hs => ?_, ?_⟩
    · rw [← eq_finf_of_infinite ha, hs]
    · rintro rfl
      exact msb_finf false
  · have hne : a ≠ 0x7FF0000000000000#64 := by
      rintro rfl
      exact not_infinite_of_finite ha hinf
    rw [or_iff_right hne, and_iff_right ha, valueOf_pos_iff, fgt0, fview_of_finite ha]
    simp

end Sys2Proof.Rounding
end

section
/-! PROOFS. Scaled draws stay finite (R8, R173), the normalisation constant (R17) and the bit error rate (R19). -/
namespace Sys2Proof.Rounding
open Sys2Proof Sys2Proof.Machine Sys2Proof.Claims

/-- The magnitude pattern of the largest finite value. -/
def maxPattern : Nat := infPattern - 1

/-- A quotient up to the largest finite value does not overflow. -/
theorem roundUnits_lt_of_le {n d : Nat} (hd : 0 < d) (h : n ≤ unitsOf maxPattern * d) : roundUnits n d < infPattern := by
  rw [(isRounding_roundUnits n hd).lt_iff]
  refine lt_of_le_of_lt ?_ (unitsOf_lt_mid _)
  rw [div_le_iff₀ (by exact_mod_cast hd)]
  exact_mod_cast h

theorem unitsOf_le_max {b : F64} (hb : finite b) : unitsOf (magOf b) ≤ unitsOf maxPattern :=
  unitsOf_strictMono.monotone (Nat.le_sub_one_of_lt ((finite_iff b).1 hb))

/-! Scaled draws. -/

theorem magOf_finitePattern (g : FiniteF64) : magOf (finitePattern g) = g.expo.val * 2 ^ 52 + g.frac.toNat := by
  have he := g.expo.isLt
  have hf := g.frac.isLt
  rw [magOf, finitePattern, BitVec.toNat_append, ← Nat.shiftLeft_add_eq_or_of_lt hf, BitVec.toNat_append,
    ← Nat.shiftLeft_add_eq_or_of_lt (by simp; omega), Nat.shiftLeft_eq, Nat.shiftLeft_eq, BitVec.toNat_ofNat]
  omega

theorem finite_finitePattern (g : FiniteF64) : finite (finitePattern g) := by
  have he := g.expo.isLt
  have hf := g.frac.isLt
  rw [finite_iff, magOf_finitePattern, infPattern_eq]
  omega

/-- A finite factor of magnitude at most 1.0 keeps a finite product finite. -/
theorem finite_fmul (d : Nat) {a b : F64} (ha : finite a) (hb : finite b) (hle : unitsOf (magOf a) ≤ 2 ^ 1074) :
    finite (fmul d a b) := by
  rw [fmul_of_finite d ha hb, finite_iff, roundSigned, magOf_fpack _ (roundUnits_le _ _)]
  refine roundUnits_lt_of_le (pow_pos two_pos _) ?_
  rw [Nat.mul_comm]
  exact Nat.mul_le_mul (unitsOf_le_max hb) hle

theorem finite_kn : finite 0x3FE6A09E667F3BCC#64 := by rw [finite_iff]; decide

/-- Settles O36: a Gaussian is finite by its type, and KN is below 1.0. -/
theorem scaledDrawsAreFinite : Obligations.ScaledDrawsAreFinite := fun d g =>
  ⟨finite_finitePattern g, finite_fmul d finite_kn (finite_finitePattern g) (by decide +kernel)⟩

/-! The bit error rate. -/

theorem ber_eq {e n : Word} (hle : e.toNat ≤ n.toNat) (hn : 0 < n.toNat) :
    Machine.ber e n = roundSigned false (e.toNat * 2 ^ 1074) n.toNat :=
  if_neg (by omega)

theorem div_eq_mul_div_mul {x y p u : ℝ} (h : p * u = 1) : x / y = x * p / y * u := by
  rw [div_mul_eq_mul_div, mul_assoc, h, mul_one]

/-- Settles O58: the rate is at most 1.0 and does not overflow. -/
theorem berIsCorrectlyRounded : Obligations.BerIsCorrectlyRounded := by
  intro e n hle hn
  rw [ber_eq hle hn]
  refine ⟨?_, msb_roundSigned _ _ _⟩
  have hlt : roundUnits (e.toNat * 2 ^ 1074) n.toNat < infPattern := by
    refine roundUnits_lt_of_le hn ?_
    rw [Nat.mul_comm]
    exact Nat.mul_le_mul (by decide +kernel) hle
  have hx : (e.toNat : ℝ) / n.toNat = ((e.toNat * 2 ^ 1074 : ℕ) : ℝ) / n.toNat * unit := by
    rw [Nat.cast_mul, Nat.cast_pow, Nat.cast_ofNat]
    exact div_eq_mul_div_mul two_pow_mul_unit
  rw [hx]
  exact (isRounding_roundUnits _ hn).nearestEven (div_nonneg (Nat.cast_nonneg _) (Nat.cast_nonneg _)) hlt

/-! The normalisation constant. -/

/-- The free value's index does not matter to a quotient of finite values. -/
theorem fdiv_index (d : Nat) {a b : F64} (ha : finite a) (hb : finite b) (hz : ¬ isZero b) : fdiv d a b = fdiv 0 a b :=
  (fdiv_of_finite d ha hb hz).trans (fdiv_of_finite 0 ha hb hz).symm

/-- The free value's index does not matter to the root of a finite positive value. -/
theorem fsqrt_index (d : Nat) {a : F64} (ha : finite a) (hz : ¬ isZero a) (hs : a.msb = false) : fsqrt d a = fsqrt 0 a :=
  (fsqrt_of_finite d ha hz hs).trans (fsqrt_of_finite 0 ha hz hs).symm

theorem fsqrt_two (d : Nat) : fsqrt d 0x4000000000000000#64 = 0x3FF6A09E667F3BCD#64 := by
  rw [fsqrt_index d (by rw [finite_iff]; decide) (by decide) (by decide)]
  decide +kernel

theorem kn_eq_fdiv (d : Nat) : fdiv d 0x3FF0000000000000#64 0x3FF6A09E667F3BCD#64 = kn := by
  rw [fdiv_index d (by rw [finite_iff]; decide) (by rw [finite_iff]; decide) (by decide)]
  decide +kernel

theorem valueOf_half : valueOf 0x3FE0000000000000#64 = 1 / 2 := by
  have he : expField 0x3FE0000000000000#64 = 1022 := by decide
  have hf : fracField 0x3FE0000000000000#64 = 0 := by decide
  have hs : (0x3FE0000000000000#64 : F64).msb = false := by decide
  rw [valueOf, he, hf, hs]
  norm_num

theorem one_lt_overflow_bound : (1 : ℝ) < 2 ^ 1024 - 2 ^ 970 := by
  have h : (1 : ℝ) ≤ 2 ^ 970 := one_le_pow₀ one_le_two
  rw [show 1024 = 54 + 970 from rfl, pow_add]
  generalize (2 : ℝ) ^ 970 = y at h ⊢
  norm_num
  linarith

/-- 1/√2 is the root of 0.5, which `fsqrt` rounds correctly. -/
theorem nearestEven_inv_sqrt_two : nearestEven (1 / √2) 0x3FE6A09E667F3BCD#64 := by
  have hfin : finite 0x3FE0000000000000#64 := by rw [finite_iff]; decide
  have hroot : fsqrt 0 0x3FE0000000000000#64 = 0x3FE6A09E667F3BCD#64 := by decide +kernel
  have hx : √((valueOf 0x3FE0000000000000#64 : ℚ) : ℝ) = 1 / √2 := by
    rw [valueOf_half, Rat.cast_div, Rat.cast_one, Rat.cast_ofNat, Real.sqrt_div zero_le_one, Real.sqrt_one]
  have h := (fsqrt_roundsTo 0 hfin (by decide)).1
  rw [hx, hroot] at h
  refine h ?_
  have hsqrt : (1 : ℝ) ≤ √2 := Real.one_le_sqrt.2 one_le_two
  rw [abs_of_nonneg (by positivity)]
  exact ((div_le_one (by positivity)).2 hsqrt).trans_lt one_lt_overflow_bound

/-- Settles O56. -/
theorem normalisationConstant : Obligations.NormalisationConstant :=
  ⟨fun d e => by rw [fsqrt_two, kn_eq_fdiv], rfl, nearestEven_inv_sqrt_two⟩

end Sys2Proof.Rounding
end

section
/-! PROOFS. sigma is correctly rounded (R18). The comparison `roundsAbove` of whole numbers is the comparison of 10^(a/20000) with a midpoint, raised
to the power 20000; `bisect` finds the one pattern that passes exactly the midpoints below it; the outer arms are three comparisons of
powers of 2 and 10. -/
namespace Sys2Proof.Rounding
open Sys2Proof Sys2Proof.Machine Sys2Proof.Claims

/-! The exact value. -/

/-- The exact 10^(a/20000) that sigma(-a) rounds. -/
noncomputable def tenPow (a : ℤ) : ℝ := 10 ^ ((a : ℝ) / sigmaRoot)

theorem tenPow_neg_toInt (snr : Snr) : (10 : ℝ) ^ (-(snr.toInt : ℝ) / 20000) = tenPow (-snr.toInt) := by
  rw [tenPow, sigmaRoot, Int.cast_neg, Nat.cast_ofNat]

theorem tenPow_pos (a : ℤ) : 0 < tenPow a := Real.rpow_pos_of_pos (by norm_num) _

theorem sigmaRoot_ne_zero : sigmaRoot ≠ 0 := by decide

theorem tenPow_pow (a : ℤ) : tenPow a ^ sigmaRoot = 10 ^ a := by
  rw [tenPow, ← Real.rpow_natCast, ← Real.rpow_mul (by norm_num),
    div_mul_cancel₀ _ (Nat.cast_ne_zero.2 sigmaRoot_ne_zero), Real.rpow_intCast]

theorem tenPow_natCast_pow (n : ℕ) : tenPow n ^ sigmaRoot = (10 ^ n : ℕ) := by
  rw [tenPow_pow, zpow_natCast, Nat.cast_pow, Nat.cast_ofNat]

theorem tenPow_zero : tenPow 0 = 1 := by
  rw [tenPow, Int.cast_zero, zero_div, Real.rpow_zero]

theorem tenPow_neg (a : ℤ) : tenPow (-a) = (tenPow a)⁻¹ := by
  rw [tenPow, Int.cast_neg, neg_div, Real.rpow_neg (by norm_num), tenPow]

theorem tenPow_mono {a b : ℤ} (h : a ≤ b) : tenPow a ≤ tenPow b := by
  have h' : (a : ℝ) ≤ b := by exact_mod_cast h
  exact Real.rpow_le_rpow_of_exponent_le (by norm_num) (div_le_div_of_nonneg_right h' (Nat.cast_nonneg _))

theorem tenPow_le_natCast {n m : ℕ} (h : 10 ^ n ≤ m ^ sigmaRoot) : tenPow n ≤ m := by
  rw [← pow_le_pow_iff_left₀ (tenPow_pos _).le (Nat.cast_nonneg _) sigmaRoot_ne_zero, tenPow_natCast_pow, ← Nat.cast_pow]
  exact Nat.cast_le.2 h

theorem natCast_le_tenPow {n m : ℕ} (h : m ^ sigmaRoot ≤ 10 ^ n) : (m : ℝ) ≤ tenPow n := by
  rw [← pow_le_pow_iff_left₀ (Nat.cast_nonneg _) (tenPow_pos _).le sigmaRoot_ne_zero, tenPow_natCast_pow, ← Nat.cast_pow]
  exact Nat.cast_le.2 h

/-! The comparison in whole numbers. -/

theorem tenPow_pow_mul (a : ℤ) : tenPow a ^ sigmaRoot * 10 ^ (-a).toNat = 10 ^ a.toNat := by
  rw [tenPow_pow, ← zpow_natCast, ← zpow_natCast, ← zpow_add₀ (by norm_num)]
  congr 1
  omega

theorem mul_pow_lt_iff {x y t : ℝ} {n : ℕ} (hx : 0 ≤ x) (hy : 0 ≤ y) (ht : 0 < t) (hn : n ≠ 0) :
    x ^ n * t < y ^ n * t ↔ x < y := by
  rw [mul_lt_mul_iff_left₀ ht, pow_lt_pow_iff_left₀ hx hy hn]

theorem mul_pow_inj {x y t : ℝ} {n : ℕ} (hx : 0 ≤ x) (hy : 0 ≤ y) (ht : 0 < t) (hn : n ≠ 0) :
    x ^ n * t = y ^ n * t ↔ x = y := by
  rw [mul_left_inj' ht.ne', pow_left_inj₀ hx hy hn]

/-- The power of 2 that `roundsAbove` takes out of a midpoint and the value, so that both are whole but for the root. -/
noncomputable def scale (c : ℕ) : ℝ := 2 ^ (1075 - ulpExp c) / 2 ^ 1074

theorem scale_pos (c : ℕ) : 0 < scale c := div_pos (pow_pos two_pos _) (pow_pos two_pos _)

theorem mul_scale (x : ℝ) (c : ℕ) : x * 2 ^ 1074 * scale c = x * 2 ^ (1075 - ulpExp c) := by
  rw [scale, mul_assoc, mul_div_cancel₀ _ (pow_ne_zero _ two_ne_zero)]

theorem mid_mul_scale (c : ℕ) : mid c * scale c = (2 * signif c + 1) * 2 ^ (ulpExp c - 1075) := by
  have hk : (2 : ℝ) ^ ulpExp c * 2 ^ (1075 - ulpExp c) = 2 ^ (ulpExp c - 1075) * 2 * 2 ^ 1074 := by
    rw [← pow_succ, ← pow_add, ← pow_add]
    congr 1
    omega
  rw [mid_eq, scale, div_mul_div_comm, mul_assoc _ (2 ^ ulpExp c : ℝ), hk, ← mul_assoc, ← mul_assoc,
    mul_div_mul_right _ _ (pow_ne_zero _ two_ne_zero), mul_div_cancel_right₀ _ two_ne_zero]

theorem roundsAbove_iff (a : ℤ) (c : ℕ) : roundsAbove a c = true ↔ passes (tenPow a * 2 ^ 1074) c := by
  have hS := (tenPow_pos a).le
  have hT : (0 : ℝ) < 10 ^ (-a).toNat := by positivity
  have hm : (0 : ℝ) ≤ (2 * signif c + 1) * 2 ^ (ulpExp c - 1075) := by positivity
  have hv : 0 ≤ tenPow a * 2 ^ (1075 - ulpExp c) := by positivity
  have hM : (((2 * signif c + 1) ^ sigmaRoot * (2 ^ (ulpExp c - 1075)) ^ sigmaRoot * 10 ^ (-a).toNat : ℕ) : ℝ) =
      ((2 * signif c + 1) * 2 ^ (ulpExp c - 1075)) ^ sigmaRoot * 10 ^ (-a).toNat := by
    push_cast
    rw [mul_pow]
  have hP : ((10 ^ a.toNat * (2 ^ (1075 - ulpExp c)) ^ sigmaRoot : ℕ) : ℝ) =
      (tenPow a * 2 ^ (1075 - ulpExp c)) ^ sigmaRoot * 10 ^ (-a).toNat := by
    push_cast
    rw [← tenPow_pow_mul, mul_pow]
    ring
  rw [passes, ← mul_lt_mul_iff_left₀ (scale_pos c), ← mul_left_inj' (scale_pos c).ne', mid_mul_scale, mul_scale,
    ← mul_pow_lt_iff hm hv hT sigmaRoot_ne_zero, ← mul_pow_inj hm hv hT sigmaRoot_ne_zero, ← hM, ← hP, Nat.cast_lt, Nat.cast_inj]
  have hdef : roundsAbove a c =
      if (2 * signif c + 1) ^ sigmaRoot * (2 ^ (ulpExp c - 1075)) ^ sigmaRoot * 10 ^ (-a).toNat <
          10 ^ a.toNat * (2 ^ (1075 - ulpExp c)) ^ sigmaRoot then true
      else decide ((2 * signif c + 1) ^ sigmaRoot * (2 ^ (ulpExp c - 1075)) ^ sigmaRoot * 10 ^ (-a).toNat =
          10 ^ a.toNat * (2 ^ (1075 - ulpExp c)) ^ sigmaRoot) && decide (c % 2 = 1) := rfl
  rw [hdef]
  split_ifs with h
  · simp [h]
  · simp [h]

/-! The search. -/

theorem bisect_eq {above : ℕ → Bool} {p : ℕ} (hp : p ≤ infPattern) (h : ∀ c < infPattern, (above c = true ↔ c < p))
    (fuel lo : ℕ) (hlo : lo ≤ p) (hhi : p < lo + 2 ^ fuel) : bisect above fuel lo = p := by
  induction fuel generalizing lo with
  | zero => rw [bisect]; omega
  | succ fuel ih =>
    have hpos := Nat.two_pow_pos fuel
    have hcond : (decide (lo + 2 ^ fuel ≤ infPattern) && above (lo + 2 ^ fuel - 1)) = true ↔ lo + 2 ^ fuel ≤ p := by
      rw [Bool.and_eq_true, decide_eq_true_iff]
      constructor
      · rintro ⟨hle, ha⟩
        have := (h _ (by omega)).1 ha
        omega
      · intro hle
        exact ⟨hle.trans hp, (h _ (by omega)).2 (by omega)⟩
    rw [pow_succ] at hhi
    rw [bisect]
    simp only [hcond]
    split_ifs with ht
    · exact ih _ ht (by omega)
    · exact ih _ hlo (by omega)

/-! The outer arms: powers of 2 against powers of 10. -/

theorem two_pow_1075_le : (2 ^ 1075) ^ sigmaRoot ≤ 10 ^ 6472145 := by decide +kernel

theorem two_pow_1024_le : (2 ^ 1024) ^ sigmaRoot ≤ 10 ^ 6165095 := by decide +kernel

theorem ten_pow_le_max : 10 ^ 6165094 ≤ ((2 ^ 53 - 1) * 2 ^ 971) ^ sigmaRoot := by decide +kernel

/-- Down from 10^(-6472145/20000) the value is at most half the smallest subnormal. -/
theorem tenPow_le_half {a : ℤ} (ha : a ≤ -6472145) : tenPow a * 2 ^ 1074 ≤ mid 0 := by
  have h : (2 : ℝ) ^ 1075 ≤ tenPow 6472145 := by
    have hn := natCast_le_tenPow two_pow_1075_le
    rwa [Nat.cast_pow, Nat.cast_ofNat] at hn
  have hle : tenPow a ≤ (2 ^ 1075)⁻¹ := by
    refine (tenPow_mono ha).trans ?_
    rw [tenPow_neg]
    exact inv_anti₀ (pow_pos two_pos _) h
  have hmid : mid 0 = (2 ^ 1075)⁻¹ * 2 ^ 1074 := by
    have h2 : (2 : ℝ) ^ 1074 ≠ 0 := pow_ne_zero _ two_ne_zero
    rw [mid_eq, show signif 0 = 0 from rfl, show ulpExp 0 = 0 from rfl, pow_succ, mul_inv, mul_right_comm, inv_mul_cancel₀ h2]
    norm_num
  rw [hmid]
  exact mul_le_mul_of_nonneg_right hle (pow_nonneg zero_le_two _)

/-- From 10^(6165095/20000) on the value is beyond every finite one. -/
theorem two_pow_1024_le_tenPow {a : ℤ} (ha : 6165095 ≤ a) : 2 ^ 1024 ≤ tenPow a := by
  have hn := natCast_le_tenPow two_pow_1024_le
  rw [Nat.cast_pow, Nat.cast_ofNat] at hn
  exact hn.trans (tenPow_mono ha)

/-- Below that it is at most the largest finite one. -/
theorem tenPow_le_maxFinite {a : ℤ} (ha : a ≤ 6165094) : tenPow a ≤ maxFinite := by
  have hmax : maxFinite = ((2 ^ 53 - 1) * 2 ^ 971 : ℕ) := by
    rw [maxFinite, show 1024 = 53 + 971 from rfl, pow_add, Nat.cast_mul, Nat.cast_pow, Nat.cast_ofNat]
    generalize (2 : ℝ) ^ 971 = y
    norm_num
    ring
  have hn := tenPow_le_natCast ten_pow_le_max
  rw [hmax]
  exact (tenPow_mono ha).trans hn

/-! Every arm of sigma is the rounding of the exact value. -/

theorem sigma_isRounding (snr : Snr) : ∃ p, Machine.sigma snr = fpack false p ∧ IsRounding (tenPow (-snr.toInt) * 2 ^ 1074) p := by
  unfold Machine.sigma
  split_ifs with hsmall hlarge hzero
  · have hle := tenPow_le_half (show -snr.toInt ≤ -6472145 by omega)
    refine ⟨0, rfl, isRounding_of (Nat.zero_le _) (.inl rfl) (.inr ?_)⟩
    rintro (hlt | ⟨-, hodd⟩)
    · exact not_lt.2 hle hlt
    · simp at hodd
  · have hunits : (unitsOf infPattern : ℝ) = 2 ^ 1024 * 2 ^ 1074 := by
      rw [show unitsOf infPattern = 2 ^ 1024 * 2 ^ 1074 by decide +kernel, Nat.cast_mul, Nat.cast_pow, Nat.cast_pow, Nat.cast_ofNat]
    refine ⟨infPattern, rfl, isRounding_of le_rfl (.inr (passes_of_le ?_ (show infPattern - 1 < infPattern by decide))) (.inl rfl)⟩
    rw [hunits]
    exact mul_le_mul_of_nonneg_right (two_pow_1024_le_tenPow (by omega)) (pow_nonneg zero_le_two _)
  · have hunits : tenPow (-snr.toInt) * 2 ^ 1074 = unitsOf 0x3FF0000000000000 := by
      rw [hzero, neg_zero, tenPow_zero, one_mul, show unitsOf 0x3FF0000000000000 = 2 ^ 1074 by decide +kernel, Nat.cast_pow,
        Nat.cast_ofNat]
    exact ⟨0x3FF0000000000000, rfl, hunits ▸ isRounding_unitsOf (by decide)⟩
  · obtain ⟨p, hp⟩ := exists_isRounding (tenPow (-snr.toInt) * 2 ^ 1074)
    have hle := hp.le
    rw [infPattern_eq] at hle
    have hbisect := bisect_eq hp.le (fun c hc => (roundsAbove_iff _ c).trans (hp.passes_iff c hc)) 63 0 (Nat.zero_le _) (by omega)
    exact ⟨p, by rw [hbisect], hp⟩

theorem sigma_roundsTo (snr : Snr) : roundsTo (tenPow (-snr.toInt)) (Machine.sigma snr) := by
  obtain ⟨p, hsigma, hp⟩ := sigma_isRounding snr
  have h := hp.roundsTo (mul_nonneg (tenPow_pos _).le (pow_nonneg zero_le_two _)) false
  rwa [sgn_false, one_mul, mul_assoc, two_pow_mul_unit, mul_one, ← hsigma] at h

theorem msb_sigma (snr : Snr) : (Machine.sigma snr).msb = false := by
  obtain ⟨p, hsigma, hp⟩ := sigma_isRounding snr
  rw [hsigma, msb_fpack false hp.le]

/-- Settles O57: no exact value lies between the largest finite value and 2^1024, so "above the largest finite value" and the
overflow of rounding agree. -/
theorem sigmaIsCorrectlyRounded : Obligations.SigmaIsCorrectlyRounded := by
  have h970 : (0 : ℝ) < 2 ^ 970 := pow_pos two_pos _
  have hbound : maxFinite < 2 ^ 1024 - 2 ^ 970 := by
    rw [maxFinite, pow_succ (2 : ℝ) 970]
    exact sub_lt_sub_left (lt_mul_of_one_lt_right h970 one_lt_two) _
  refine ⟨fun snr => ?_, by decide +kernel, by decide +kernel, by decide +kernel, by decide +kernel, by decide +kernel⟩
  rw [tenPow_neg_toInt]
  obtain ⟨hnear, hover, -⟩ := sigma_roundsTo snr
  refine ⟨fun hgt => hover ?_, fun hle => ⟨msb_sigma snr, hnear ?_⟩⟩
  · have ha : 6165095 ≤ -snr.toInt := by
      by_contra hlt
      exact not_lt.2 (tenPow_le_maxFinite (by omega)) hgt
    exact (sub_le_self _ h970.le).trans (two_pow_1024_le_tenPow ha)
  · rw [abs_of_pos (tenPow_pos _)]
    exact hle.trans_lt hbound

end Sys2Proof.Rounding
end

section
/-! PROOFS. The register map (R30, R81): a register's offset and the register at an offset determine each other. -/

namespace Sys2Proof.Aperture
open Sys2Proof Sys2Proof.Machine Sys2Proof.Claims

/-! The regions of the map. -/

theorem regAt_control {off : Nat} (hhi : off < 0x0D0) : regAt off = controlReg (off / 8) := if_pos hhi

theorem regAt_complex {off : Nat} (hlo : 0x100 ≤ off) (hhi : off < 0x180) :
    regAt off = .complex (cregOf ((off - 0x100) / 16)) (partAt off) := by
  unfold regAt
  iterate 2 rw [if_neg (by omega)]
  rw [if_pos (by omega)]

theorem regAt_den {off : Nat} (hlo : 0x180 ≤ off) (hhi : off < 0x188) : regAt off = .den := by
  unfold regAt
  iterate 3 rw [if_neg (by omega)]
  rw [if_pos (by omega)]

theorem regAt_h {off : Nat} (hlo : 0x200 ≤ off) (hhi : off < 0x400) :
    regAt off = .h (Fin.ofNat 32 ((off - 0x200) / 16)) (partAt off) := by
  unfold regAt
  iterate 5 rw [if_neg (by omega)]
  rw [if_pos (by omega)]

theorem regAt_nz {off : Nat} (hlo : 0x400 ≤ off) (hhi : off < 0x600) :
    regAt off = .nz (Fin.ofNat 32 ((off - 0x400) / 16)) (partAt off) := by
  unfold regAt
  iterate 6 rw [if_neg (by omega)]
  rw [if_pos (by omega)]

theorem regAt_y {off : Nat} (hlo : 0x600 ≤ off) (hhi : off < 0x800) :
    regAt off = .y (Fin.ofNat 32 ((off - 0x600) / 16)) (partAt off) := by
  unfold regAt
  iterate 7 rw [if_neg (by omega)]
  rw [if_pos (by omega)]

theorem regAt_result {off : Nat} (hlo : 0x1000 ≤ off) (hhi : off < 0x3000) :
    regAt off = .result (Fin.ofNat 256 ((off - 0x1000) / 32)) (Fin.ofNat 4 ((off - 0x1000) / 8 % 4)) := by
  unfold regAt
  iterate 9 rw [if_neg (by omega)]
  rw [if_pos (by omega)]

theorem regAt_of_inReserved {off : Nat} (h : inReserved off) : regAt off = .reserved := by
  unfold regAt
  obtain ⟨hlo, hhi⟩ | ⟨hlo, hhi⟩ | ⟨hlo, hhi⟩ | ⟨hlo, hhi⟩ := h
  · rw [if_neg (by omega), if_pos hhi]
  · iterate 4 rw [if_neg (by omega)]
    rw [if_pos hhi]
  · iterate 8 rw [if_neg (by omega)]
    rw [if_pos hhi]
  · iterate 10 rw [if_neg (by omega)]

/-! From a register to its offset and back. -/

theorem partOffset_le (part : Part) : partOffset part ≤ 8 := by cases part <;> decide

theorem partOffset_mod (part : Part) : partOffset part % 8 = 0 := by cases part <;> rfl

theorem partAt_add_partOffset {n : Nat} (hn : n % 16 = 0) (part : Part) : partAt (n + partOffset part) = part := by
  cases part with
  | re => exact if_pos hn
  | im => exact if_neg (show ¬(n + 8) % 16 = 0 by omega)

/-- The entry that a file's index arithmetic finds is the entry of the element. -/
theorem fileIndex_eq (base : Nat) (i : Fin 32) (part : Part) :
    Fin.ofNat 32 ((base + i.val * 16 + partOffset part - base) / 16) = i := by
  have hpart := partOffset_le part
  rw [show (base + i.val * 16 + partOffset part - base) / 16 = i.val by omega, Fin.ofNat_val_eq_self]

/-- A register stands at its offset. -/
theorem regAt_of_regOffset {r : Reg} {off : Nat} (h : regOffset r = some off) : regAt off = r := by
  cases r with
  | complex r part => cases h; cases r <;> cases part <;> rfl
  | h i part =>
    cases h
    have hpart := partOffset_le part
    rw [regAt_h (by omega) (by omega), partAt_add_partOffset (by omega), fileIndex_eq]
  | nz i part =>
    cases h
    have hpart := partOffset_le part
    rw [regAt_nz (by omega) (by omega), partAt_add_partOffset (by omega), fileIndex_eq]
  | y i part =>
    cases h
    have hpart := partOffset_le part
    rw [regAt_y (by omega) (by omega), partAt_add_partOffset (by omega), fileIndex_eq]
  | result k word =>
    cases h
    unfold resultOffset
    rw [regAt_result (by omega) (by omega), show (0x1000 + 32 * k.val + 8 * word.val - 0x1000) / 32 = k.val by omega,
      show (0x1000 + 32 * k.val + 8 * word.val - 0x1000) / 8 % 4 = word.val by omega, Fin.ofNat_val_eq_self,
      Fin.ofNat_val_eq_self]
  | _ => cases h <;> rfl

/-- A register's offset is one the block admits accesses at (R80, R84). -/
theorem regOffset_admitted {r : Reg} {off : Nat} (h : regOffset r = some off) : off % 8 = 0 ∧ off < 0x4000 := by
  cases r with
  | complex r part => cases h; cases r <;> cases part <;> decide
  | h i part | nz i part | y i part =>
    cases h
    have hle := partOffset_le part
    have hmod := partOffset_mod part
    omega
  | result k word => cases h; unfold resultOffset; omega
  | _ => cases h <;> decide

/-! From an offset to its register and back. -/

theorem regOffset_controlReg {n : Nat} (hn : n < 26) : regOffset (controlReg n) = some (8 * n) := by
  have hall : ∀ m : Fin 26, regOffset (controlReg m) = some (8 * m.val) := by decide
  exact hall ⟨n, hn⟩

theorem cregOffset_cregOf {n : Nat} (hn : n < 8) : cregOffset (cregOf n) = 0x100 + 16 * n := by
  have hall : ∀ m : Fin 8, cregOffset (cregOf m) = 0x100 + 16 * m.val := by decide
  exact hall ⟨n, hn⟩

theorem partOffset_partAt {off : Nat} (halign : off % 8 = 0) : partOffset (partAt off) = off % 16 := by
  unfold partAt
  split <;> simp only [partOffset] <;> omega

/-- An aligned offset of the aperture that is not reserved is the offset of its register. -/
theorem regOffset_regAt {off : Nat} (halign : off % 8 = 0) (hlt : off < 0x4000) (hres : ¬inReserved off) :
    regOffset (regAt off) = some off := by
  have hpart := partOffset_partAt halign
  have hregion : off < 0x0D0 ∨ (0x100 ≤ off ∧ off < 0x180) ∨ (0x180 ≤ off ∧ off < 0x188) ∨ (0x200 ≤ off ∧ off < 0x400) ∨
      (0x400 ≤ off ∧ off < 0x600) ∨ (0x600 ≤ off ∧ off < 0x800) ∨ (0x1000 ≤ off ∧ off < 0x3000) := by
    unfold inReserved at hres
    omega
  obtain hhi | ⟨hlo, hhi⟩ | ⟨hlo, hhi⟩ | ⟨hlo, hhi⟩ | ⟨hlo, hhi⟩ | ⟨hlo, hhi⟩ | ⟨hlo, hhi⟩ := hregion
  · rw [regAt_control hhi, regOffset_controlReg (by omega)]
    exact congrArg some (by omega)
  · rw [regAt_complex hlo hhi, regOffset, cregOffset_cregOf (by omega), hpart]
    exact congrArg some (by omega)
  · rw [regAt_den hlo hhi, regOffset]
    exact congrArg some (by omega)
  · rw [regAt_h hlo hhi, regOffset, hpart, Fin.val_ofNat]
    exact congrArg some (by omega)
  · rw [regAt_nz hlo hhi, regOffset, hpart, Fin.val_ofNat]
    exact congrArg some (by omega)
  · rw [regAt_y hlo hhi, regOffset, hpart, Fin.val_ofNat]
    exact congrArg some (by omega)
  · rw [regAt_result hlo hhi, regOffset, resultOffset, Fin.val_ofNat, Fin.val_ofNat]
    exact congrArg some (by omega)

/-- Settles O13. -/
theorem registerMapIsOneToOne : Obligations.RegisterMapIsOneToOne := by
  refine ⟨fun r off h => ?_, fun off halign hlt => ?_⟩
  · obtain ⟨halign, hlt⟩ := regOffset_admitted h
    exact ⟨halign, hlt, regAt_of_regOffset h⟩
  · by_cases hres : inReserved off
    · exact .inl ⟨hres, regAt_of_inReserved hres⟩
    · exact .inr ⟨hres, regOffset_regAt halign hlt hres⟩

end Sys2Proof.Aperture
end

section
/-! PROOFS. The host's accesses as steps (R85 to R88): a read answers what its register reads as, a write follows its register's rule. -/

namespace Sys2Proof.Aperture
open Sys2Proof Sys2Proof.Machine Sys2Proof.Claims

variable {s : State} {rest : List Event} {off : Nat} {v : Word} {r : Reg}

theorem admitted_read (halign : off % 8 = 0) (hlt : off < 0x4000) : (Access.read 8 off).wellFormed = true := by
  simp [Access.wellFormed, Access.widthOk, Access.aligned, Access.inAperture, Access.width, Access.off, Config.aperture, halign, hlt]

theorem admitted_write (halign : off % 8 = 0) (hlt : off < 0x4000) : (Access.write 8 off v).wellFormed = true := by
  simp [Access.wellFormed, Access.widthOk, Access.aligned, Access.inAperture, Access.width, Access.off, Config.aperture, halign, hlt]

/-- The first coming turn is the step. -/
theorem step_of_events {e : Event} (hev : s.events = e :: rest) : step s = takeEvent e { s with events := rest } := by
  unfold step nextTurn
  rw [hev]

theorem step_read (halign : off % 8 = 0) (hlt : off < 0x4000) (hev : s.events = .host (.read 8 off) :: rest) :
    step s = .next (memRead off { s with events := rest }) :=
  (step_of_events hev).trans (if_pos (admitted_read halign hlt))

theorem step_write (halign : off % 8 = 0) (hlt : off < 0x4000) (hev : s.events = .host (.write 8 off v) :: rest) :
    step s = .next (memWrite off v { s with events := rest }) :=
  (step_of_events hev).trans (if_pos (admitted_write halign hlt))

/-- The coming turns and the last response decide nothing about what a register reads as. -/
theorem readReg_turn (evs : List Event) (answer : Option Word) (r : Reg) :
    readReg { s with events := evs, resp := answer } r = readReg s r := by
  cases r with
  | complex c part => cases c <;> rfl
  | _ => rfl

theorem readSpecified_events (evs : List Event) (r : Reg) : readSpecified { s with events := evs } r = readSpecified s r := by
  cases r <;> rfl

/-- A read of a register whose value is specified answers that value and changes nothing else. -/
theorem step_read_reg (hoff : regOffset r = some off) (hspec : readSpecified s r = true)
    (hev : s.events = .host (.read 8 off) :: rest) :
    step s = .next { s with events := rest, resp := some (readReg s r) } := by
  obtain ⟨halign, hlt⟩ := regOffset_admitted hoff
  rw [step_read halign hlt hev, memRead, regAt_of_regOffset hoff, readSpecified_events, if_pos hspec, readReg_turn]

/-- A write that is not dropped follows its register's rule. -/
theorem step_write_reg (hoff : regOffset r = some off) (hfree : s.state ≠ .busy ∨ busyWritable r = true)
    (hev : s.events = .host (.write 8 off v) :: rest) :
    step s = .next (writeReg { s with events := rest, resp := none } v r) := by
  obtain ⟨halign, hlt⟩ := regOffset_admitted hoff
  have hkept : ¬(s.state = .busy ∧ busyWritable r = false) := by
    rintro ⟨hbusy, hdrop⟩
    rcases hfree with h | h
    · exact h hbusy
    · simp [hdrop] at h
  rw [step_write halign hlt hev, memWrite, regAt_of_regOffset hoff]
  simp only [if_neg hkept]

/-! Reads. -/

/-- The registers that read exactly in every state (R88), in the order of `exactReads`. -/
def exactRegs : List Reg :=
  [.id, .param, .cmd, .status, .errInfo, .intStatus, .intEnable, .nbits, .nrx, .snrStart, .snrEnd, .snrStep, .snrCur, .seed,
   .stream, .resultCount]

/-- The other registers outside the files and the RESULT memory, in the order of `idleReads`. -/
def idleRegs : List Reg :=
  [.ctrl, .bitIdx, .gaussIdx, .errcnt, .bitcnt, .degenCnt, .ber, .sigma, .bits, .bhat, .complex .s1 .re, .complex .s1 .im,
   .complex .s2 .re, .complex .s2 .im, .complex .x00 .re, .complex .x00 .im, .complex .x01 .re, .complex .x01 .im,
   .complex .x10 .re, .complex .x10 .im, .complex .x11 .re, .complex .x11 .im, .complex .z1 .re, .complex .z1 .im,
   .complex .z2 .re, .complex .z2 .im, .den]

/-- Registers with their offsets and what they read as: the form of the statements' lists. -/
def mapped (rs : List Reg) : List (Nat × (State → Word)) :=
  rs.filterMap fun r => (regOffset r).map fun off => (off, fun s => readReg s r)

theorem exists_reg_of_mem_mapped {rs : List Reg} {f : State → Word} (h : (off, f) ∈ mapped rs) :
    ∃ r ∈ rs, regOffset r = some off ∧ f = fun s => readReg s r := by
  obtain ⟨r, hr, heq⟩ := List.mem_filterMap.1 h
  obtain ⟨off', hoff, hpair⟩ := Option.map_eq_some_iff.1 heq
  cases hpair
  exact ⟨r, hr, hoff, rfl⟩

theorem toNat_append_add {m n : Nat} (x : BitVec m) (y : BitVec n) : (x ++ y).toNat = x.toNat * 2 ^ n + y.toNat := by
  rw [BitVec.toNat_append, ← Nat.shiftLeft_add_eq_or_of_lt y.isLt, Nat.shiftLeft_eq]

/-- The fields of STATUS, one above the other (R35). -/
theorem statusWord_eq (s : State) : statusWord s = statusBits s := by
  apply BitVec.eq_of_toNat_eq
  have hcode := s.errCode.isLt
  have hcause := s.errCause.isLt
  have hdrop := s.drop.toNat_le
  have hdegen := s.degen.toNat_le
  simp only [statusBits, statusWord, toNat_append_add, BitVec.toNat_ofNat, BitVec.toNat_ofBool]
  cases s.state <;> simp only [stateCode, BitVec.toNat_ofNat] <;> omega

theorem exactReads_eq : exactReads = mapped exactRegs := by
  have hstatus : statusBits = statusWord := funext fun s => (statusWord_eq s).symm
  have hint : ∀ f : BitVec 3, 0#61 ++ f = f.setWidth 64 := by decide
  simp only [exactReads, hstatus, hint]
  rfl

theorem idleReads_eq : idleReads = mapped idleRegs := by
  have hbits : ∀ b : BitVec 2, 0#62 ++ b = b.setWidth 64 := by decide
  simp only [idleReads, hbits]
  rfl

/-- Outside BUSY every register below the RESULT memory reads its value (R88). -/
theorem readSpecified_of_not_busy (hidle : s.state ≠ .busy) (hoff : regOffset r = some off) (hlow : off < 0x1000) :
    readSpecified s r = true := by
  cases r with
  | result k word =>
    simp only [regOffset, resultOffset, Option.some.injEq] at hoff
    omega
  | _ => simp [readSpecified, hidle]

theorem readSpecified_of_exact (hexact : exactWhileBusy r = true) : readSpecified s r = true := by
  unfold readSpecified
  split
  · cases hexact
  · simp [hexact]

theorem entry_eq (file : Vector Cplx 32) (i : Fin 32) : entry file i.val = file[i] := by
  simp [entry]

theorem readReg_h (i : Fin 32) (part : Part) : readReg s (.h i part) = getPart part (entry s.h i.val) := by
  rw [entry_eq, readReg]

theorem readReg_nz (i : Fin 32) (part : Part) : readReg s (.nz i part) = getPart part (entry s.nz i.val) := by
  rw [entry_eq, readReg]

theorem readReg_y (i : Fin 32) (part : Part) : readReg s (.y i part) = getPart part (entry s.y i.val) := by
  rw [entry_eq, readReg]

/-- Settles O15. -/
theorem exactReadsInEveryState : Obligations.ExactReadsInEveryState := by
  intro s rest off hev
  refine ⟨fun f hf => ?_, fun k word hoff hk => ?_⟩
  · rw [exactReads_eq] at hf
    obtain ⟨r, hr, hoff, rfl⟩ := exists_reg_of_mem_mapped hf
    have hexact : ∀ q ∈ exactRegs, exactWhileBusy q = true := by decide
    exact step_read_reg hoff (readSpecified_of_exact (hexact r hr)) hev
  · subst hoff
    exact step_read_reg (r := .result k word) rfl (decide_eq_true hk) hev

/-- Settles O14. -/
theorem fileElementsReadAtTheirOffsets : Obligations.FileElementsReadAtTheirOffsets := by
  intro s rest off hidle hev
  have hread {r : Reg} {w : Word} (hlow : off < 0x1000) (hoff : regOffset r = some off) (hw : readReg s r = w) :
      step s = .next { s with events := rest, resp := some w } :=
    hw ▸ step_read_reg hoff (readSpecified_of_not_busy hidle hoff hlow) hev
  refine ⟨fun f hf => ?_, fun a r => ⟨fun h => ?_, fun h => ?_⟩, fun r t => ⟨fun h => ?_, fun h => ?_, fun h => ?_, fun h => ?_⟩⟩
  · have hlow : ∀ p ∈ idleReads, p.1 < 0x1000 := by decide
    have hoff := hlow _ hf
    rw [idleReads_eq] at hf
    obtain ⟨r, -, hr, rfl⟩ := exists_reg_of_mem_mapped hf
    exact hread hoff hr rfl
  · exact hread (by omega) (by rw [h]; rfl) (readReg_h ⟨16 * a.val + r.val, by omega⟩ .re)
  · exact hread (by omega) (by rw [h]; rfl) (readReg_h ⟨16 * a.val + r.val, by omega⟩ .im)
  · exact hread (by omega) (by rw [h]; rfl) (readReg_nz ⟨2 * r.val + t.val, by omega⟩ .re)
  · exact hread (by omega) (by rw [h]; rfl) (readReg_nz ⟨2 * r.val + t.val, by omega⟩ .im)
  · exact hread (by omega) (by rw [h]; rfl) (readReg_y ⟨2 * r.val + t.val, by omega⟩ .re)
  · exact hread (by omega) (by rw [h]; rfl) (readReg_y ⟨2 * r.val + t.val, by omega⟩ .im)

end Sys2Proof.Aperture
end

section
/-! PROOFS. What writes store (R37 to R49, R59): the write rules as steps, and that a data write changes one word of the aperture. -/

namespace Sys2Proof.Aperture
open Sys2Proof Sys2Proof.Machine Sys2Proof.Claims

variable {s : State} {v : Word} {r : Reg}

/-! Read-only registers. -/

/-- The read-only registers (R30). -/
def readOnlyReg : Reg → Bool
  | .id | .param | .status | .errInfo | .errcnt | .bitcnt | .degenCnt | .ber | .sigma | .resultCount | .bhat | .den
  | .result _ _ => true
  | _ => false

theorem writeReg_of_readOnly (h : readOnlyReg r = true) : writeReg s v r = s := by
  cases r <;> first | rfl | cases h

theorem readOnlyReg_regAt {off : Nat} (halign : off % 8 = 0) (h : inReadOnly off) : readOnlyReg (regAt off) = true := by
  have hcontrol : ∀ n : Fin 26, inReadOnly (8 * n.val) → readOnlyReg (controlReg n.val) = true := by
    unfold inReadOnly
    decide
  have hregion : off < 0x0D0 ∨ (0x180 ≤ off ∧ off < 0x188) ∨ (0x1000 ≤ off ∧ off < 0x3000) := by
    unfold inReadOnly at h
    omega
  obtain hhi | ⟨hlo, hhi⟩ | ⟨hlo, hhi⟩ := hregion
  · rw [regAt_control hhi]
    refine hcontrol ⟨off / 8, by omega⟩ ?_
    rwa [show 8 * (off / 8) = off by omega]
  · rw [regAt_den hlo hhi]
    rfl
  · rw [regAt_result hlo hhi]
    rfl

/-- Settles O22. -/
theorem readOnlyWritesAreIgnored : Obligations.ReadOnlyWritesAreIgnored := by
  intro s rest off v hidle halign hro hev
  have hoff : regOffset (regAt off) = some off := by
    unfold inReadOnly at hro
    exact regOffset_regAt halign (by omega) (by unfold inReserved; omega)
  rw [step_write_reg hoff (.inl hidle) hev, writeReg_of_readOnly (readOnlyReg_regAt halign hro)]

/-! Configuration and interrupt registers. -/

/-- Settles O21. -/
theorem configurationWritesAreStored : Obligations.ConfigurationWritesAreStored := by
  intro s rest off v hidle hev
  have hwrite (r : Reg) (hoff : regOffset r = some off) :
      step s = .next (writeReg { s with events := rest, resp := none } v r) := step_write_reg hoff (.inl hidle) hev
  rw [← BitVec.setWidth_eq_extractLsb' (show 32 ≤ 64 by decide), ← BitVec.setWidth_eq_extractLsb' (show 2 ≤ 64 by decide)]
  exact ⟨fun h => hwrite .nbits (h ▸ rfl), fun h => hwrite .nrx (h ▸ rfl), fun h => hwrite .snrStart (h ▸ rfl),
    fun h => hwrite .snrEnd (h ▸ rfl), fun h => hwrite .snrStep (h ▸ rfl), fun h => hwrite .snrCur (h ▸ rfl),
    fun h => hwrite .seed (h ▸ rfl), fun h => hwrite .stream (h ▸ rfl), fun h => hwrite .bitIdx (h ▸ rfl),
    fun h => hwrite .gaussIdx (h ▸ rfl), fun h => hwrite .bits (h ▸ rfl)⟩

theorem getLsbD_acknowledge (f : BitVec 3) {b : Nat} (hb : b < 3) :
    (acknowledge f v).getLsbD b = (f.getLsbD b && !v.getLsbD b) := by
  simp [acknowledge, hb]

/-- Settles O23. -/
theorem interruptRegisterWrites : Obligations.InterruptRegisterWrites := by
  intro s rest v
  refine ⟨fun hev => ⟨_, step_write_reg (r := .intStatus) rfl (.inr rfl) hev, rfl, fun b hb => getLsbD_acknowledge _ hb⟩,
    fun hev => ?_⟩
  rw [step_write_reg (r := .intEnable) rfl (.inr rfl) hev, ← BitVec.setWidth_eq_extractLsb' (by decide)]
  rfl

/-! Data registers: one word is replaced, every other stays. -/

/-- The data registers and files (R59). -/
def dataReg : Reg → Bool
  | .complex _ _ | .h _ _ | .nz _ _ | .y _ _ => true
  | _ => false

theorem dataReg_regAt {off : Nat} (h : inData off) : dataReg (regAt off) = true := by
  have hregion : (0x100 ≤ off ∧ off < 0x180) ∨ (0x200 ≤ off ∧ off < 0x400) ∨ (0x400 ≤ off ∧ off < 0x600) ∨
      (0x600 ≤ off ∧ off < 0x800) := by
    unfold inData at h
    omega
  obtain ⟨hlo, hhi⟩ | ⟨hlo, hhi⟩ | ⟨hlo, hhi⟩ | ⟨hlo, hhi⟩ := hregion
  · rw [regAt_complex hlo hhi]
    rfl
  · rw [regAt_h hlo hhi]
    rfl
  · rw [regAt_nz hlo hhi]
    rfl
  · rw [regAt_y hlo hhi]
    rfl

@[simp] theorem getPart_setPart_same (part : Part) (z : Cplx) : getPart part (setPart v part z) = v := by
  cases part <;> rfl

theorem getPart_setPart_other {part other : Part} (hne : other ≠ part) (z : Cplx) :
    getPart other (setPart v part z) = getPart other z := by
  cases part <;> cases other <;> first | rfl | exact absurd rfl hne

@[simp] theorem getComplex_setComplex_same (c : CReg) (z : Cplx) : getComplex (setComplex s z c) c = z := by
  cases c <;> rfl

theorem getComplex_setComplex_other {c d : CReg} (hne : d ≠ c) (z : Cplx) :
    getComplex (setComplex s z c) d = getComplex s d := by
  cases c <;> cases d <;> first | rfl | exact absurd rfl hne

/-- Replacing a part of one file element leaves every other word of the file alone. -/
theorem getPart_set_other {file : Vector Cplx 32} {i j : Fin 32} {part other : Part} (hne : j = i → other ≠ part) :
    getPart other (file.set i (setPart v part file[i]))[j] = getPart other file[j] := by
  by_cases hji : j = i
  · subst hji
    simp [getPart_setPart_other (hne rfl)]
  · have hval : i.val ≠ j.val := fun h => hji (Fin.ext h.symm)
    simp [hval]

theorem readReg_writeReg_same (hdata : dataReg r = true) : readReg (writeReg s v r) r = v := by
  cases r with
  | complex c part => simp [writeReg, readReg]
  | h i part | nz i part | y i part => simp [writeReg, readReg]
  | _ => cases hdata

theorem readReg_writeReg_other (hdata : dataReg r = true) {q : Reg} (hne : q ≠ r) :
    readReg (writeReg s v r) q = readReg s q := by
  cases r with
  | complex c part =>
    cases q with
    | complex d other =>
      by_cases hdc : d = c
      · subst hdc
        have hpart : other ≠ part := fun h => hne (by rw [h])
        simp [writeReg, readReg, getPart_setPart_other hpart]
      · simp [writeReg, readReg, getComplex_setComplex_other hdc]
    | _ => cases c <;> rfl
  | h i part =>
    cases q with
    | h j other => exact getPart_set_other fun hji h => hne (by rw [hji, h])
    | complex d other => cases d <;> rfl
    | _ => rfl
  | nz i part =>
    cases q with
    | nz j other => exact getPart_set_other fun hji h => hne (by rw [hji, h])
    | complex d other => cases d <;> rfl
    | _ => rfl
  | y i part =>
    cases q with
    | y j other => exact getPart_set_other fun hji h => hne (by rw [hji, h])
    | complex d other => cases d <;> rfl
    | _ => rfl
  | _ => cases hdata

/-- A data write leaves the hidden state and the RESULT memory alone. -/
theorem writeReg_data_frame (hdata : dataReg r = true) :
    (writeReg s v r).events = s.events ∧ (writeReg s v r).draws = s.draws ∧ (writeReg s v r).phase = s.phase ∧
      (writeReg s v r).abortReq = s.abortReq ∧ (writeReg s v r).k = s.k ∧ (writeReg s v r).p = s.p ∧
      (writeReg s v r).cwdone = s.cwdone ∧ (writeReg s v r).result = s.result := by
  cases r with
  | complex c part => cases c <;> simp [writeReg, setComplex]
  | h i part | nz i part | y i part => simp [writeReg]
  | _ => cases hdata

/-- Settles O20. -/
theorem dataWritesAreStored : Obligations.DataWritesAreStored := by
  intro s rest off v hidle halign hin hev
  have hdata := dataReg_regAt hin
  have hoff : regOffset (regAt off) = some off := by
    unfold inData at hin
    exact regOffset_regAt halign (by omega) (by unfold inReserved; omega)
  obtain ⟨hevents, hdraws, hphase, habort, hk, hp, hcwdone, hresult⟩ :=
    writeReg_data_frame (s := { s with events := rest, resp := none }) (v := v) hdata
  refine ⟨_, step_write_reg hoff (.inl hidle) hev, readReg_writeReg_same hdata, hevents, hdraws, hphase, habort, hk, hp, hcwdone,
    hresult, fun off' halign' hlt' hne => ?_⟩
  have hreg : regAt off' ≠ regAt off := by
    intro heq
    have hnot : ¬inReserved off' := fun hres => by
      rw [← heq, regAt_of_inReserved hres] at hdata
      cases hdata
    have hoff' := regOffset_regAt halign' hlt' hnot
    rw [heq, hoff] at hoff'
    exact hne (Option.some.inj hoff').symm
  rw [readReg_writeReg_other hdata hreg, readReg_turn]

end Sys2Proof.Aperture
end

section
/-! PROOFS. What a core step leaves unchanged (R60): every step is one of seven updates, and each has its frame. -/

namespace Sys2Proof.CoreFrame
open Sys2Proof Sys2Proof.Machine Sys2Proof.Claims

variable {s t u : State} {i : Instr}

/-! Everything a core step can do. -/

/-- The body of a command that ends in its one step; RUNPT and SWEEP have none (R261). -/
def unitBody : Instr → Option (State → State)
  | .nop => some nopBody
  | .drawb => some (drawbBody Config.gen)
  | .map => some mapBody
  | .enc norm => some (encBody norm)
  | .drawh => some (drawhBody Config.gen)
  | .drawn => some (drawnBody Config.gen)
  | .chan => some chanBody
  | .comb => some combBody
  | .det => some detBody
  | .clracc => some clraccBody
  | .cword => some (cwordBody Config.gen)
  | .runpt => none
  | .sweep => none

theorem exec_of_unitBody {body : State → State} (h : unitBody i = some body) (s : State) : exec i s = unitStep body s := by
  cases i <;> cases h <;> rfl

/-- The states a core step of a command can lead to. -/
inductive CoreStep (s : State) : Instr → State → Prop
  | unit {i : Instr} {body : State → State} (hbody : unitBody i = some body) : CoreStep s i (endCmd .done (body s))
  | abort {i : Instr} (hmulti : unitBody i = none) : CoreStep s i (endCmd .aborted s)
  | start {i : Instr} (hmulti : unitBody i = none) (hphase : s.phase = .swStart) : CoreStep s i (sweepStart s)
  | point {i : Instr} (hmulti : unitBody i = none) (sweep : Bool) : CoreStep s i (pointStart sweep s)
  | codeword {i : Instr} (hmulti : unitBody i = none) : CoreStep s i (pointCodeword Config.gen s)
  | finish : CoreStep s .runpt (endCmd .done (finalisePoint s))
  | record : CoreStep s .sweep (sweepFinal s)

theorem coreStep_of_exec (h : exec i s = .next t) : CoreStep s i t := by
  cases hbody : unitBody i with
  | some body =>
    rw [exec_of_unitBody hbody] at h
    rw [unitStep_next _ _ _ h]
    exact .unit hbody
  | none =>
    cases i with
    | runpt =>
      obtain ⟨-, -, rfl⟩ | ⟨-, ⟨hphase, rfl⟩ | ⟨-, rfl⟩ | ⟨-, rfl⟩ | ⟨-, rfl⟩⟩ := sequencerStep_next _ _ _ _ h
      · exact .abort hbody
      · exact .start hbody hphase
      · exact .point hbody false
      · exact .codeword hbody
      · exact .finish
    | sweep =>
      obtain ⟨-, -, rfl⟩ | ⟨-, ⟨hphase, rfl⟩ | ⟨-, rfl⟩ | ⟨-, rfl⟩ | ⟨-, rfl⟩⟩ := sequencerStep_next _ _ _ _ h
      · exact .abort hbody
      · exact .start hbody hphase
      · exact .point hbody true
      · exact .codeword hbody
      · exact .record
    | _ => cases hbody

/-! The command, the errors, the configuration and the host's side. -/

/-- What every core step leaves alone, and where it may lead STATE (R60, R261, R286). -/
def ControlKept (s t : State) : Prop :=
  t.cmd = s.cmd ∧ t.drop = s.drop ∧ t.errCode = s.errCode ∧ t.errCause = s.errCause ∧ t.errInfo = s.errInfo ∧
  t.intEnable = s.intEnable ∧ t.nbits = s.nbits ∧ t.nrx = s.nrx ∧ t.snrStart = s.snrStart ∧ t.snrEnd = s.snrEnd ∧
  t.snrStep = s.snrStep ∧ t.seed = s.seed ∧ t.p = s.p ∧ t.resp = s.resp ∧ t.events = s.events ∧
  (t.state = s.state ∨ t.state = .done ∨ t.state = .aborted)

theorem sweepFinal_controlKept (s : State) : ControlKept s (sweepFinal s) := by
  rw [sweepFinal_eq]
  split <;> simp [ControlKept]

theorem CoreStep.controlKept (h : CoreStep s i t) : ControlKept s t := by
  cases h with
  | unit hbody => cases i <;> cases hbody <;> simp [ControlKept]
  | record => exact sweepFinal_controlKept s
  | abort | start | point | codeword | finish => simp [ControlKept]

/-! The point of a sweep and its results. -/

/-- What only a SWEEP writes. -/
def SweepKept (s t : State) : Prop :=
  t.snrCur = s.snrCur ∧ t.stream = s.stream ∧ t.result = s.result ∧ t.resultCount = s.resultCount ∧ t.k = s.k

/-- No other command writes what a SWEEP writes: a legal RUNPT is never at SW_START, the one phase where its step would. -/
theorem CoreStep.sweepKept (h : CoreStep s i t) (hne : i ≠ .sweep) (hphase : i = .runpt → s.phase ≠ .swStart) :
    SweepKept s t := by
  cases h with
  | unit hbody => cases i <;> cases hbody <;> simp [SweepKept]
  | start hmulti hstart =>
    cases i with
    | runpt => exact absurd hstart (hphase rfl)
    | sweep => exact absurd rfl hne
    | _ => cases hmulti
  | record => exact absurd rfl hne
  | abort | point | codeword | finish => simp [SweepKept]

theorem runpt_phase_of_legal (hlegal : LegalState s) (hbusy : s.state = .busy) (hdec : decode s.cmd = .ok .runpt) :
    s.phase ≠ .swStart := by
  obtain ⟨i, hi, hrun⟩ := hlegal.sequencer.2 hbusy
  obtain rfl : i = .runpt := Except.ok.inj (hi.symm.trans hdec)
  exact hrun.2.1

/-- A command other than RUNPT and SWEEP takes the step of its body. -/
theorem CoreStep.eq_unit (h : CoreStep s i t) (hsweep : i ≠ .sweep) (hrunpt : i ≠ .runpt) :
    ∃ body, unitBody i = some body ∧ t = endCmd .done (body s) := by
  have hunit : unitBody i ≠ none := by cases i <;> simp_all [unitBody]
  cases h with
  | unit hbody => exact ⟨_, hbody, rfl⟩
  | finish => exact absurd rfl hrunpt
  | record => exact absurd rfl hsweep
  | abort hmulti | start hmulti | point hmulti | codeword hmulti => exact absurd hmulti hunit

theorem CoreStep.point_kept (h : CoreStep s i t) (hsweep : i ≠ .sweep) (hrunpt : i ≠ .runpt) :
    t.ber = s.ber ∧ t.cwdone = s.cwdone := by
  obtain ⟨body, hbody, rfl⟩ := h.eq_unit hsweep hrunpt
  cases i <;> cases hbody <;> simp

/-! The flags. -/

theorem getLsbD_setIntDone (f : BitVec 3) (b : Nat) : (setIntDone f).getLsbD b = (f.getLsbD b || decide (b = 0)) := by
  rw [setIntDone, BitVec.getLsbD_or, show 1#3 = BitVec.twoPow 3 0 by decide, BitVec.getLsbD_twoPow]
  simp [eq_comm]

@[simp] theorem getElem_setIntDone (f : BitVec 3) (b : Nat) (hb : b < 3) : (setIntDone f)[b] = (f[b] || decide (b = 0)) := by
  rw [← BitVec.getLsbD_eq_getElem, getLsbD_setIntDone, BitVec.getLsbD_eq_getElem]

theorem getLsbD_setIntDegen (f : BitVec 3) (b : Nat) : (setIntDegen f).getLsbD b = (f.getLsbD b || decide (b = 2)) := by
  rw [setIntDegen, BitVec.getLsbD_or, show 4#3 = BitVec.twoPow 3 2 by decide, BitVec.getLsbD_twoPow]
  simp [eq_comm]

/-- No bit of INT_STATUS is cleared, its ERROR bit stays, DEGEN is not cleared (R286, R301). -/
def FlagsKept (s t : State) : Prop :=
  (∀ b, s.intStatus.getLsbD b = true → t.intStatus.getLsbD b = true) ∧ t.intStatus.getLsbD 1 = s.intStatus.getLsbD 1 ∧
  (s.degen = true → t.degen = true)

theorem FlagsKept.of_eq (hint : t.intStatus = s.intStatus) (hdegen : t.degen = s.degen) : FlagsKept s t := by
  simp [FlagsKept, hint, hdegen]

theorem FlagsKept.trans (hst : FlagsKept s t) (htu : FlagsKept t u) : FlagsKept s u := by
  obtain ⟨hbits, herror, hdegen⟩ := hst
  obtain ⟨hbits', herror', hdegen'⟩ := htu
  exact ⟨fun b hb => hbits' b (hbits b hb), herror'.trans herror, fun h => hdegen' (hdegen h)⟩

theorem endCmd_flagsKept (x : CmdState) (s : State) : FlagsKept s (endCmd x s) :=
  ⟨fun b hb => by simp [getLsbD_setIntDone, hb], by simp, by simp⟩

theorem combBody_flagsKept (s : State) : FlagsKept s (combBody s) := by
  unfold FlagsKept combBody
  dsimp only
  split
  · exact ⟨fun b hb => by simp [getLsbD_setIntDegen, hb], (getLsbD_setIntDegen _ 1).trans (Bool.or_false _), fun _ => rfl⟩
  · exact ⟨fun _ hb => hb, rfl, fun h => h⟩

/-- The bodies before COMB and the one after it write no flag. -/
theorem cwordBody_flagsKept (g : Gen) (s : State) : FlagsKept s (cwordBody g s) := by
  have hbefore : FlagsKept s (chanBody (drawnBody g (drawhBody g (encBody true (mapBody (drawbBody g s)))))) :=
    .of_eq (by simp) (by simp)
  have hafter : ∀ q : State, FlagsKept q (detBody q) := fun q => .of_eq (by simp) (by simp)
  exact (hbefore.trans (combBody_flagsKept _)).trans (hafter _)

theorem unitBody_flagsKept {body : State → State} (hbody : unitBody i = some body) (s : State) : FlagsKept s (body s) := by
  cases i with
  | comb => cases hbody; exact combBody_flagsKept s
  | cword => cases hbody; exact cwordBody_flagsKept _ s
  | _ => cases hbody <;> exact .of_eq (by simp) (by simp)

theorem sweepFinal_flagsKept (s : State) : FlagsKept s (sweepFinal s) := by
  have hrecord : FlagsKept s { recordPoint (finalisePoint s) with k := s.k + 1 } := .of_eq (by simp) (by simp)
  rw [sweepFinal_eq]
  split
  · exact hrecord.trans (endCmd_flagsKept _ _)
  · exact hrecord.trans (.of_eq rfl rfl)

theorem CoreStep.flagsKept (h : CoreStep s i t) : FlagsKept s t := by
  cases h with
  | unit hbody => exact (unitBody_flagsKept hbody s).trans (endCmd_flagsKept _ _)
  | abort => exact endCmd_flagsKept _ s
  | start | point => exact .of_eq rfl rfl
  | codeword => exact (cwordBody_flagsKept Config.gen s).trans (.of_eq (by simp) (by simp))
  | finish => exact FlagsKept.trans (.of_eq rfl rfl) (endCmd_flagsKept _ (finalisePoint s))
  | record => exact sweepFinal_flagsKept s

/-! The file entries of the antennas that R leaves out. -/

theorem entry_hIdx (file : Vector Cplx 32) (j : Fin 2) (r : Fin 16) : entry file (16 * j.val + r.val) = file[hIdx j r] := by
  rw [← Aperture.entry_eq, hIdx_val _ _ j.isLt r.isLt]

theorem entry_slotIdx (file : Vector Cplx 32) (r : Fin 16) (j : Fin 2) : entry file (2 * r.val + j.val) = file[slotIdx r j] := by
  rw [← Aperture.entry_eq, slotIdx_val _ _ r.isLt j.isLt]

/-- `H[a][r]`, `NZ[r][t]` and `Y[r][t]` with r ≥ NRX are unchanged. -/
def UnusedKept (s t : State) : Prop :=
  ∀ (r : Fin 16) (j : Fin 2), s.nrx.toNat ≤ r.val →
    entry t.h (16 * j.val + r.val) = entry s.h (16 * j.val + r.val) ∧
    entry t.nz (2 * r.val + j.val) = entry s.nz (2 * r.val + j.val) ∧
    entry t.y (2 * r.val + j.val) = entry s.y (2 * r.val + j.val)

theorem UnusedKept.of_eq (hh : t.h = s.h) (hnz : t.nz = s.nz) (hy : t.y = s.y) : UnusedKept s t :=
  fun _ _ _ => by rw [hh, hnz, hy]; exact ⟨rfl, rfl, rfl⟩

theorem UnusedKept.of_files_eq (hst : UnusedKept s t) (hh : u.h = t.h) (hnz : u.nz = t.nz) (hy : u.y = t.y) :
    UnusedKept s u :=
  fun r j hr => by rw [hh, hnz, hy]; exact hst r j hr

theorem UnusedKept.trans (hst : UnusedKept s t) (hnrx : t.nrx = s.nrx) (htu : UnusedKept t u) : UnusedKept s u := by
  intro r j hr
  obtain ⟨hh, hnz, hy⟩ := hst r j hr
  obtain ⟨hh', hnz', hy'⟩ := htu r j (hnrx ▸ hr)
  exact ⟨hh'.trans hh, hnz'.trans hnz, hy'.trans hy⟩

theorem drawhBody_unusedKept (g : Gen) (s : State) : UnusedKept s (drawhBody g s) := by
  intro r j hr
  rw [entry_hIdx, entry_hIdx]
  exact ⟨drawhBody_other g s j r j.isLt r.isLt hr, rfl, rfl⟩

theorem drawnBody_unusedKept (g : Gen) (s : State) : UnusedKept s (drawnBody g s) := by
  intro r j hr
  refine ⟨rfl, ?_, rfl⟩
  rw [entry_slotIdx, entry_slotIdx]
  exact drawnBody_other g s r j r.isLt j.isLt hr

theorem chanBody_unusedKept (s : State) : UnusedKept s (chanBody s) := by
  intro r j hr
  refine ⟨rfl, rfl, ?_⟩
  rw [entry_slotIdx, entry_slotIdx]
  exact chanBody_other s r j r.isLt j.isLt hr

/-- Of the eight bodies DRAWH, DRAWN and CHAN write the files, and none writes NRX. -/
theorem cwordBody_unusedKept (g : Gen) (s : State) : UnusedKept s (cwordBody g s) := by
  have hencoded : UnusedKept s (encBody true (mapBody (drawbBody g s))) :=
    .of_eq (by simp) (by simp) (by simp)
  have hdrawh := hencoded.trans (by simp) (drawhBody_unusedKept g _)
  have hdrawn := hdrawh.trans (by simp) (drawnBody_unusedKept g _)
  have hchan := hdrawn.trans (by simp) (chanBody_unusedKept _)
  have hafter : ∀ q : State, UnusedKept q (detBody (combBody q)) := fun q => .of_eq (by simp) (by simp) (by simp)
  exact hchan.trans (by simp) (hafter _)

theorem unitBody_unusedKept {body : State → State} (hbody : unitBody i = some body) (s : State) : UnusedKept s (body s) := by
  cases i with
  | drawh => cases hbody; exact drawhBody_unusedKept _ s
  | drawn => cases hbody; exact drawnBody_unusedKept _ s
  | chan => cases hbody; exact chanBody_unusedKept s
  | cword => cases hbody; exact cwordBody_unusedKept _ s
  | _ => cases hbody <;> exact .of_eq (by simp) (by simp) (by simp)

theorem sweepFinal_unusedKept (s : State) : UnusedKept s (sweepFinal s) := by
  rw [sweepFinal_eq]
  split <;> exact .of_eq (by simp) (by simp) (by simp)

theorem CoreStep.unusedKept (h : CoreStep s i t) : UnusedKept s t := by
  cases h with
  | unit hbody => exact (unitBody_unusedKept hbody s).of_files_eq (by simp) (by simp) (by simp)
  | codeword => exact (cwordBody_unusedKept Config.gen s).of_files_eq (by simp) (by simp) (by simp)
  | record => exact sweepFinal_unusedKept s
  | abort | start | point | finish => exact .of_eq (by simp) (by simp) (by simp)

/-! The rows of R60. -/

theorem CoreStep.unitWrites_kept (h : CoreStep s i t) (hpipeline : runsPipeline i = false) :
    ∀ row ∈ unitWrites, i ∉ row.1 → row.2 s t := by
  have hsweep : i ≠ .sweep := by rintro rfl; cases hpipeline
  have hrunpt : i ≠ .runpt := by rintro rfl; cases hpipeline
  obtain ⟨body, hbody, rfl⟩ := h.eq_unit hsweep hrunpt
  cases i with
  | cword => cases hpipeline
  | enc norm => cases hbody; cases norm <;> simp [unitWrites]
  | _ => cases hbody <;> simp [unitWrites]

/-- Settles O12. -/
theorem commandsWriteOnlyTheirRegisters : Obligations.CommandsWriteOnlyTheirRegisters := by
  intro i s t hlegal hbusy hdec hexec
  have hstep := coreStep_of_exec hexec
  have hphase : i = .runpt → s.phase ≠ .swStart := fun hi => runpt_phase_of_legal hlegal hbusy (hi ▸ hdec)
  exact ⟨hstep.controlKept, fun hne => hstep.sweepKept hne hphase, hstep.point_kept,
    fun row hrow hout hpipeline => hstep.unitWrites_kept hpipeline row hrow hout, hstep.unusedKept, hstep.flagsKept⟩

end Sys2Proof.CoreFrame
end

section
/-! PROOFS. The accesses that reach no register's value or storage: bus errors (R84), reserved offsets (R82), unspecified reads (R54, R88) and
writes dropped while BUSY (R87). -/

namespace Sys2Proof.Aperture
open Sys2Proof Sys2Proof.Machine Sys2Proof.Claims

variable {s : State} {rest : List Event} {off : Nat} {v : Word} {r : Reg}

/-! Bus errors. -/

/-- The three conditions of R84. -/
theorem wellFormed_iff (a : Access) : a.wellFormed = true ↔ a.width = 8 ∧ a.off % 8 = 0 ∧ a.off < 0x4000 := by
  simp only [Access.wellFormed, Access.widthOk, Access.aligned, Access.inAperture, Bool.and_eq_true, decide_eq_true_eq, and_assoc]
  rfl

theorem step_bus_error {a : Access} (hbad : a.width ≠ 8 ∨ a.off % 8 ≠ 0 ∨ 0x4000 ≤ a.off) (hev : s.events = .host a :: rest) :
    step s = .fault (.busError a.width a.off) := by
  have hrefused : ¬a.wellFormed = true := by
    rw [wellFormed_iff]
    omega
  exact (step_of_events hev).trans (if_neg hrefused)

/-- Settles O18. -/
theorem badAccessGetsABusError : Obligations.BadAccessGetsABusError :=
  fun _ _ width off hbad =>
    ⟨step_bus_error (a := .read width off) hbad, fun v => step_bus_error (a := .write width off v) hbad⟩

/-! Reserved offsets. -/

theorem lt_aperture_of_inReserved (h : inReserved off) : off < 0x4000 := by
  unfold inReserved at h
  omega

/-- A reserved offset has no register and so no `regOffset`: its accesses are read off the register map directly. -/
theorem memRead_of_inReserved (h : inReserved off) (s : State) : memRead off s = { s with resp := some 0#64 } := by
  rw [memRead, regAt_of_inReserved h, if_pos (readSpecified_of_exact rfl), readReg]

theorem memWrite_of_inReserved (h : inReserved off) (v : Word) (s : State) : memWrite off v s = { s with resp := none } := by
  obtain ⟨-, hlocked, -⟩ | ⟨-, hrule⟩ := memWrite_cases off v s
  · rw [regAt_of_inReserved h] at hlocked
    cases hlocked
  · rw [hrule, regAt_of_inReserved h, writeReg]

/-- Settles O17. -/
theorem reservedOffsetsReadZeroAndIgnoreWrites : Obligations.ReservedOffsetsReadZeroAndIgnoreWrites := by
  intro s rest off halign hres
  have hlt := lt_aperture_of_inReserved hres
  exact ⟨fun hev => by rw [step_read halign hlt hev, memRead_of_inReserved hres],
    fun v hev => by rw [step_write halign hlt hev, memWrite_of_inReserved hres]⟩

/-! Unspecified reads. -/

/-- A read of a register whose value is not specified answers the next free value. -/
theorem step_read_free (hoff : regOffset r = some off) (hfree : readSpecified s r = false)
    (hev : s.events = .host (.read 8 off) :: rest) :
    step s = .next { s with events := rest, resp := some (Config.freeRead s.draws), draws := s.draws + 1 } := by
  obtain ⟨halign, hlt⟩ := regOffset_admitted hoff
  rw [step_read halign hlt hev, memRead, regAt_of_regOffset hoff, readSpecified_events, if_neg (by simp [hfree])]

/-- The registers that stand at the offsets R88 does not list do not read exactly while BUSY. -/
theorem readSpecified_of_inexact (hbusy : s.state = .busy) (hoff : regOffset r = some off) (h : inexactWhileBusy off) :
    readSpecified s r = false := by
  unfold inexactWhileBusy at h
  cases r with
  | result k word =>
    cases hoff
    unfold resultOffset at h
    omega
  | ctrl | bitIdx | gaussIdx | errcnt | bitcnt | degenCnt | ber | sigma | bits | bhat | complex _ _ | den | h _ _ | nz _ _ | y _ _ =>
    simp [readSpecified, exactWhileBusy, hbusy]
  | _ => cases hoff <;> omega

/-- A RESULT entry at or above RESULT_COUNT reads as nothing the spec states (R54). -/
theorem readSpecified_of_not_finalised (hlo : 0x1000 ≤ off) (hhi : off < 0x3000)
    (hcount : s.resultCount.toNat ≤ (off - 0x1000) / 32) : readSpecified s (regAt off) = false := by
  have hentry : (off - 0x1000) / 32 % 256 = (off - 0x1000) / 32 := Nat.mod_eq_of_lt (by omega)
  rw [regAt_result hlo hhi]
  simpa [readSpecified, hentry] using hcount

/-- Settles O16. -/
theorem unspecifiedReadsReturnAFreeValue : Obligations.UnspecifiedReadsReturnAFreeValue := by
  intro s rest off hev halign hcase
  have hoff : regOffset (regAt off) = some off := by
    unfold inexactWhileBusy at hcase
    exact regOffset_regAt halign (by omega) (by unfold inReserved; omega)
  obtain ⟨hbusy, hin⟩ | ⟨hlo, hhi, hcount⟩ := hcase
  · exact step_read_free hoff (readSpecified_of_inexact hbusy hoff hin) hev
  · exact step_read_free hoff (readSpecified_of_not_finalised hlo hhi hcount) hev

/-! Writes dropped while BUSY. -/

/-- The registers at the offsets that R87 does not except are those whose writes are dropped. -/
theorem busyWritable_eq_false_of_regOffset (hoff : regOffset r = some off) (hctrl : off ≠ 0x010) (hstatus : off ≠ 0x030)
    (henable : off ≠ 0x038) : busyWritable r = false := by
  cases r with
  | ctrl => cases hoff; exact absurd rfl hctrl
  | intStatus => cases hoff; exact absurd rfl hstatus
  | intEnable => cases hoff; exact absurd rfl henable
  | reserved => cases hoff
  | _ => rfl

theorem step_write_dropped (hoff : regOffset r = some off) (hbusy : s.state = .busy) (hlocked : busyWritable r = false)
    (hev : s.events = .host (.write 8 off v) :: rest) :
    step s = .next { s with events := rest, resp := none, drop := true } := by
  obtain ⟨halign, hlt⟩ := regOffset_admitted hoff
  rw [step_write halign hlt hev, memWrite, regAt_of_regOffset hoff]
  exact congrArg _ (if_pos ⟨hbusy, hlocked⟩)

/-- Settles O19. -/
theorem writesWhileBusyAreDropped : Obligations.WritesWhileBusyAreDropped := by
  intro s rest off v hbusy halign hlt hres hctrl hstatus henable hev
  have hoff := regOffset_regAt halign hlt hres
  exact step_write_dropped hoff hbusy (busyWritable_eq_false_of_regOffset hoff hctrl hstatus henable) hev

end Sys2Proof.Aperture
end

section
/-! PROOFS. Command words (R110 to R113): a word is its three fields, so the words that decode are the encodings of the commands, which are
the legal words; and what the issue of an illegal word does. -/

namespace Sys2Proof.Encoding
open Sys2Proof Sys2Proof.Machine Sys2Proof.Claims

/-! The fields of a word (R110). -/

theorem opcOf_eq (w : Word) : opcOf w = (w.extractLsb' 0 8).toNat := by
  rw [opcOf, BitVec.extractLsb'_toNat, Nat.shiftRight_zero]

/-- A word by its fields: reserved bits, NORM, OPC. -/
theorem toNat_eq_fields (w : Word) : w.toNat = 512 * reservedOf w + 256 * (normOf w).toNat + opcOf w := by
  rw [normOf, BitVec.getLsbD, Nat.toNat_testBit, reservedOf, opcOf]
  omega

theorem eq_of_fields {w v : Word} (hres : reservedOf w = reservedOf v) (hnorm : normOf w = normOf v) (hopc : opcOf w = opcOf v) :
    w = v := by
  apply BitVec.eq_of_toNat_eq
  rw [toNat_eq_fields w, toNat_eq_fields v, hres, hnorm, hopc]

theorem reservedOf_eq_zero_iff (w : Word) : reservedOf w = 0 ↔ w.extractLsb' 9 55 = 0#55 := by
  have hlt := w.isLt
  rw [← BitVec.toNat_inj, BitVec.extractLsb'_toNat, Nat.shiftRight_eq_div_pow, BitVec.toNat_ofNat, reservedOf]
  omega

/-- The three conditions of R112 by the fields of the word. -/
theorem legal_iff (w : Word) : legal w ↔ opcOf w ≤ 0x0C ∧ reservedOf w = 0 ∧ (normOf w = false ∨ opcOf w = 3) := by
  rw [legal, reservedOf_eq_zero_iff, opcOf_eq, normOf, ← BitVec.toNat_inj (y := 3#8)]
  rfl

/-! The opcode map (R111). -/

theorem opcodeOf_le (i : Instr) : opcodeOf i ≤ 0x0C := by cases i <;> simp [opcodeOf]

theorem opcodeOf_eq_of_normBit {i : Instr} (h : normBit i = true) : opcodeOf i = 3 := by
  cases i with
  | enc => rfl
  | _ => cases h

@[simp] theorem instrOfOpcode_opcodeOf (i : Instr) : instrOfOpcode (opcodeOf i) (normBit i) = some i := by cases i <;> rfl

/-- The row of an opcode has that opcode; it carries the NORM bit given where it is ENC's, and 0 elsewhere. -/
theorem fields_of_instrOfOpcode {opc : Nat} {norm : Bool} {i : Instr} (h : instrOfOpcode opc norm = some i) :
    opcodeOf i = opc ∧ normBit i = (norm && decide (opc = 3)) := by
  unfold instrOfOpcode at h
  split at h <;> cases h <;> simp [opcodeOf, normBit]

theorem instrOfOpcode_eq_none_iff (opc : Nat) (norm : Bool) : instrOfOpcode opc norm = none ↔ 0x0C < opc := by
  constructor
  · intro hnone
    by_contra hle
    interval_cases opc <;> cases hnone
  · intro hlt
    by_contra hsome
    obtain ⟨i, hi⟩ := Option.ne_none_iff_exists'.1 hsome
    have := opcodeOf_le i
    have := (fields_of_instrOfOpcode hi).1
    omega

/-! The encoder. -/

theorem toNat_encode (i : Instr) : (encode i).toNat = 256 * (normBit i).toNat + opcodeOf i := by
  have := opcodeOf_le i
  rw [encode, Aperture.toNat_append_add, Aperture.toNat_append_add, BitVec.toNat_ofBool, BitVec.toNat_ofNat, BitVec.toNat_ofNat]
  omega

@[simp] theorem opcOf_encode (i : Instr) : opcOf (encode i) = opcodeOf i := by
  have := opcodeOf_le i
  rw [opcOf, toNat_encode]
  omega

@[simp] theorem reservedOf_encode (i : Instr) : reservedOf (encode i) = 0 := by
  have := opcodeOf_le i
  have := (normBit i).toNat_le
  rw [reservedOf, toNat_encode]
  omega

@[simp] theorem normOf_encode (i : Instr) : normOf (encode i) = normBit i := by
  rw [normOf, encode, BitVec.getLsbD_append, BitVec.getLsbD_append]
  simp

/-! The decoder. -/

theorem decode_ok_iff_fields (w : Word) (i : Instr) :
    decode w = .ok i ↔ instrOfOpcode (opcOf w) (normOf w) = some i ∧ reservedOf w = 0 ∧ (normOf w = false ∨ opcOf w = 3) := by
  unfold decode
  cases hrow : instrOfOpcode (opcOf w) (normOf w) with
  | none => simp
  | some j =>
    by_cases hfields : reservedOf w = 0 ∧ (normOf w = false ∨ opcOf w = 3) <;>
      simp [reservedClear, normAllowed, hfields]

@[simp] theorem decode_encode (i : Instr) : decode (encode i) = .ok i := by
  rw [decode_ok_iff_fields, opcOf_encode, normOf_encode, reservedOf_encode]
  refine ⟨instrOfOpcode_opcodeOf i, rfl, ?_⟩
  cases hnorm : normBit i with
  | false => exact .inl rfl
  | true => exact .inr (opcodeOf_eq_of_normBit hnorm)

/-- A word that decodes has the fields of the command it decodes to. -/
theorem fields_of_decode {w : Word} {i : Instr} (h : decode w = .ok i) :
    opcodeOf i = opcOf w ∧ normBit i = normOf w ∧ reservedOf w = 0 := by
  obtain ⟨hrow, hres, hallowed⟩ := (decode_ok_iff_fields w i).1 h
  obtain ⟨hopc, hnorm⟩ := fields_of_instrOfOpcode hrow
  refine ⟨hopc, ?_, hres⟩
  rcases hallowed with hclear | henc
  · simp [hnorm, hclear]
  · simp [hnorm, henc]

/-- Each command has exactly one word. -/
theorem decode_eq_ok_iff (w : Word) (i : Instr) : decode w = .ok i ↔ w = encode i := by
  constructor
  · intro h
    obtain ⟨hopc, hnorm, hres⟩ := fields_of_decode h
    exact eq_of_fields (by rw [hres, reservedOf_encode]) (by rw [normOf_encode, hnorm]) (by rw [opcOf_encode, hopc])
  · rintro rfl
    exact decode_encode i

theorem exists_decode_iff_legal (w : Word) : (∃ i, decode w = .ok i) ↔ legal w := by
  have hknown : (∃ i, instrOfOpcode (opcOf w) (normOf w) = some i) ↔ opcOf w ≤ 0x0C := by
    rw [← Option.ne_none_iff_exists', Ne, instrOfOpcode_eq_none_iff, Nat.not_lt]
  simp only [decode_ok_iff_fields, exists_and_right, hknown, legal_iff]

/-- The cause of an illegal word: an unknown opcode comes first (R113). -/
theorem decode_of_not_legal {w : Word} (h : ¬legal w) :
    decode w = .error (if 0x0C < opcOf w then .unknownOpcode else .reservedBits) := by
  have hbad : ¬∃ i, decode w = .ok i := (exists_decode_iff_legal w).not.2 h
  unfold decode at hbad ⊢
  cases hrow : instrOfOpcode (opcOf w) (normOf w) with
  | none => rw [if_pos ((instrOfOpcode_eq_none_iff _ _).1 hrow)]
  | some i =>
    have hknown : ¬0x0C < opcOf w := by rw [← instrOfOpcode_eq_none_iff _ (normOf w), hrow]; simp
    by_cases hclear : (reservedClear w && normAllowed w) = true
    · exact absurd ⟨i, by simp only [hrow, if_pos hclear]⟩ hbad
    · simp only [if_neg hclear, if_neg hknown]

/-! The bytes of a word and the bits of the table (R83, R115). -/

theorem decodeBytes_of_decode {w : Word} {i : Instr} (h : decode w = .ok i) : decodeBytes (bytesOfWord w) = .ok i := by
  rw [decodeBytes, if_pos (bytesOfWord_length w), wordOfBytes_bytesOfWord, h]

theorem decodeTableWord_of_decode {w : Word} {i : Instr} (h : decode w = .ok i) : decodeTableWord 64 w.toNat = some i := by
  rw [decodeTableWord, if_pos (by simpa using w.isLt), BitVec.ofNat_toNat, BitVec.setWidth_eq, decodeBytes_of_decode h]
  rfl

/-- Settles O1. -/
theorem decodeAndEncodeAgree : Obligations.DecodeAndEncodeAgree :=
  ⟨fun i _ => ⟨decode_encode i, decodeBytes_of_decode (decode_encode i), decodeTableWord_of_decode (decode_encode i)⟩,
    fun w i h => (decode_eq_ok_iff w i).1 h⟩

/-- Settles O2. -/
theorem legalWordsAreThoseThatDecode : Obligations.LegalWordsAreThoseThatDecode := by
  refine fun w => ⟨exists_decode_iff_legal w, fun i h => ?_⟩
  obtain ⟨hopc, hnorm, -⟩ := fields_of_decode h
  exact ⟨hopc.trans (opcOf_eq w), hnorm⟩

/-- Settles O3: the full command words are the encodings of the commands. -/
theorem commandWordsDecodeToTheirRows : Obligations.CommandWordsDecodeToTheirRows := by
  refine ⟨decode_encode .nop, decode_encode .drawb, decode_encode .map, decode_encode (.enc false), decode_encode (.enc true),
    decode_encode .drawh, decode_encode .drawn, decode_encode .chan, decode_encode .comb, decode_encode .det, decode_encode .clracc,
    decode_encode .cword, decode_encode .runpt, decode_encode .sweep, fun opc hlo hhi => ?_⟩
  have hopc : opcOf (BitVec.ofNat 64 opc) = opc := by
    rw [opcOf, BitVec.toNat_ofNat]
    omega
  have hillegal : ¬legal (BitVec.ofNat 64 opc) := by
    rw [legal_iff, hopc]
    omega
  rw [decode_of_not_legal hillegal, hopc, if_pos (Nat.lt_of_succ_le hlo)]

/-! The issue of an illegal word (R113, R283). -/

theorem issue_of_not_legal {s : State} {w : Word} (hs : takesCommands s) (hw : ¬legal w) :
    issue w s = raiseError codeIllegalCommand (if 0x0C < opcOf w then 1#8 else 2#8) w { s with cmd := w, degen := false } := by
  have hdec := decode_of_not_legal hw
  have hcause : illegalCause (if 0x0C < opcOf w then .unknownOpcode else .reservedBits) = if 0x0C < opcOf w then 1#8 else 2#8 :=
    apply_ite illegalCause _ _ _
  obtain ⟨hdropped, -⟩ | ⟨-, -, ⟨e, he, hissue⟩ | ⟨i, _, _, hi, -⟩ | ⟨i, hi, -⟩⟩ := issue_cases w s
  · rcases hs with h | h | h <;> simp [h] at hdropped
  · cases hdec.symm.trans he
    rw [hissue, hcause]
  · cases hdec.symm.trans hi
  · cases hdec.symm.trans hi

/-- Settles O26. -/
theorem illegalWordIsRejectedWithItsCause : Obligations.IllegalWordIsRejectedWithItsCause := by
  intro s rest w hs hw hev
  have hfree : s.state ≠ .busy := by rcases hs with h | h | h <;> simp [h]
  rw [Aperture.step_write_reg (r := .cmd) rfl (.inl hfree) hev, writeReg,
    issue_of_not_legal (s := { s with events := rest, resp := none }) hs hw, opcOf_eq]
  rfl

end Sys2Proof.Encoding
end

section
/-! PROOFS. WAIT (R118, R119): what its branch does wherever it stands, and what every run of a WAIT has polled. -/

namespace Sys2Proof.HostRuns
open Sys2Proof Sys2Proof.Machine Sys2Proof.Claims

/-! One poll. -/

/-- A read of STATUS answers its fields and changes nothing of the block, in every state (R35, R88). -/
theorem hostStep_read_status (s : State) : hostStep (.read 8 0x020) s = .next { s with resp := some (statusBits s) } := by
  have hread : memRead 0x020 s = { s with resp := some (statusWord s) } := if_pos (Aperture.readSpecified_of_exact rfl)
  rw [← Aperture.statusWord_eq, ← hread]
  exact if_pos (Aperture.admitted_read (by decide) (by decide))

/-- The STATE field of STATUS (R35). -/
theorem state_of_statusBits (s : State) : (statusBits s).extractLsb' 0 3 = stateCode s.state := by
  rw [← Aperture.statusWord_eq, statusWord, BitVec.extractLsb'_append_eq_right]

theorem stateCode_eq_busy_iff (x : CmdState) : stateCode x = 1#3 ↔ x = .busy := by cases x <;> decide

theorem fieldOf_state (s : State) : fieldOf .status .state (statusBits s) = some ((stateCode s.state).setWidth 64) := by
  rw [← state_of_statusBits]
  rfl

theorem setWidth_eq_one_iff (c : BitVec 3) : c.setWidth 64 = 1#64 ↔ c = 1#3 := by revert c; decide

/-- The branch of a WAIT polls STATUS and continues at its own label while STATE = BUSY, whatever the rest of the program holds. -/
theorem hostStatement_wait (pre post : List Stmt) (s : State) :
    hostStatement (pre ++ expand .wait ++ post) (pre.length + 1) s =
      some (if s.state = .busy then pre.length else pre.length + 2, { s with resp := some (statusBits s) }) := by
  have hlabel : (pre ++ expand .wait ++ post)[pre.length]? = some (.label "Lw") := by simp [expand]
  have hbranch : (pre ++ expand .wait ++ post)[pre.length + 1]? = some (.beq (.named .status) .state 1#64 "Lw") := by simp [expand]
  have hdest := labelPos_just_before _ _ _ hlabel
  have htest : (stateCode s.state).setWidth 64 = 1#64 ↔ s.state = .busy :=
    (setWidth_eq_one_iff _).trans (stateCode_eq_busy_iff _)
  have hnext : nextPos (pre ++ expand .wait ++ post) (pre.length + 1) (.beq (.named .status) .state 1#64 "Lw") (statusBits s) =
      some (if s.state = .busy then pre.length else pre.length + 2) := by
    simp only [nextPos, targetReg, fieldOf_state, Option.bind_some, htest, branchTo]
    by_cases hbusy : s.state = .busy
    · simpa [hbusy] using hdest
    · simp [hbusy]
  simp only [hostStatement, hbranch, transaction, targetOffset, regOffset, Option.getD_some, hostStep_read_status, hnext, Option.map_some]

/-! The runs of a WAIT. -/

/-- One poll of a WAIT in the list of transactions: the read of STATUS and the value it returned. -/
def poll (v : Word) : Access × Option Word := (.read 8 0x020, some v)

/-- What a run of a WAIT has done: polls that found STATE = BUSY and, once it has passed the WAIT, one more that did not. -/
def HasPolled (r : HostRun) : Prop :=
  ∃ polls : List Word, (∀ v ∈ polls, v.extractLsb' 0 3 = 1#3) ∧
    ((r.pos < 2 ∧ r.log = polls.map poll) ∨
     (r.pos = 2 ∧ ∃ last : Word, last.extractLsb' 0 3 ≠ 1#3 ∧ r.log = (polls ++ [last]).map poll))

/-- One more poll that found BUSY, put first. -/
theorem HasPolled.cons {r : HostRun} (h : HasPolled r) {v : Word} (hv : v.extractLsb' 0 3 = 1#3) :
    HasPolled { r with log := poll v :: r.log } := by
  obtain ⟨polls, hbusy, hend⟩ := h
  refine ⟨v :: polls, List.forall_mem_cons.2 ⟨hv, hbusy⟩, ?_⟩
  obtain ⟨hpos, hlog⟩ | ⟨hpos, last, hlast, hlog⟩ := hend
  · exact .inl ⟨hpos, by simp [hlog]⟩
  · exact .inr ⟨hpos, last, hlast, by simp [hlog]⟩

/-- A run that stands after the WAIT has ended. -/
theorem hostRun_wait_end (sched : List Nat) (s : State) : hostRun (expand .wait) sched 2 s = some ⟨[], 2, s⟩ := by
  cases sched <;> rfl

theorem hasPolled_of_hostRun (sched : List Nat) : ∀ (pos : Nat) (s : State) (r : HostRun), pos < 2 →
    hostRun (expand .wait) sched pos s = some r → HasPolled r := by
  induction sched with
  | nil =>
    rintro pos s r hpos h
    cases h
    exact ⟨[], by simp, .inl ⟨hpos, rfl⟩⟩
  | cons n sched ih =>
    intro pos s r hpos h
    obtain ⟨hnone, -⟩ | ⟨st, t, q, u, r', hst, -, hstep, hrest, rfl⟩ := hostRun_cons _ _ _ _ _ _ h
    · exact absurd (List.getElem?_eq_none_iff.1 hnone) (Nat.not_le.2 hpos)
    · match pos, hpos with
      | 0, _ =>
        cases hst
        cases hstep
        exact ih 1 t r' (by decide) hrest
      | 1, _ =>
        cases hst
        obtain ⟨rfl, rfl⟩ := Prod.mk.inj (Option.some.inj (hstep.symm.trans (hostStatement_wait [] [] t)))
        have hcode : (statusBits t).extractLsb' 0 3 = 1#3 ↔ t.state = .busy := by
          rw [state_of_statusBits, stateCode_eq_busy_iff]
        by_cases hbusy : t.state = .busy
        · rw [if_pos hbusy] at hrest
          exact (ih 0 _ r' (by decide) hrest).cons (hcode.2 hbusy)
        · rw [if_neg hbusy] at hrest
          cases (hostRun_wait_end sched _).symm.trans hrest
          exact ⟨[], by simp, .inr ⟨rfl, statusBits t, hcode.not.2 hbusy, rfl⟩⟩

/-- Every transaction of a WAIT is a read of STATUS (R119). -/
theorem map_fst_poll (polls : List Word) : (polls.map poll).map Prod.fst = List.replicate polls.length (.read 8 0x020) := by
  rw [List.map_map]
  exact List.map_const' ..

/-- Settles O60, the runs by induction on the schedule. -/
theorem waitPollsUntilNotBusy : Obligations.WaitPollsUntilNotBusy := by
  refine ⟨hostStatement_wait, fun sched s r h => ?_⟩
  obtain ⟨polls, hbusy, hend⟩ := hasPolled_of_hostRun sched 0 s r (by decide) h
  have hencode : encodeRun (expand .wait) sched s = some (r.log.map Prod.fst) := by rw [encodeRun, h, Option.map_some]
  rw [hencode]
  obtain ⟨hpos, hlog⟩ | ⟨-, last, hlast, hlog⟩ := hend
  · exact ⟨⟨_, by rw [hlog, map_fst_poll]⟩, fun hpassed => absurd hpassed hpos.ne⟩
  · exact ⟨⟨_, by rw [hlog, map_fst_poll]⟩, fun _ => ⟨polls, last, hlog, hlast, hbusy⟩⟩

end Sys2Proof.HostRuns
end

section
/-! PROOFS. Negation in sums and products: a product and a sum of finite values change sign with their operands, which free value they would
take does not matter to them, and a finite sum or product has finite operands (R12, R14). -/

namespace Sys2Proof.Rounding
open Sys2Proof Sys2Proof.Machine Sys2Proof.Claims

variable {a b : F64}

theorem finite_of_not_isNaN (hnan : ¬ isNaN a) (hinf : ¬ infinite a) : finite a :=
  ((class_cases a).resolve_left hnan).resolve_left hinf

/-! Finite results have finite operands. -/

theorem finite_of_fadd {d : Nat} (h : finite (fadd d a b)) : finite a ∧ finite b := by
  have hvalid := mt (fadd_nanExactly d a b).isNaN_iff.2 (not_isNaN_of_finite h)
  rw [not_or, not_or] at hvalid
  obtain ⟨hna, hnb, hopposite⟩ := hvalid
  have ha : finite a := by
    refine finite_of_not_isNaN hna fun hinf => not_infinite_of_finite h ?_
    rw [fadd_of_infinite_left d hinf]
    · exact hinf
    · refine (class_cases_of_not_isNaN hnb).symm.imp_right fun hb => ⟨hb, ?_⟩
      by_contra hs
      exact hopposite ⟨hinf, hb, Ne.symm hs⟩
  refine ⟨ha, finite_of_not_isNaN hnb fun hinf => not_infinite_of_finite h ?_⟩
  rwa [fadd_of_infinite_right d ha hinf]

theorem finite_of_fmul {d : Nat} (h : finite (fmul d a b)) : finite a ∧ finite b := by
  have hvalid := mt (fmul_nanExactly d a b).isNaN_iff.2 (not_isNaN_of_finite h)
  rw [not_or, not_or, not_or] at hvalid
  obtain ⟨hna, hnb, hinfZero, hzeroInf⟩ := hvalid
  have hnotInf : ¬ ((infinite a ∧ infinite b) ∨ (infinite a ∧ finite b ∧ ¬isZero b) ∨ (finite a ∧ ¬isZero a ∧ infinite b)) :=
    fun hinf => not_infinite_of_finite h (by rw [fmul_of_infinite d hinf]; exact infinite_finf _)
  have ha : finite a := by
    refine finite_of_not_isNaN hna fun hinf => hnotInf ?_
    exact (class_cases_of_not_isNaN hnb).imp (fun hb => ⟨hinf, hb⟩)
      fun hb => .inl ⟨hinf, hb, fun hz => hinfZero ⟨hinf, hz⟩⟩
  exact ⟨ha, finite_of_not_isNaN hnb fun hinf => hnotInf (.inr (.inr ⟨ha, fun hz => hzeroInf ⟨hz, hinf⟩, hinf⟩))⟩

/-! Products. -/

theorem roundSigned_not (neg : Bool) (n d : Nat) : roundSigned (!neg) n d = fneg (roundSigned neg n d) :=
  (fneg_fpack neg (roundUnits_le n d)).symm

theorem fmul_comm (d d' : Nat) (ha : finite a) (hb : finite b) : fmul d a b = fmul d' b a := by
  rw [fmul_of_finite d ha hb, fmul_of_finite d' hb ha, Bool.xor_comm, Nat.mul_comm]

/-- The free value's index does not matter to a product of finite values. -/
theorem fmul_index (d d' : Nat) (ha : finite a) (hb : finite b) : fmul d a b = fmul d' a b :=
  (fmul_comm d 0 ha hb).trans (fmul_comm 0 d' hb ha)

theorem fmul_fneg_right (d d' : Nat) (ha : finite a) (hb : finite b) : fmul d a (fneg b) = fneg (fmul d' a b) := by
  rw [fmul_of_finite d ha ((finite_fneg b).2 hb), fmul_of_finite d' ha hb, msb_fneg, magOf_fneg, Bool.xor_not, roundSigned_not]

theorem fmul_fneg_left (d d' : Nat) (ha : finite a) (hb : finite b) : fmul d (fneg a) b = fneg (fmul d' b a) := by
  rw [fmul_comm d d ((finite_fneg a).2 ha) hb, fmul_fneg_right d d' hb ha]

/-! Sums. -/

theorem addUnits_comm (s : Bool) (m : Nat) (t : Bool) (n : Nat) : addUnits s m t n = addUnits t n s m := by
  unfold addUnits
  rcases eq_or_ne s t with rfl | hst
  · rw [if_pos rfl, if_pos rfl, Nat.add_comm]
  · rw [if_neg hst, if_neg hst.symm]
    rcases Nat.lt_trichotomy m n with h | rfl | h
    · rw [if_neg h.ne, if_neg h.ne', if_neg h.not_gt, if_pos h]
    · rw [if_pos rfl, if_pos rfl]
    · rw [if_neg h.ne', if_neg h.ne, if_pos h, if_neg h.not_gt]

theorem fadd_comm (d d' : Nat) (ha : finite a) (hb : finite b) : fadd d a b = fadd d' b a := by
  rw [fadd_of_finite d ha hb, fadd_of_finite d' hb ha, addUnits_comm]

/-- Flipping both signs flips the sign of the sum, but for an exact cancellation, which is +0.0 either way. -/
theorem addUnits_not (s : Bool) (m : Nat) (t : Bool) (n : Nat) :
    (addUnits s m t n = fzero ∧ addUnits (!s) m (!t) n = fzero) ∨ addUnits (!s) m (!t) n = fneg (addUnits s m t n) := by
  unfold addUnits
  rcases eq_or_ne s t with rfl | hst
  · rw [if_pos rfl, if_pos rfl]
    exact .inr (roundSigned_not _ _ _)
  · rw [if_neg hst, if_neg (Bool.not_inj.mt hst)]
    rcases Nat.lt_trichotomy m n with h | rfl | h
    · rw [if_neg h.ne, if_neg h.ne, if_neg h.not_gt, if_neg h.not_gt]
      exact .inr (roundSigned_not _ _ _)
    · exact .inl ⟨if_pos rfl, if_pos rfl⟩
    · rw [if_neg h.ne', if_neg h.ne', if_pos h, if_pos h]
      exact .inr (roundSigned_not _ _ _)

theorem fadd_fneg_self (d : Nat) (ha : finite a) : fadd d a (fneg a) = 0#64 := by
  rw [fadd_of_sum_eq_zero d ha ((finite_fneg a).2 ha) (by rw [valueOf_fneg, add_neg_cancel]), msb_fneg]
  exact if_neg (by cases a.msb <;> decide)

/-- A finite sum and the sum of the negated operands cancel to +0.0. -/
theorem fadd_fadd_fneg (d d₁ d₂ : Nat) (h : finite (fadd d₁ a b)) :
    fadd d (fadd d₁ a b) (fadd d₂ (fneg a) (fneg b)) = 0#64 := by
  obtain ⟨ha, hb⟩ := finite_of_fadd h
  have hflipped : fadd d₂ (fneg a) (fneg b) = addUnits (!a.msb) (unitsOf (magOf a)) (!b.msb) (unitsOf (magOf b)) := by
    rw [fadd_of_finite d₂ ((finite_fneg a).2 ha) ((finite_fneg b).2 hb), msb_fneg, msb_fneg, magOf_fneg, magOf_fneg]
  rw [fadd_of_finite d₁ ha hb] at h ⊢
  rw [hflipped]
  obtain ⟨hsum, hneg⟩ | hneg := addUnits_not a.msb (unitsOf (magOf a)) b.msb (unitsOf (magOf b))
  · have hzero : finite fzero := finite_of_isZero (by decide)
    rw [hsum, hneg, fadd_of_finite d hzero hzero]
    decide
  · rw [hneg]
    exact fadd_fneg_self d h

end Sys2Proof.Rounding
end

section
/-! PROOFS. Source and encoder: NOP, DRAWB, MAP, ENC (R140 to R145), and the orthogonality of the matrix ENC writes (R147): slot 1 is slot 0
conjugated with one sign flipped, so its product is made of the same rounded partial products with every sign flipped. -/

namespace Sys2Proof.SourceEncoder
open Sys2Proof Sys2Proof.Machine Sys2Proof.Claims Sys2Proof.Rounding

/-- A command of one step ends in the state its body leaves, with end(DONE) done (R261, R262). -/
theorem exec_eq_done {i : Instr} {body : State → State} (h : CoreFrame.unitBody i = some body) (s : State) :
    exec i s = .next (done (body s)) :=
  CoreFrame.exec_of_unitBody h s

/-! NOP. -/

theorem decode_nop : decode 0x000#64 = .ok .nop := by decide

/-- A NOP written where commands are taken becomes the running command (R260). -/
theorem issue_nop {s : State} (hs : takesCommands s) :
    issue 0x000#64 s = { s with cmd := 0x000#64, degen := false, state := .busy, abortReq := false, phase := .none } := by
  obtain ⟨hdropped, -⟩ | ⟨-, -, ⟨e, he, -⟩ | ⟨i, c, v, hi, hrejected, -⟩ | ⟨i, hi, -, hissue⟩⟩ := issue_cases 0x000#64 s
  · rcases hs with h | h | h <;> simp [h] at hdropped
  · cases decode_nop.symm.trans he
  · cases decode_nop.symm.trans hi
    cases hrejected
  · cases decode_nop.symm.trans hi
    exact hissue

theorem coreTurn_of_busy {s : State} {i : Instr} (hbusy : s.state = .busy) (hdec : decode s.cmd = .ok i) :
    coreTurn s = exec i s := by
  rw [coreTurn, if_pos hbusy, hdec]

/-- A core turn that comes first ends a running NOP (R261, R262). -/
theorem step_core_of_nop {s : State} {rest : List Event} (hev : s.events = .core :: rest) (hbusy : s.state = .busy)
    (hcmd : s.cmd = 0x000#64) : step s = .next (done { s with events := rest }) :=
  calc step s = coreTurn { s with events := rest } := Aperture.step_of_events hev
    _ = exec .nop { s with events := rest } := coreTurn_of_busy hbusy (hcmd ▸ decode_nop)
    _ = .next (done { s with events := rest }) := exec_eq_done (body := nopBody) rfl _

/-- A run takes its first step and goes on from there. -/
theorem run_succ {M : Host.Core} {s u : M.State} (h : M.step s = .next u) (k : Nat) : M.run (k + 1) s = M.run k u := by
  rw [Host.Core.run, h]

/-- Settles O30: the issue leaves NOP running, and its one step only ends it. -/
theorem nopOnlyEnds : Obligations.NopOnlyEnds := by
  refine ⟨exec_eq_done (body := nopBody) rfl, fun s hidle hdegen hphase habort hev => ?_⟩
  have hissue : step s = .next { s with
      events := [.core], resp := none, cmd := 0x000#64, degen := false, state := .busy, abortReq := false, phase := .none } := by
    rw [Aperture.step_write_reg (r := .cmd) rfl (.inl (by simp [hidle])) hev, writeReg,
      issue_nop (s := { s with events := [.core], resp := none }) (.inl hidle)]
  refine (run_succ (M := Sys2Proof.core) hissue 1).trans ((run_succ (M := Sys2Proof.core) (step_core_of_nop rfl rfl rfl) 0).trans ?_)
  rw [hdegen, hphase, habort]
  rfl

/-! DRAWB and MAP. -/

/-- An index past a word's, with wrap (R20). -/
theorem ofNat_toNat_add (w : Word) (n : Nat) : BitVec.ofNat 64 (w.toNat + n) = w + BitVec.ofNat 64 n := by
  rw [BitVec.ofNat_add, BitVec.ofNat_toNat, BitVec.setWidth_eq]

/-- Settles O31. -/
theorem drawbDrawsTwoBits : Obligations.DrawbDrawsTwoBits := by
  intro s
  rw [ofNat_toNat_add, ofNat_toNat_add]
  exact ⟨_, pairBits_zero _ _, pairBits_one _ _, exec_eq_done (body := drawbBody Config.gen) rfl s⟩

/-- Settles O32: the symbols are `sym` of the bits, which is R140's mapping by definition. -/
theorem mapWritesTheSymbols : Obligations.MapWritesTheSymbols := exec_eq_done (body := mapBody) rfl

/-! ENC. -/

theorem conj_eq (z : Cplx) : conj z = ⟨z.re, Claims.flip z.im⟩ := by rw [conj, fneg_eq_flip]

theorem cneg_conj_eq (z : Cplx) : cneg (conj z) = ⟨Claims.flip z.re, z.im⟩ := by rw [cneg, conj, fneg_fneg, fneg_eq_flip]

theorem conj_conj (z : Cplx) : conj (conj z) = z := by rw [conj, conj, fneg_fneg]

/-- Settles O33, by NORM: without scaling the words themselves, with it their products with KN. -/
theorem encWritesTheCodeMatrix : Obligations.EncWritesTheCodeMatrix := by
  intro norm s
  refine ⟨s.draws + 8, (exec_eq_done (body := encBody norm) rfl s).trans ?_⟩
  rw [encBody, cneg_conj_eq, conj_eq]
  cases norm <;> rfl

/-- One part of a scaled symbol (R145). -/
def scalePart (norm : Bool) (d : Nat) (x : F64) : F64 := if norm then fmul d kn x else x

theorem scaleSym_eq (norm : Bool) (d : Nat) (v : Cplx) :
    scaleSym norm d v = ⟨scalePart norm d v.re, scalePart norm (d + 1) v.im⟩ := by
  cases norm <;> rfl

theorem scalePart_false (d : Nat) (x : F64) : scalePart false d x = x := rfl

theorem scalePart_true (d : Nat) (x : F64) : scalePart true d x = fmul d kn x := rfl

theorem scalePart_index {norm : Bool} {d : Nat} {x : F64} (d' : Nat) (h : finite (scalePart norm d x)) :
    scalePart norm d' x = scalePart norm d x := by
  cases norm with
  | false => rw [scalePart_false, scalePart_false]
  | true =>
    rw [scalePart_true] at h ⊢
    obtain ⟨hkn, hx⟩ := finite_of_fmul h
    exact fmul_index d' d hkn hx

theorem scalePart_fneg {norm : Bool} {d : Nat} {x : F64} (d' : Nat) (h : finite (scalePart norm d x)) :
    scalePart norm d' (fneg x) = fneg (scalePart norm d x) := by
  cases norm with
  | false => rw [scalePart_false, scalePart_false]
  | true =>
    rw [scalePart_true] at h ⊢
    obtain ⟨hkn, hx⟩ := finite_of_fmul h
    exact fmul_fneg_right d' d hkn hx

/-- Both parts are finite. -/
def FiniteParts (z : Cplx) : Prop := finite z.re ∧ finite z.im

/-- A finite scaled symbol and the scaled conjugate are conjugates. -/
theorem scaleSym_conj {norm : Bool} {d : Nat} {v : Cplx} (d' : Nat) (h : FiniteParts (scaleSym norm d v)) :
    scaleSym norm d' (conj v) = conj (scaleSym norm d v) := by
  rw [scaleSym_eq] at h
  obtain ⟨hre, him⟩ := h
  rw [scaleSym_eq, scaleSym_eq, conj, conj, scalePart_index d' hre, scalePart_fneg (d' + 1) him]

/-- A finite scaled symbol and the scaled negative are negatives. -/
theorem scaleSym_cneg {norm : Bool} {d : Nat} {v : Cplx} (d' : Nat) (h : FiniteParts (scaleSym norm d v)) :
    scaleSym norm d' (cneg v) = cneg (scaleSym norm d v) := by
  rw [scaleSym_eq] at h
  obtain ⟨hre, him⟩ := h
  rw [scaleSym_eq, scaleSym_eq, cneg, cneg, scalePart_fneg d' hre, scalePart_fneg (d' + 1) him]

theorem FiniteParts.conj {z : Cplx} (h : FiniteParts z) : FiniteParts (conj z) := ⟨h.1, (finite_fneg _).2 h.2⟩

theorem FiniteParts.of_conj {z : Cplx} (h : FiniteParts (Machine.conj z)) : FiniteParts z := ⟨h.1, (finite_fneg _).1 h.2⟩

/-- Where antenna 0's slot-0 symbol is finite, antenna 1 sends its conjugate in slot 1 (R144). -/
theorem encBody_x11_eq {norm : Bool} {s : State} (h : FiniteParts (encBody norm s).x00) :
    (encBody norm s).x11 = conj (encBody norm s).x00 :=
  scaleSym_conj _ h

/-- Where antenna 1's slot-0 symbol is finite, antenna 0 sends its negated conjugate in slot 1 (R144). -/
theorem encBody_x01_eq {norm : Bool} {s : State} (h : FiniteParts (encBody norm s).x10) :
    (encBody norm s).x01 = cneg (conj (encBody norm s).x10) := by
  have hconj := scaleSym_conj (s.draws + 4) h
  rw [encBody_x01, encBody_x10, ← hconj]
  exact scaleSym_cneg _ (hconj ▸ h.conj)

/-! Orthogonality. -/

/-- A complex product with a finite real part has finite factors, whose four parts that part is made of. -/
theorem finiteParts_of_cmul {d : Nat} {x w : Cplx} (h : finite (cmul d x w).re) : FiniteParts x ∧ FiniteParts w := by
  obtain ⟨hre, him⟩ := finite_of_fadd h
  obtain ⟨hxre, hwre⟩ := finite_of_fmul hre
  obtain ⟨hxim, hwim⟩ := finite_of_fmul ((finite_fneg _).1 him)
  exact ⟨⟨hxre, hxim⟩, ⟨hwre, hwim⟩⟩

/-- A finite product and the product of the negated second factor with the first cancel exactly (R147). -/
theorem cadd_cmul_cneg (d d₁ d₂ : Nat) {x w : Cplx} (hre : finite (cmul d₁ x w).re) (him : finite (cmul d₁ x w).im) :
    cadd d (cmul d₁ x w) (cmul d₂ (cneg w) x) = ⟨0#64, 0#64⟩ := by
  obtain ⟨⟨hxre, hxim⟩, ⟨hwre, hwim⟩⟩ := finiteParts_of_cmul hre
  obtain ⟨hl, hr⟩ := finite_of_fadd him
  have hnegRe : (cmul d₂ (cneg w) x).re =
      fadd d₂ (fneg (fmul (d₁ + 1) x.re w.re)) (fneg (fneg (fmul (d₁ + 2) x.im w.im))) := by
    rw [cmul, fsub_eq, cneg, fmul_fneg_left _ (d₁ + 1) hwre hxre, fmul_fneg_left _ (d₁ + 2) hwim hxim]
  have hnegIm : (cmul d₂ (cneg w) x).im =
      fadd (d₂ + 3) (fneg (fmul (d₁ + 4) x.re w.im)) (fneg (fmul (d₁ + 5) x.im w.re)) := by
    rw [cmul, cneg, fmul_fneg_left _ (d₁ + 5) hwre hxim, fmul_fneg_left _ (d₁ + 4) hwim hxre]
    exact fadd_comm _ _ ((finite_fneg _).2 hr) ((finite_fneg _).2 hl)
  rw [cadd, hnegRe, hnegIm]
  exact congrArg₂ Cplx.mk (fadd_fadd_fneg _ _ _ hre) (fadd_fadd_fneg _ _ _ him)

/-- Settles O59: slot 1's product is slot 0's with the factors exchanged and one negated. -/
theorem encRowsAreOrthogonal : Obligations.EncRowsAreOrthogonal := by
  intro norm s t d hexec hre him
  rw [unitStep_next (encBody norm) s t hexec] at hre him ⊢
  simp only [endCmd_x00, endCmd_x01, endCmd_x10, endCmd_x11] at hre him ⊢
  obtain ⟨hx00, hx10⟩ := finiteParts_of_cmul hre
  rw [encBody_x01_eq hx10.of_conj, encBody_x11_eq hx00, conj_conj]
  exact cadd_cmul_cneg _ _ _ hre him

end Sys2Proof.SourceEncoder
end

section
/-! PROOFS. Channel simulator: DRAWH, DRAWN and CHAN (R173, R174, R180). Each command visits the file entries of the first R antennas in
the order of its rule, entry 2r + a or 2r + t as the visit of that number; what the loops leave in a visited entry and in any other entry
is said in the laws about them. -/

namespace Sys2Proof.ChannelSimulator
open Sys2Proof Sys2Proof.Machine Sys2Proof.Claims Sys2Proof.Rounding Sys2Proof.SourceEncoder

/-! The visits. -/

theorem getElem?_hOrder {R r a : Nat} (hr : r < R) (ha : a < 2) : (hOrder R)[2 * r + a]? = some (hIdx a r) := by
  have hmod : (2 * r + a) % 2 = a := by omega
  have hdiv : (2 * r + a) / 2 = r := by omega
  rw [hOrder_eq_map, List.getElem?_map, List.getElem?_range (by omega), Option.map_some, hmod, hdiv]

theorem getElem?_slotOrder {R r t : Nat} (hr : r < R) (ht : t < 2) : (slotOrder R)[2 * r + t]? = some (r, t) := by
  have hmod : (2 * r + t) % 2 = t := by omega
  have hdiv : (2 * r + t) / 2 = r := by omega
  rw [slotOrder_eq_map, List.getElem?_map, List.getElem?_range (by omega), Option.map_some, hmod, hdiv]

/-- DRAWN and CHAN visit their files in one order (R174, R180). -/
theorem nzOrder_eq_map_slotOrder (R : Nat) : nzOrder R = (slotOrder R).map fun p => slotIdx p.1 p.2 := by
  rw [nzOrder_eq_map, slotOrder_eq_map, List.map_map]
  rfl

theorem getElem?_nzOrder {R r t : Nat} (hr : r < R) (ht : t < 2) : (nzOrder R)[2 * r + t]? = some (slotIdx r t) := by
  rw [nzOrder_eq_map_slotOrder, List.getElem?_map, getElem?_slotOrder hr ht, Option.map_some]

/-! The value of a draw. -/

/-- One part of draw n: the Gaussian at GAUSS_IDX + n, scaled by KN (R170, R171). -/
def scaledGauss (s : State) (n : Nat) : F64 :=
  fmul 0 kn (finitePattern (Config.gen.gauss s.seed s.stream (s.gaussIdx + BitVec.ofNat 64 n)))

/-- Draws are finite, so the free value's index does not matter to the scaled one (R8, R14). -/
theorem fmul_kn_finitePattern (d : Nat) (g : FiniteF64) : fmul d kn (finitePattern g) = fmul 0 kn (finitePattern g) :=
  fmul_index d 0 finite_kn (finite_finitePattern g)

/-- The n-th entry a draw loop visits holds draws 2n and 2n + 1, whatever the file and the order are. -/
theorem drawInto_scaledGauss (s : State) (file : Vector Cplx 32) {is : List (Fin 32)} (hnodup : is.Nodup) {n : Nat} {i : Fin 32}
    (hi : is[n]? = some i) :
    (drawInto Config.gen s.seed s.stream is (file, s.gaussIdx, s.draws)).1[i] =
      ⟨scaledGauss s (2 * n), scaledGauss s (2 * n + 1)⟩ := by
  obtain ⟨hn, rfl⟩ := List.getElem?_eq_some_iff.1 hi
  rw [drawInto_visited _ _ _ _ _ _ _ _ hn hnodup, BitVec.add_assoc, ← BitVec.ofNat_add]
  exact congrArg₂ Cplx.mk (fmul_kn_finitePattern _ _) (fmul_kn_finitePattern _ _)

/-! DRAWH. -/

theorem drawhBody_visited (s : State) {a r : Nat} (ha : a < 2) (hr : r < antennas s) :
    (drawhBody Config.gen s).h[hIdx a r] = ⟨scaledGauss s (4 * r + 2 * a), scaledGauss s (4 * r + 2 * a + 1)⟩ := by
  rw [show 4 * r + 2 * a = 2 * (2 * r + a) by omega]
  exact drawInto_scaledGauss s s.h (hOrder_nodup _ (antennas_le s)) (getElem?_hOrder hr ha)

/-- DRAWH writes the H file, takes four draws an antenna, and writes nothing else (R173). -/
theorem drawhBody_eq (s : State) : drawhBody Config.gen s =
    { s with
      h := (drawhBody Config.gen s).h
      gaussIdx := s.gaussIdx + BitVec.ofNat 64 (4 * antennas s)
      draws := (drawhBody Config.gen s).draws } := by
  have hidx : (drawhBody Config.gen s).gaussIdx = s.gaussIdx + BitVec.ofNat 64 (4 * antennas s) := by
    rw [drawhBody_gaussIdx, drawInto_idx, hOrder_length, ← Nat.mul_assoc]
  rw [← hidx]
  rfl

/-- Settles O34, an entry of H being a visited one (r < R) or not. -/
theorem drawhDrawsTheCoefficients : Obligations.DrawhDrawsTheCoefficients := by
  intro s _ hmax
  have hR := antennas_eq s hmax
  refine ⟨_, exec_eq_done (body := drawhBody Config.gen) rfl s, ?_, fun a r => ?_⟩
  · rw [← hR]
    exact congrArg done (drawhBody_eq s)
  · rw [CoreFrame.entry_hIdx, CoreFrame.entry_hIdx]
    split
    case isTrue hr => exact drawhBody_visited s a.isLt (hR ▸ hr)
    case isFalse hr => exact drawhBody_other _ s a r a.isLt r.isLt (Nat.le_of_not_lt hr)

/-! DRAWN. -/

theorem drawnBody_visited (s : State) {r t : Nat} (hr : r < antennas s) (ht : t < 2) :
    (drawnBody Config.gen s).nz[slotIdx r t] = ⟨scaledGauss s (4 * r + 2 * t), scaledGauss s (4 * r + 2 * t + 1)⟩ := by
  rw [show 4 * r + 2 * t = 2 * (2 * r + t) by omega]
  exact drawInto_scaledGauss s s.nz (nzOrder_nodup _ (antennas_le s)) (getElem?_nzOrder hr ht)

/-- DRAWN writes the NZ file, takes four draws an antenna, and writes nothing else (R174). -/
theorem drawnBody_eq (s : State) : drawnBody Config.gen s =
    { s with
      nz := (drawnBody Config.gen s).nz
      gaussIdx := s.gaussIdx + BitVec.ofNat 64 (4 * antennas s)
      draws := (drawnBody Config.gen s).draws } := by
  have hidx : (drawnBody Config.gen s).gaussIdx = s.gaussIdx + BitVec.ofNat 64 (4 * antennas s) := by
    rw [drawnBody_gaussIdx, drawInto_idx, nzOrder_length, ← Nat.mul_assoc]
  rw [← hidx]
  rfl

/-- Settles O35, an entry of NZ being a visited one (r < R) or not. -/
theorem drawnDrawsTheNoise : Obligations.DrawnDrawsTheNoise := by
  intro s _ hmax
  have hR := antennas_eq s hmax
  refine ⟨_, exec_eq_done (body := drawnBody Config.gen) rfl s, ?_, fun r t => ?_⟩
  · rw [← hR]
    exact congrArg done (drawnBody_eq s)
  · rw [CoreFrame.entry_slotIdx, CoreFrame.entry_slotIdx]
    split
    case isTrue hr => exact drawnBody_visited s (hR ▸ hr) t.isLt
    case isFalse hr => exact drawnBody_other _ s r t r.isLt t.isLt (Nat.le_of_not_lt hr)

/-! CHAN. -/

theorem xAt_zero (s : State) (t : Nat) : xAt s 0 t = if t = 0 then s.x00 else s.x01 := by cases t <;> rfl

theorem xAt_one (s : State) (t : Nat) : xAt s 1 t = if t = 0 then s.x10 else s.x11 := by cases t <;> rfl

theorem hAt_zero (s : State) (r : Fin 16) : hAt s 0 r = entry s.h r.val := by
  simpa [hAt] using (CoreFrame.entry_hIdx s.h 0 r).symm

theorem hAt_one (s : State) (r : Fin 16) : hAt s 1 r = entry s.h (16 + r.val) := by
  simpa [hAt] using (CoreFrame.entry_hIdx s.h 1 r).symm

theorem nzAt_eq_entry (s : State) (r : Fin 16) (t : Fin 2) : nzAt s r t = entry s.nz (2 * r.val + t.val) :=
  (CoreFrame.entry_slotIdx s.nz r t).symm

/-- The sample of visit n, at the pair the order names there. -/
theorem chanInto_of_getElem? (s : State) (sg : F64) (file : Vector Cplx 32) (d : Nat) {ps : List (Nat × Nat)}
    (hnodup : (ps.map fun p => slotIdx p.1 p.2).Nodup) {n : Nat} {p : Nat × Nat} (hp : ps[n]? = some p) :
    (chanInto s sg ps (file, d)).1[slotIdx p.1 p.2] =
      received (d + 18 * n) (hAt s 0 p.1) (hAt s 1 p.1) (xAt s 0 p.2) (xAt s 1 p.2) sg (nzAt s p.1 p.2) := by
  obtain ⟨hn, rfl⟩ := List.getElem?_eq_some_iff.1 hp
  exact chanInto_visited s sg ps file d n hn hnodup

/-- The sample of a visited entry, over the antenna's coefficients and the slot's column of the code matrix (R180). -/
theorem chanBody_visited (s : State) {r t : Nat} (hr : r < antennas s) (ht : t < 2) :
    (chanBody s).y[slotIdx r t] =
      received (s.draws + 18 * (2 * r + t)) (hAt s 0 r) (hAt s 1 r) (xAt s 0 t) (xAt s 1 t)
        (Sys2Proof.Machine.sigma s.snrCur) (nzAt s r t) :=
  chanInto_of_getElem? s _ s.y s.draws (slotOrder_nodup _ (antennas_le s)) (getElem?_slotOrder hr ht)

/-- Settles O37, an entry of Y being a visited one (r < R) or not. -/
theorem chanFormsTheReceivedSamples : Obligations.ChanFormsTheReceivedSamples := by
  intro s _ hmax
  have hR := antennas_eq s hmax
  refine ⟨_, exec_eq_done (body := chanBody) rfl s, rfl, fun r t => ?_⟩
  rw [CoreFrame.entry_slotIdx _ r t, CoreFrame.entry_slotIdx s.y r t]
  split
  case isTrue hr =>
    rw [← nzAt_eq_entry, ← hAt_zero, ← hAt_one, ← xAt_zero, ← xAt_one]
    exact chanBody_visited s (hR ▸ hr) t.isLt
  case isFalse hr => exact chanBody_other s r t r.isLt t.isLt (Nat.le_of_not_lt hr)

end Sys2Proof.ChannelSimulator
end

section
/-! PROOFS. Combiner: COMB (R201, R202, R204). Its terms are over the file entries of one antenna, its sums are the model's own recursion,
and the one branch, the degenerate path, turns on the divisor's sum being a zero. -/

namespace Sys2Proof.Combiner
open Sys2Proof Sys2Proof.Machine Sys2Proof.Claims Sys2Proof.Rounding Sys2Proof.SourceEncoder Sys2Proof.ChannelSimulator

/-! The comparison with zero. -/

theorem feq0_of_isZero {a : F64} (h : isZero a) : feq0 a = true := by
  rw [feq0, fview_of_finite (finite_of_isZero h)]
  exact decide_eq_true (units_eq_zero h)

/-- COMB's comparison takes neither infinities nor NaNs for zeros. -/
theorem feq0_of_not_isZero {a : F64} (h : ¬ isZero a) : feq0 a = false := by
  rcases class_cases a with ha | ha | ha
  · rw [feq0, fview_of_isNaN ha]
  · rw [feq0, fview_of_infinite ha]
  · rw [feq0, fview_of_finite ha]
    exact decide_eq_false (units_ne_zero h)

/-! The terms and the sums. -/

theorem yAt_eq_entry (s : State) (r : Fin 16) (t : Fin 2) : yAt s r t = entry s.y (2 * r.val + t.val) :=
  (CoreFrame.entry_slotIdx s.y r t).symm

/-- The terms of an antenna over its entries of the register files (R200, R201). -/
theorem combTerm_eq_entries (s : State) (d : Nat) {r : Nat} (hr : r < 16) : combTerm s d r =
    (cadd d (cmul (d + 2) (conj (entry s.h r)) (entry s.y (2 * r))) (cmul (d + 8) (entry s.h (16 + r)) (conj (entry s.y (2 * r + 1)))),
     csub (d + 14) (cmul (d + 16) (conj (entry s.h (16 + r))) (entry s.y (2 * r)))
       (cmul (d + 22) (entry s.h r) (conj (entry s.y (2 * r + 1)))),
     fadd (d + 28) (abs2 (d + 29) (entry s.h r)) (abs2 (d + 32) (entry s.h (16 + r)))) := by
  have hh1 : hAt s 0 r = entry s.h r := hAt_zero s ⟨r, hr⟩
  have hh2 : hAt s 1 r = entry s.h (16 + r) := hAt_one s ⟨r, hr⟩
  have hy1 : yAt s r 0 = entry s.y (2 * r) := yAt_eq_entry s ⟨r, hr⟩ 0
  have hy2 : yAt s r 1 = entry s.y (2 * r + 1) := yAt_eq_entry s ⟨r, hr⟩ 1
  rw [combTerm, hh1, hh2, hy1, hy2]

theorem combSum_zero (s : State) (d : Nat) : combSum s d 0 = combTerm s d 0 := rfl

theorem combSum_succ (s : State) (d r : Nat) : combSum s d (r + 1) =
    (cadd (d + 40 * (r + 1) + 35) (combSum s d r).1 (combTerm s (d + 40 * (r + 1)) (r + 1)).1,
     cadd (d + 40 * (r + 1) + 37) (combSum s d r).2.1 (combTerm s (d + 40 * (r + 1)) (r + 1)).2.1,
     fadd (d + 40 * (r + 1) + 39) (combSum s d r).2.2 (combTerm s (d + 40 * (r + 1)) (r + 1)).2.2) := rfl

/-! The two paths. -/

/-- The degenerate path: the sentinel, the count and both flags (R204, R285). -/
theorem combBody_of_isZero {s : State} (h : isZero (combSum s s.draws (antennas s - 1)).2.2) : combBody s =
    { s with
      den := (combSum s s.draws (antennas s - 1)).2.2, z1 := czero, z2 := czero, degenCnt := s.degenCnt + 1#64, degen := true,
      intStatus := s.intStatus ||| 4#3, draws := s.draws + 40 * antennas s + 4 } := by
  simp only [combBody, feq0_of_isZero h, if_true, setIntDegen]

/-- The other path: one division of each sum, no flag and no count (R201). -/
theorem combBody_of_not_isZero {s : State} (h : ¬ isZero (combSum s s.draws (antennas s - 1)).2.2) : combBody s =
    { s with
      den := (combSum s s.draws (antennas s - 1)).2.2
      z1 := cdivr (s.draws + 40 * antennas s) (combSum s s.draws (antennas s - 1)).1 (combSum s s.draws (antennas s - 1)).2.2
      z2 := cdivr (s.draws + 40 * antennas s + 2) (combSum s s.draws (antennas s - 1)).2.1 (combSum s s.draws (antennas s - 1)).2.2
      draws := s.draws + 40 * antennas s + 4 } := by
  simp only [combBody, feq0_of_not_isZero h, Bool.false_eq_true, if_false]

/-- Settles O38: the model's sums up to each antenna satisfy the recursion, and the last divisor's being a zero chooses the path. -/
theorem combCombinesTheAntennas : Obligations.CombCombinesTheAntennas := by
  intro s hmin hmax
  refine ⟨fun r => (combSum s s.draws r).1, fun r => (combSum s s.draws r).2.1, fun r => (combSum s s.draws r).2.2,
    s.draws + 40 * s.nrx.toNat + 4, ?_⟩
  intro d h1 h2 y1 y2 a b c last
  have hterm : ∀ r, r < s.nrx.toNat → combTerm s (d r) r = (a r, b r, c r) :=
    fun r hr => combTerm_eq_entries s (d r) (by omega)
  have hzero : combSum s s.draws 0 = (a 0, b 0, c 0) := (combSum_zero s s.draws).trans (hterm 0 hmin)
  have hsucc : ∀ r, r + 1 < s.nrx.toNat → combSum s s.draws (r + 1) =
      (cadd (d (r + 1) + 35) (combSum s s.draws r).1 (a (r + 1)), cadd (d (r + 1) + 37) (combSum s s.draws r).2.1 (b (r + 1)),
       fadd (d (r + 1) + 39) (combSum s s.draws r).2.2 (c (r + 1))) := fun r hr => by
    rw [combSum_succ, hterm (r + 1) hr]
  refine ⟨congrArg (·.1) hzero, congrArg (·.2.1) hzero, congrArg (·.2.2) hzero, fun r hr =>
    ⟨congrArg (·.1) (hsucc r hr), congrArg (·.2.1) (hsucc r hr), congrArg (·.2.2) (hsucc r hr)⟩, ?_⟩
  rw [exec_eq_done (body := combBody) rfl s]
  have hlast : antennas s - 1 = last := congrArg (· - 1) (antennas_eq s hmax)
  split
  case isTrue hz =>
    rw [combBody_of_isZero (hlast ▸ hz), hlast, antennas_eq s hmax]
    rfl
  case isFalse hz => rw [combBody_of_not_isZero (hlast ▸ hz), hlast, antennas_eq s hmax]

end Sys2Proof.Combiner
end

section
/-! PROOFS. Detector and error accumulator: DET and CLRACC (R220 to R222). The decision is the ordered comparison of R16, and the patterns it
accepts are an interval: those above +0.0 up to +infinity. -/

namespace Sys2Proof.Detector
open Sys2Proof Sys2Proof.Machine Sys2Proof.Claims Sys2Proof.Rounding Sys2Proof.SourceEncoder

/-! The decision. -/

/-- Patterns without a sign bit are ordered as their values, with the NaNs above +infinity; the others lie above all of these. -/
theorem fgt0_iff_toNat (a : F64) : fgt0 a = true ↔ 0 < a.toNat ∧ a.toNat ≤ 0x7FF0000000000000 := by
  have hinf : a = 0x7FF0000000000000#64 ↔ a.toNat = 0x7FF0000000000000 := BitVec.toNat_eq
  rw [greaterThanZeroIsOrdered, hinf, finite_iff, infPattern_eq, valueOf_pos_iff, Nat.pos_iff_ne_zero (n := unitsOf _), Ne,
    unitsOf_eq_zero_iff]
  have hpattern := toNat_eq a
  cases hsign : a.msb
  case false =>
    rw [hsign, if_neg Bool.false_ne_true] at hpattern
    rw [and_iff_right rfl]
    omega
  case true =>
    rw [hsign, if_pos rfl] at hpattern
    simp only [Bool.true_eq_false, false_and, and_false, or_false]
    omega

/-- The decision by the pattern of the real part (R220). -/
theorem dec_iff (z : Cplx) : dec z = true ↔ 0 < z.re.toNat ∧ z.re.toNat ≤ 0x7FF0000000000000 := fgt0_iff_toNat z.re

/-! DET and CLRACC. -/

/-- The mismatches of two decisions, counted where the bits differ (R221). -/
theorem mismatches_eq (bh1 bh2 : Bool) (bits : BitVec 2) : mismatches bh1 bh2 bits =
    (if bh1 ≠ bits.getLsbD 0 then 1 else 0) + (if bh2 ≠ bits.getLsbD 1 then 1 else 0) := by
  rw [mismatches, ite_not, ite_not]

/-- Settles O39: the decided bits are read back from BHAT, and the words wrap as sums of words do (R20). -/
theorem detDecidesAndAccumulates : Obligations.DetDecidesAndAccumulates := by
  intro s
  refine ⟨pairBits (dec s.z1) (dec s.z2), ?_, ?_, ?_⟩
  · rw [pairBits_zero, dec_iff]
  · rw [pairBits_one, dec_iff]
  · rw [pairBits_zero, pairBits_one, Nat.add_assoc, ← mismatches_eq, ofNat_toNat_add, ofNat_toNat_add]
    exact exec_eq_done (body := detBody) rfl s

/-- Settles O40: the body is R222's three assignments. -/
theorem clraccClearsTheAccumulators : Obligations.ClraccClearsTheAccumulators := exec_eq_done (body := clraccBody) rfl

end Sys2Proof.Detector
end

section
/-! PROOFS. The invariant (R35, R46, R54 to R56, R241, R250 to R253): outside BUSY it is about few registers, which hardly any turn
writes; while BUSY the host can only request an abort, and each phase of a point hands the counters on to the next. -/

namespace Sys2Proof.Invariant
open Sys2Proof Sys2Proof.Machine Sys2Proof.Claims Sys2Proof.CoreFrame

variable {s t : State} {i : Instr}

/-! States at rest. -/

/-- The error record says that there is none (R280). -/
def NoErrorRecord (s : State) : Prop := s.errCode = 0#8 ∧ s.errCause = 0#8 ∧ s.errInfo = 0#64

theorem errorInv_iff_noErrorRecord (h : s.state ≠ .error) : ErrorInv s ↔ NoErrorRecord s := by
  rw [ErrorInv, if_neg h, NoErrorRecord]

/-- Outside BUSY the sequencer is only asked to be at rest. -/
theorem legal_of_not_busy (hmemory : MemoryInv s) (herror : ErrorInv s) (hidle : s.state ≠ .busy)
    (hrest : s.phase = .none ∧ s.abortReq = false) (hcount : s.resultCount.toNat ≤ Config.maxPoints) : LegalState s :=
  ⟨hmemory, herror, ⟨fun _ => hrest, fun hbusy => absurd hbusy hidle⟩, hcount⟩

theorem legal_of_busy (hmemory : MemoryInv s) (herror : NoErrorRecord s) (hbusy : s.state = .busy)
    (hdec : decode s.cmd = .ok i) (hrun : RunningInv i s) (hcount : s.resultCount.toNat ≤ Config.maxPoints) : LegalState s :=
  ⟨hmemory, (errorInv_iff_noErrorRecord (by simp [hbusy])).2 herror,
    ⟨fun hidle => absurd hbusy hidle, fun _ => ⟨i, hdec, hrun⟩⟩, hcount⟩

theorem running_of_legal (h : LegalState s) (hbusy : s.state = .busy) (hdec : decode s.cmd = .ok i) : RunningInv i s := by
  obtain ⟨j, hj, hrun⟩ := h.sequencer.2 hbusy
  cases hj.symm.trans hdec
  exact hrun

/-- The invariant does not see the coming turns, the last response, the free values, DROP and the interrupt registers. -/
theorem legal_of_host_side (h : LegalState s) (events : List Event) (resp : Option Word) (draws : Nat) (drop : Bool)
    (intStatus intEnable : BitVec 3) :
    LegalState { s with
      events := events, resp := resp, draws := draws, drop := drop, intStatus := intStatus, intEnable := intEnable } :=
  ⟨h.memory, h.error, h.sequencer, h.count⟩

/-- The registers the invariant sees outside BUSY are the same. -/
def RestKept (s t : State) : Prop :=
  t.state = s.state ∧ t.errCode = s.errCode ∧ t.errCause = s.errCause ∧ t.errInfo = s.errInfo ∧ t.phase = s.phase ∧
  t.abortReq = s.abortReq ∧ t.result = s.result ∧ t.resultCount = s.resultCount

theorem legal_of_restKept (h : LegalState s) (hidle : s.state ≠ .busy) (hkept : RestKept s t) : LegalState t := by
  obtain ⟨hstate, hcode, hcause, hinfo, hphase, habort, hresult, hcount⟩ := hkept
  refine legal_of_not_busy ?_ ?_ (hstate ▸ hidle) ?_ (hcount ▸ h.count)
  · rw [MemoryInv, hresult]
    exact h.memory
  · rw [ErrorInv, hstate, hcode, hcause, hinfo]
    exact h.error
  · rw [hphase, habort]
    exact h.sequencer.1 hidle

/-! The host's turns. -/

/-- Only CTRL and CMD act; every other register's rule stores into that register. -/
theorem writeReg_restKept {r : Reg} (hctrl : r ≠ .ctrl) (hcmd : r ≠ .cmd) (v : Word) : RestKept s (writeReg s v r) := by
  cases r with
  | ctrl => exact absurd rfl hctrl
  | cmd => exact absurd rfl hcmd
  | complex c part => cases c <;> exact ⟨rfl, rfl, rfl, rfl, rfl, rfl, rfl, rfl⟩
  | _ => exact ⟨rfl, rfl, rfl, rfl, rfl, rfl, rfl, rfl⟩

theorem legal_clearBlock (h : LegalState s) (hidle : s.state ≠ .busy) : LegalState (clearBlock s) := by
  rw [clearBlock_of_not_busy s hidle]
  exact legal_of_not_busy h.memory ((errorInv_iff_noErrorRecord (by simp)).2 ⟨rfl, rfl, rfl⟩) (by simp) (h.sequencer.1 hidle)
    h.count

/-- An abort is requested of a running RUNPT or SWEEP only, whose invariant leaves ABORT_REQ open (R265). -/
theorem legal_abortReq (h : LegalState s) (hbusy : s.state = .busy) (hmulti : isMultiStep s.cmd = true) :
    LegalState { s with abortReq := true } := by
  obtain ⟨i, hdec, hrun⟩ := h.sequencer.2 hbusy
  obtain ⟨hopc, -, -⟩ := Encoding.fields_of_decode hdec
  have hrun' : RunningInv i { s with abortReq := true } := by
    rw [isMultiStep, ← hopc] at hmulti
    cases i with
    | runpt | sweep => exact hrun
    | _ => cases hmulti
  exact ⟨h.memory, h.error, ⟨fun hidle => absurd hbusy hidle, fun _ => ⟨i, hdec, hrun'⟩⟩, h.count⟩

theorem legal_writeCtrl (h : LegalState s) (v : Word) : LegalState (writeCtrl v s) := by
  obtain heq | ⟨hidle, heq⟩ | ⟨hbusy, hmulti, heq⟩ := writeCtrl_cases v s <;> rw [heq]
  · exact h
  · exact legal_clearBlock h hidle
  · exact legal_abortReq h hbusy hmulti

/-- An error entry from a state at rest records a cause that R281 or R283 gives. -/
theorem legal_raiseError (h : LegalState s) (hidle : s.state ≠ .busy) {code cause : BitVec 8} (info : Word)
    (hcause : (code = codeInvalidInputSize ∧ 1 ≤ cause.toNat ∧ cause.toNat ≤ 7) ∨
      (code = codeIllegalCommand ∧ 1 ≤ cause.toNat ∧ cause.toNat ≤ 2)) : LegalState (raiseError code cause info s) :=
  legal_of_not_busy h.memory ((if_pos rfl).mpr hcause) (by simp) (h.sequencer.1 hidle) h.count

theorem checkNbits_cause {c : BitVec 8} {v : Word} (h : checkNbits s = some (c, v)) : c = 1#8 ∨ c = 2#8 := by
  unfold checkNbits at h
  grind

theorem checkNrx_cause {c : BitVec 8} {v : Word} (h : checkNrx s = some (c, v)) : c = 3#8 ∨ c = 4#8 := by
  unfold checkNrx at h
  grind

theorem checkRange_cause {c : BitVec 8} {v : Word} (h : checkRange s = some (c, v)) : c = 5#8 ∨ c = 6#8 ∨ c = 7#8 := by
  unfold checkRange at h
  grind

/-- The causes of the checks are numbered from 1 to 7 (R281). -/
theorem validate_cause {c : BitVec 8} {v : Word} (h : validate i s = some (c, v)) : 1 ≤ c.toNat ∧ c.toNat ≤ 7 := by
  have hgroup : checkNbits s = some (c, v) ∨ checkNrx s = some (c, v) ∨ checkRange s = some (c, v) := by
    cases i <;> simp only [validate, Option.or_eq_some_iff, reduceCtorEq] at h <;> tauto
  rcases hgroup with h | h | h
  · rcases checkNbits_cause h with rfl | rfl <;> decide
  · rcases checkNrx_cause h with rfl | rfl <;> decide
  · rcases checkRange_cause h with rfl | rfl | rfl <;> decide

theorem illegalCause_bounds (e : DecodeError) : 1 ≤ (illegalCause e).toNat ∧ (illegalCause e).toNat ≤ 2 := by
  cases e <;> decide

/-- The checks at issue are what the invariant asks of the command that starts (R260, R282). -/
theorem running_accept (hvalid : validate i s = none) : RunningInv i (accept i s) := by
  cases i with
  | nop | drawb | map | enc | det | clracc => exact ⟨rfl, rfl⟩
  | drawh | drawn | chan | comb | cword => exact ⟨rfl, rfl, (checkNrx_none s).1 hvalid⟩
  | runpt =>
    obtain ⟨hnbits, hnrx⟩ := Option.or_eq_none_iff.1 hvalid
    exact ⟨by simp [startPhase], by simp [startPhase], (checkNbits_none s).1 hnbits, (checkNrx_none s).1 hnrx,
      by simp [PointInv, startPhase]⟩
  | sweep =>
    obtain ⟨hnbits, hrest⟩ := Option.or_eq_none_iff.1 hvalid
    obtain ⟨hnrx, hrange⟩ := Option.or_eq_none_iff.1 hrest
    obtain ⟨hstep, hle, hcount⟩ := (checkRange_none s).1 hrange
    exact ⟨by simp [startPhase], (checkNbits_none s).1 hnbits, (checkNrx_none s).1 hnrx, ⟨hstep, hle, rfl, hcount⟩,
      by simp [PointInv, startPhase], by simp [SweepPointInv, startPhase]⟩

theorem legal_issue (h : LegalState s) (w : Word) : LegalState (issue w s) := by
  have hplaced (hidle : s.state ≠ .busy) : LegalState { s with cmd := w, degen := false } :=
    legal_of_restKept h hidle ⟨rfl, rfl, rfl, rfl, rfl, rfl, rfl, rfl⟩
  obtain ⟨-, heq⟩ | ⟨hidle, hnoError, ⟨e, -, heq⟩ | ⟨i, c, v, -, hfail, heq⟩ | ⟨i, hdec, hvalid, heq⟩⟩ :=
    issue_cases w s <;> rw [heq]
  · exact legal_of_host_side h s.events s.resp s.draws true s.intStatus s.intEnable
  · exact legal_raiseError (hplaced hidle) hidle w (.inr ⟨rfl, illegalCause_bounds e⟩)
  · exact legal_raiseError (hplaced hidle) hidle v (.inl ⟨rfl, validate_cause hfail⟩)
  · exact legal_of_busy h.memory ((errorInv_iff_noErrorRecord hnoError).1 h.error) rfl hdec (running_accept hvalid) h.count

theorem legal_writeReg (h : LegalState s) {r : Reg} (hfree : s.state ≠ .busy ∨ busyWritable r = true) (v : Word) :
    LegalState (writeReg s v r) := by
  by_cases hctrl : r = .ctrl
  · exact hctrl ▸ legal_writeCtrl h v
  by_cases hcmd : r = .cmd
  · exact hcmd ▸ legal_issue h v
  rcases hfree with hidle | hbusy
  · exact legal_of_restKept h hidle (writeReg_restKept hctrl hcmd v)
  · cases r with
    | ctrl => exact absurd rfl hctrl
    | intStatus | intEnable | reserved => exact legal_of_host_side h ..
    | _ => cases hbusy

theorem legal_hostStep (h : LegalState s) {a : Access} (hstep : hostStep a s = .next t) : LegalState t := by
  obtain ⟨-, ⟨n, off, -, rfl⟩ | ⟨n, off, v, -, rfl⟩⟩ := hostStep_next a s t hstep
  · obtain ⟨-, heq⟩ | ⟨-, heq⟩ := memRead_cases off s <;> rw [heq] <;> exact legal_of_host_side h ..
  · obtain ⟨-, -, heq⟩ | ⟨hfree, heq⟩ := memWrite_cases off v s <;> rw [heq]
    · exact legal_of_host_side h ..
    · exact legal_writeReg (legal_of_host_side h s.events none s.draws s.drop s.intStatus s.intEnable) hfree v

/-- The reset input leads to rest (R330). -/
theorem legal_applyReset (s : State) : LegalState (applyReset s) :=
  legal_of_not_busy ⟨reset_memory_wf, by simp [applyReset, State.reset]⟩
    ((errorInv_iff_noErrorRecord (by simp [applyReset, State.reset])).2 ⟨rfl, rfl, rfl⟩) (by simp [applyReset, State.reset])
    ⟨rfl, rfl⟩ (by simp [applyReset, State.reset])

/-! The codewords of a point (R241, R251). -/

theorem cwordBody_bitcnt (g : Gen) (s : State) : (cwordBody g s).bitcnt = s.bitcnt + 2#64 := by simp [cwordBody]

theorem cwordBody_bitIdx (g : Gen) (s : State) : (cwordBody g s).bitIdx = s.bitIdx + 2#64 := by simp [cwordBody]

theorem cwordBody_errcnt_le (g : Gen) (s : State) :
    ∃ n ≤ 2, (cwordBody g s).errcnt = s.errcnt + BitVec.ofNat 64 n := by
  exact ⟨_, mismatches_le _ _ _, by simp [cwordBody]; rfl⟩

/-- A codeword takes 8R Gaussians: four an antenna for its coefficients and four for its noise (R241). -/
theorem cwordBody_gaussIdx (g : Gen) (s : State) : (cwordBody g s).gaussIdx = s.gaussIdx + BitVec.ofNat 64 (8 * antennas s) := by
  have hsum : 2 * (2 * antennas s) + 2 * (2 * antennas s) = 8 * antennas s := by omega
  rw [← hsum, BitVec.ofNat_add, ← BitVec.add_assoc]
  simp [cwordBody, drawInto_idx, antennas]

/-- The counters and draw indices stay with CWDONE through a codeword: below NBITS/2 codewords nothing wraps. -/
theorem countersInv_pointCodeword (g : Gen) (hcw : s.cwdone.toNat < s.nbits.toNat / 2) (hnrx : NrxInv s) (h : CountersInv s) :
    (pointCodeword g s).cwdone.toNat = s.cwdone.toNat + 1 ∧ CountersInv (pointCodeword g s) := by
  obtain ⟨hbitcnt, herrcnt, hbitIdx, hgauss⟩ := h
  obtain ⟨n, hn, herr⟩ := cwordBody_errcnt_le g s
  have hmax := s.nbits.isLt
  have hcwdone : (pointCodeword g s).cwdone.toNat = s.cwdone.toNat + 1 := by
    rw [pointCodeword_cwdone, BitVec.toNat_add]
    simp
    omega
  refine ⟨hcwdone, ?_, ?_, ?_, ?_⟩
  · rw [hcwdone, pointCodeword_bitcnt, cwordBody_bitcnt, BitVec.toNat_add]
    simp
    omega
  · rw [pointCodeword_errcnt, pointCodeword_bitcnt, cwordBody_bitcnt, herr, BitVec.toNat_add, BitVec.toNat_add]
    simp
    omega
  · rw [hcwdone, pointCodeword_bitIdx, cwordBody_bitIdx, BitVec.toNat_add]
    simp
    omega
  · rw [hcwdone, pointCodeword_gaussIdx, cwordBody_gaussIdx, hgauss, antennas_eq s hnrx.2, pointCodeword_nrx, ← BitVec.ofNat_add,
      Nat.mul_add, Nat.mul_one]

/-! The phases of a point. -/

theorem pointInv_of_phase (hcw : s.phase ≠ .ptCw) (hfinal : s.phase ≠ .ptFinal) : PointInv s :=
  ⟨fun h => absurd h hcw, fun h => absurd h hfinal⟩

theorem pointInv_pointStart (sweep : Bool) (h : NbitsInv s) : PointInv (pointStart sweep s) := by
  obtain ⟨hpos, heven⟩ := h
  refine ⟨fun _ => ⟨?_, rfl, Nat.le_refl 0, rfl, rfl⟩, fun h => by cases h⟩
  show 0 < s.nbits.toNat / 2
  omega

/-- The phase after a codeword: PT_FINAL when CWDONE + 1, with wrap, is NBITS/2 (R261, R20). -/
theorem pointCodeword_phase_toNat (g : Gen) (hphase : s.phase = .ptCw) :
    (pointCodeword g s).phase = if (s.cwdone.toNat + 1) % 2 ^ 64 = s.nbits.toNat / 2 then .ptFinal else .ptCw := by
  have hlast : s.cwdone + 1#64 = s.nbits / 2#64 ↔ (s.cwdone.toNat + 1) % 2 ^ 64 = s.nbits.toNat / 2 := by
    rw [← BitVec.toNat_inj, BitVec.toNat_add, BitVec.toNat_udiv]
    rfl
  simp only [pointCodeword_phase, hlast, hphase]

/-- Within a point CWDONE does not wrap. -/
theorem pointCodeword_next (g : Gen) (hphase : s.phase = .ptCw) (hcw : s.cwdone.toNat < s.nbits.toNat / 2) :
    (pointCodeword g s).phase = if s.cwdone.toNat + 1 = s.nbits.toNat / 2 then .ptFinal else .ptCw := by
  have hmax := s.nbits.isLt
  rw [pointCodeword_phase_toNat g hphase, Nat.mod_eq_of_lt (by omega)]

theorem pointCodeword_phase_ne (g : Gen) (hphase : s.phase = .ptCw) :
    (pointCodeword g s).phase ≠ .none ∧ (pointCodeword g s).phase ≠ .swStart := by
  rw [pointCodeword_phase, hphase]
  split <;> simp

theorem pointInv_pointCodeword (g : Gen) (hphase : s.phase = .ptCw) (hnrx : NrxInv s) (h : PointInv s) :
    PointInv (pointCodeword g s) := by
  obtain ⟨hcw, hcounters⟩ := h.1 hphase
  obtain ⟨hcwdone, hcounters'⟩ := countersInv_pointCodeword g hcw hnrx hcounters
  rw [PointInv, pointCodeword_next g hphase hcw, pointCodeword_nbits, hcwdone]
  by_cases hlast : s.cwdone.toNat + 1 = s.nbits.toNat / 2
  · rw [if_pos hlast]
    exact ⟨nofun, fun _ => ⟨hlast, hcounters'⟩⟩
  · rw [if_neg hlast]
    exact ⟨fun _ => ⟨by omega, hcounters'⟩, nofun⟩

/-! The RESULT memory. -/

theorem writeWord_region {m : Memory} {a : Nat} (h : ∀ c ∈ m, 0x1000 ≤ c.1 ∧ c.1 < 0x3000) (hlo : 0x1000 ≤ a)
    (hhi : a + 8 ≤ 0x3000) (v : Word) : ∀ c ∈ writeWord m a v, 0x1000 ≤ c.1 ∧ c.1 < 0x3000 := by
  intro c hc
  obtain hin | ⟨d, hd, hoff⟩ := writeWord_keys m a v c hc
  · omega
  · exact hoff ▸ h d hd

/-- The entry of point K lies in the RESULT region (R54). -/
theorem memoryInv_recordPoint (hk : s.k < 256) (h : MemoryInv s) : MemoryInv (recordPoint s) := by
  obtain ⟨hwf, hregion⟩ := h
  refine ⟨recordPoint_wf s hwf, ?_⟩
  unfold recordPoint
  dsimp only
  iterate 4 refine writeWord_region ?_ (by unfold resultOffset; omega) (by unfold resultOffset; omega) _
  exact hregion

/-! The core's turns. -/

/-- The command goes on in a state its invariant allows, or it has ended and the sequencer is at rest. -/
def GoesOnOrEnds (i : Instr) (t : State) : Prop :=
  (t.state = .busy ∧ RunningInv i t) ∨ (t.state ≠ .busy ∧ t.phase = .none ∧ t.abortReq = false)

theorem goesOnOrEnds_endCmd (i : Instr) {x : CmdState} (hx : x ≠ .busy) (s : State) : GoesOnOrEnds i (endCmd x s) :=
  .inr ⟨hx, rfl, rfl⟩

/-- What is left to show of a core step: it leaves the command and the error record alone, and enters no ERROR (R286). -/
theorem legal_of_controlKept (h : LegalState s) (hbusy : s.state = .busy) (hdec : decode s.cmd = .ok i) (hkept : ControlKept s t)
    (hmemory : MemoryInv t) (hcount : t.resultCount.toNat ≤ Config.maxPoints) (hseq : GoesOnOrEnds i t) : LegalState t := by
  obtain ⟨hcmd, -, hcode, hcause, hinfo, -, -, -, -, -, -, -, -, -, -, hstate⟩ := hkept
  have hrecord : NoErrorRecord t := by
    rw [NoErrorRecord, hcode, hcause, hinfo]
    exact (errorInv_iff_noErrorRecord (by simp [hbusy])).1 h.error
  have hnoError : t.state ≠ .error := by rcases hstate with h | h | h <;> simp [h, hbusy]
  rcases hseq with ⟨hbusy', hrun⟩ | ⟨hidle, hrest⟩
  · exact legal_of_busy hmemory hrecord hbusy' (hcmd ▸ hdec) hrun hcount
  · exact legal_of_not_busy hmemory ((errorInv_iff_noErrorRecord hnoError).2 hrecord) hidle hrest hcount

/-- The same of a core step that writes nothing a SWEEP writes. -/
theorem legal_of_sweepKept (h : LegalState s) (hbusy : s.state = .busy) (hdec : decode s.cmd = .ok i) (hkept : ControlKept s t)
    (hsweep : SweepKept s t) (hseq : GoesOnOrEnds i t) : LegalState t := by
  obtain ⟨-, -, hresult, hcount, -⟩ := hsweep
  have hmemory : MemoryInv t := by
    rw [MemoryInv, hresult]
    exact h.memory
  exact legal_of_controlKept h hbusy hdec hkept hmemory (hcount ▸ h.count) hseq

theorem legal_unit (h : LegalState s) (hbusy : s.state = .busy) (hdec : decode s.cmd = .ok i) {body : State → State}
    (hbody : unitBody i = some body) : LegalState (endCmd .done (body s)) := by
  have hstep : CoreStep s i (endCmd .done (body s)) := .unit hbody
  refine legal_of_sweepKept h hbusy hdec hstep.controlKept (hstep.sweepKept ?_ ?_) (goesOnOrEnds_endCmd i (by simp) _)
  · rintro rfl
    cases hbody
  · rintro rfl
    cases hbody

/-- No core step writes the configuration, so the running command stays validated (R87, R281). -/
theorem validated_of_controlKept (hkept : ControlKept s t) :
    (NbitsInv s → NbitsInv t) ∧ (NrxInv s → NrxInv t) ∧ (RangeInv s → RangeInv t) ∧ t.p = s.p ∧
      snrPoint t = snrPoint s := by
  obtain ⟨-, -, -, -, -, -, hnbits, hnrx, hstart, hend, hstep, -, hp, -⟩ := hkept
  have hcount : pointCount t = pointCount s := by rw [pointCount, hstart, hend, hstep, pointCount]
  refine ⟨fun h => ?_, fun h => ?_, fun h => ?_, hp, ?_⟩
  · rwa [NbitsInv, hnbits]
  · rwa [NrxInv, hnrx]
  · rwa [RangeInv, hstart, hend, hstep, hp, hcount]
  · funext k
    rw [snrPoint, hstart, hstep, snrPoint]

theorem legal_runpt (h : LegalState s) (hbusy : s.state = .busy) (hdec : decode s.cmd = .ok .runpt)
    (hexec : exec .runpt s = .next t) : LegalState t := by
  obtain ⟨-, hnostart, hnbits, hnrx, hpoint⟩ := running_of_legal h hbusy hdec
  have hstep := coreStep_of_exec hexec
  have hkept := hstep.controlKept
  obtain ⟨hnbits', hnrx', -⟩ := validated_of_controlKept hkept
  refine legal_of_sweepKept h hbusy hdec hkept (hstep.sweepKept (by simp) fun _ => hnostart) ?_
  obtain ⟨-, -, rfl⟩ | ⟨-, ⟨hphase, -⟩ | ⟨-, rfl⟩ | ⟨hphase, rfl⟩ | ⟨-, rfl⟩⟩ := sequencerStep_next _ _ _ _ hexec
  · exact goesOnOrEnds_endCmd _ (by simp) _
  · exact absurd hphase hnostart
  · exact .inl ⟨hbusy, by simp, by simp, hnbits' hnbits, hnrx' hnrx, pointInv_pointStart false hnbits⟩
  · obtain ⟨hrunning, hnostart'⟩ := pointCodeword_phase_ne Config.gen hphase
    exact .inl ⟨by simp [hbusy], hrunning, hnostart', hnbits' hnbits, hnrx' hnrx, pointInv_pointCodeword _ hphase hnrx hpoint⟩
  · exact goesOnOrEnds_endCmd _ (by simp) _

/-! The points of a SWEEP (R250, R253). -/

theorem pointCount_pos (hstep : 0 < s.snrStep.toInt) (hle : s.snrStart.toInt ≤ s.snrEnd.toInt) : 0 < pointCount s := by
  have hdiv : 0 ≤ (s.snrEnd.toInt - s.snrStart.toInt) / s.snrStep.toInt := Int.ediv_nonneg (by omega) (by omega)
  unfold pointCount
  omega

/-- PT_FINAL before the last point selects the next one. -/
theorem sweepFinal_of_more (hmore : s.k + 1 ≠ s.p) :
    (sweepFinal s).state = s.state ∧ (sweepFinal s).phase = .ptInit ∧ (sweepFinal s).k = s.k + 1 ∧
      (sweepFinal s).stream = BitVec.ofNat 64 (s.k + 1) ∧ (sweepFinal s).snrCur = snrPoint s (s.k + 1) ∧
      (sweepFinal s).abortReq = s.abortReq := by
  rw [sweepFinal_eq, if_neg hmore]
  simp

theorem sweepFinal_result (s : State) : (sweepFinal s).result = (recordPoint (finalisePoint s)).result := by
  rw [sweepFinal_eq]
  split <;> simp only [endCmd_result]

theorem sweepFinal_resultCount (s : State) : (sweepFinal s).resultCount = BitVec.ofNat 64 (s.k + 1) := by
  rw [sweepFinal_eq]
  split <;> simp

/-- A SWEEP that goes on has a phase, and stands in its point and at its point. -/
theorem legal_sweep_of_busy (h : LegalState s) (hbusy : s.state = .busy) (hdec : decode s.cmd = .ok .sweep) (hkept : ControlKept s t)
    (hmemory : MemoryInv t) (hcount : t.resultCount.toNat ≤ Config.maxPoints) (hbusy' : t.state = .busy)
    (hphase : t.phase ≠ .none) (hpoint : PointInv t) (hcurrent : SweepPointInv t) : LegalState t := by
  obtain ⟨-, hnbits, hnrx, hrange, -, -⟩ := running_of_legal h hbusy hdec
  obtain ⟨hnbits', hnrx', hrange', -⟩ := validated_of_controlKept hkept
  exact legal_of_controlKept h hbusy hdec hkept hmemory hcount
    (.inl ⟨hbusy', hphase, hnbits' hnbits, hnrx' hnrx, hrange' hrange, hpoint, hcurrent⟩)

/-- PT_FINAL ends the SWEEP after its last point, else it selects the next one. -/
theorem legal_sweepFinal (h : LegalState s) (hbusy : s.state = .busy) (hdec : decode s.cmd = .ok .sweep)
    (hphase : s.phase = .ptFinal) : LegalState (sweepFinal s) := by
  have hkept := sweepFinal_controlKept s
  obtain ⟨-, -, -, ⟨-, -, -, hpmax⟩, -, hcurrent⟩ := running_of_legal h hbusy hdec
  obtain ⟨hk, -⟩ := hcurrent (by simp [hphase])
  have hk256 : s.k < 256 := Nat.lt_of_lt_of_le hk hpmax
  have hmemory : MemoryInv (sweepFinal s) := by
    rw [MemoryInv, sweepFinal_result]
    exact memoryInv_recordPoint (s := finalisePoint s) hk256 h.memory
  have hcount : (sweepFinal s).resultCount.toNat ≤ Config.maxPoints := by
    rw [sweepFinal_resultCount, BitVec.toNat_ofNat]
    exact Nat.le_trans (Nat.mod_le _ _) hk256
  obtain ⟨-, -, -, hp, hpoints⟩ := validated_of_controlKept hkept
  by_cases hlast : s.k + 1 = s.p
  · refine legal_of_controlKept h hbusy hdec hkept hmemory hcount ?_
    rw [sweepFinal_eq, if_pos hlast]
    exact goesOnOrEnds_endCmd _ (by simp) _
  · obtain ⟨hstate, hphase', hk', hstream, hcur, -⟩ := sweepFinal_of_more hlast
    refine legal_sweep_of_busy h hbusy hdec hkept hmemory hcount (hstate.trans hbusy) (by simp [hphase'])
      (pointInv_of_phase (by simp [hphase']) (by simp [hphase'])) fun _ => ?_
    rw [hp, hk', hstream, hcur, sweepFinal_resultCount, hpoints]
    exact ⟨by omega, rfl, rfl, rfl⟩

theorem legal_sweep (h : LegalState s) (hbusy : s.state = .busy) (hdec : decode s.cmd = .ok .sweep)
    (hexec : exec .sweep s = .next t) : LegalState t := by
  obtain ⟨-, hnbits, hnrx, ⟨hstep, hle, hp, -⟩, hpoint, hcurrent⟩ := running_of_legal h hbusy hdec
  have hkept := (coreStep_of_exec hexec).controlKept
  obtain ⟨-, -, rfl⟩ | ⟨-, ⟨hphase, rfl⟩ | ⟨hphase, rfl⟩ | ⟨hphase, rfl⟩ | ⟨hphase, rfl⟩⟩ := sequencerStep_next _ _ _ _ hexec
  · exact legal_of_controlKept h hbusy hdec hkept h.memory h.count (goesOnOrEnds_endCmd _ (by simp) _)
  · have hp' : 0 < (sweepStart s).p := hp ▸ pointCount_pos hstep hle
    exact legal_sweep_of_busy h hbusy hdec hkept h.memory (by simp) hbusy (by simp) (pointInv_of_phase (by simp) (by simp))
      fun _ => ⟨hp', rfl, rfl, rfl⟩
  · exact legal_sweep_of_busy h hbusy hdec hkept h.memory h.count hbusy (by simp) (pointInv_pointStart true hnbits)
      fun _ => hcurrent (by simp [hphase])
  · obtain ⟨hrunning, -⟩ := pointCodeword_phase_ne Config.gen hphase
    refine legal_sweep_of_busy h hbusy hdec hkept ?_ ?_ ?_ hrunning (pointInv_pointCodeword _ hphase hnrx hpoint) fun _ => ?_
    · simpa [MemoryInv] using h.memory
    · simpa using h.count
    · simpa using hbusy
    · simpa [snrPoint] using hcurrent (by simp [hphase])
  · exact legal_sweepFinal h hbusy hdec hphase

theorem legal_exec (h : LegalState s) (hbusy : s.state = .busy) (hdec : decode s.cmd = .ok i) (hexec : exec i s = .next t) :
    LegalState t := by
  cases hbody : unitBody i with
  | some body =>
    rw [exec_of_unitBody hbody] at hexec
    rw [unitStep_next _ _ _ hexec]
    exact legal_unit h hbusy hdec hbody
  | none =>
    cases i with
    | runpt => exact legal_runpt h hbusy hdec hexec
    | sweep => exact legal_sweep h hbusy hdec hexec
    | _ => cases hbody

theorem legal_coreTurn (h : LegalState s) (hstep : coreTurn s = .next t) : LegalState t := by
  obtain ⟨-, rfl⟩ | ⟨hbusy, i, hdec, hexec⟩ := coreTurn_next s t hstep
  · exact h
  · exact legal_exec h hbusy hdec hexec

/-- Settles O10: a step is a turn of the core, of the host or of the reset input, and each keeps the invariant. -/
theorem stepKeepsTheInvariant : Obligations.StepKeepsTheInvariant := by
  intro s t h hstep
  have hturn (rest : List Event) : LegalState { s with events := rest } :=
    legal_of_host_side h rest s.resp s.draws s.drop s.intStatus s.intEnable
  obtain ⟨-, hcore⟩ | ⟨rest, -, hcore⟩ | ⟨a, rest, -, hhost⟩ | ⟨rest, -, rfl⟩ := step_next s t hstep
  · exact legal_coreTurn h hcore
  · exact legal_coreTurn (hturn rest) hcore
  · exact legal_hostStep (hturn rest) hhost
  · exact legal_applyReset _

end Sys2Proof.Invariant
end

section
/-! PROOFS. The core's turns (R261, R315), the acceptance of a command (R260, R282) and the CTRL write (R265, R295). -/

namespace Sys2Proof.Lifecycle
open Sys2Proof Sys2Proof.Machine Sys2Proof.Claims

variable {s : State} {i : Instr} {rest : List Event}

/-! The core's turns. -/

/-- When no turn is listed the core moves. -/
theorem step_of_no_events (hev : s.events = []) : step s = coreTurn s := by
  unfold step nextTurn
  rw [hev]

theorem step_of_core_first (hev : s.events = .core :: rest) : step s = coreTurn { s with events := rest } :=
  Aperture.step_of_events hev

theorem coreTurn_of_not_busy (hidle : s.state ≠ .busy) : coreTurn s = .next s := if_neg hidle

/-- Settles O4. -/
theorem stepRunsTheCommandInCmd : Obligations.StepRunsTheCommandInCmd := fun s _ hbusy hdec _ =>
  ⟨fun hev => (step_of_no_events hev).trans (SourceEncoder.coreTurn_of_busy hbusy hdec),
    fun rest hev => (step_of_core_first hev).trans (SourceEncoder.coreTurn_of_busy (s := { s with events := rest }) hbusy hdec)⟩

/-- Settles O6. -/
theorem coreWaitsOutsideBusy : Obligations.CoreWaitsOutsideBusy := fun s hidle =>
  ⟨fun hev => (step_of_no_events hev).trans (coreTurn_of_not_busy hidle),
    fun rest hev => (step_of_core_first hev).trans (coreTurn_of_not_busy (s := { s with events := rest }) hidle)⟩

/-! Acceptance. -/

theorem startPhase_eq (i : Instr) : startPhase i = firstPhase i := by cases i <;> rfl

/-- A placed command stands as an accepted issue leaves it, with a turn of the core listed first (R260; log 10). -/
theorem withFetchWord_encode (s : State) (i : Instr) : s.withFetchWord 64 (encode i).toNat =
    { s with
      cmd := encode i, degen := false, state := .busy, abortReq := false, events := .core :: s.events
      phase := firstPhase i, p := if i = .sweep then pointCount s else s.p } := by
  rw [State.withFetchWord, Nat.mod_eq_of_lt (encode i).isLt, BitVec.ofNat_toNat, BitVec.setWidth_eq, placeCommand,
    Encoding.decode_encode, ← startPhase_eq]
  rfl

/-- Settles O5. -/
theorem placedCommandRunsNext : Obligations.PlacedCommandRunsNext := by
  intro s i
  rw [withFetchWord_encode]
  exact (stepRunsTheCommandInCmd _ i rfl (Encoding.decode_encode i) (by cases i <;> rfl)).2 s.events rfl

/-- The checks of the model and the causes of R281 fail together (R282). -/
theorem validate_eq_none_iff (i : Instr) (s : State) : validate i s = none ↔ firstFailure i s = none := by
  have hpoints : pointCount s ≤ 256 ↔ (s.snrEnd.toInt - s.snrStart.toInt) / s.snrStep.toInt + 1 ≤ 256 := by
    unfold pointCount
    omega
  have hnone : firstFailure i s = none ↔ ∀ c ∈ sizeCauses s, c.1 = true → c.2.1 ∉ checkedCauses i := by
    simp [firstFailure]
  rw [hnone]
  cases i with
  | nop | drawb | map | enc | det | clracc => simp [validate, checkedCauses]
  | drawh | drawn | chan | comb | cword =>
    simp only [validate, checkNrx_none, sizeCauses, checkedCauses]
    simp
    omega
  | runpt =>
    simp only [validate, Option.or_eq_none_iff, checkNbits_none, checkNrx_none, sizeCauses, checkedCauses]
    simp
    omega
  | sweep =>
    simp only [validate, Option.or_eq_none_iff, checkNbits_none, checkNrx_none, checkRange_none, hpoints, sizeCauses, checkedCauses]
    simp
    omega

/-- A legal word whose checks pass is accepted wherever commands are taken (R260). -/
theorem issue_of_valid {w : Word} (hs : takesCommands s) (hdec : decode w = .ok i)
    (hvalid : validate i { s with cmd := w, degen := false } = none) : issue w s = accept i { s with cmd := w, degen := false } := by
  obtain ⟨hdropped, -⟩ | ⟨-, -, ⟨e, he, -⟩ | ⟨j, c, v, hj, hfail, -⟩ | ⟨j, hj, -, hissue⟩⟩ := issue_cases w s
  · rcases hs with h | h | h <;> simp [h] at hdropped
  · cases hdec.symm.trans he
  · cases hdec.symm.trans hj
    cases hvalid.symm.trans hfail
  · cases hdec.symm.trans hj
    exact hissue

/-- Settles O28. -/
theorem validCommandIsAccepted : Obligations.ValidCommandIsAccepted := by
  intro s rest w i hs hdec hchecks hev
  have hidle : s.state ≠ .busy := by rcases hs with h | h | h <;> simp [h]
  have hvalid : validate i { s with events := rest, resp := none, cmd := w, degen := false } = none :=
    (validate_eq_none_iff i _).2 hchecks
  rw [Aperture.step_write_reg (r := .cmd) rfl (.inl hidle) hev, writeReg,
    issue_of_valid (s := { s with events := rest, resp := none }) hs hdec hvalid, ← startPhase_eq]
  rfl

/-! The CTRL write. -/

theorem isMultiStep_iff (w : Word) : isMultiStep w = true ↔ w.extractLsb' 0 8 = 0x0B#8 ∨ w.extractLsb' 0 8 = 0x0C#8 := by
  rw [isMultiStep, Encoding.opcOf_eq, ← BitVec.toNat_inj, ← BitVec.toNat_inj]
  simp

/-- While BUSY the clear has no effect, so the write is at most an abort request (R265, R295). -/
theorem writeCtrl_of_busy (v : Word) (hbusy : s.state = .busy) :
    writeCtrl v s =
      if v.getLsbD 1 = true ∧ (s.cmd.extractLsb' 0 8 = 0x0B#8 ∨ s.cmd.extractLsb' 0 8 = 0x0C#8) then { s with abortReq := true }
      else s := by
  simp [writeCtrl, clearBlock, requestAbort, hbusy, ite_and, isMultiStep_iff]

/-- Outside BUSY no abort is requested, cleared or not (R265). -/
theorem writeCtrl_of_not_busy (v : Word) (hidle : s.state ≠ .busy) :
    writeCtrl v s = if v.getLsbD 0 = true then clearBlock s else s := by
  have hidle' : (if v.getLsbD 0 = true then clearBlock s else s).state ≠ .busy := by
    split
    · simp [clearBlock_of_not_busy s hidle]
    · exact hidle
  have hnone : requestAbort (if v.getLsbD 0 = true then clearBlock s else s) = if v.getLsbD 0 = true then clearBlock s else s :=
    if_neg fun h => hidle' h.1
  rw [writeCtrl, hnone, ite_self]

/-- Settles O25. -/
theorem ctrlClearsOrAborts : Obligations.CtrlClearsOrAborts := by
  intro s rest v hev
  rw [Aperture.step_write_reg (r := .ctrl) rfl (.inr rfl) hev, writeReg]
  by_cases hbusy : s.state = .busy
  · rw [if_pos hbusy, writeCtrl_of_busy (s := { s with events := rest, resp := none }) v hbusy]
  · rw [if_neg hbusy, writeCtrl_of_not_busy (s := { s with events := rest, resp := none }) v hbusy,
      clearBlock_of_not_busy { s with events := rest, resp := none } hbusy]

end Sys2Proof.Lifecycle
end

section
/-! PROOFS. The pipeline and the sequencer's phases: CWORD as its eight parts (R240), the steps of RUNPT and SWEEP (R251 to R255, R261,
R266) and the record of a point (R54, R253). -/

namespace Sys2Proof.Phases
open Sys2Proof Sys2Proof.Machine Sys2Proof.Claims Sys2Proof.CoreFrame

variable {s : State} {i : Instr}

/-! CWORD. The end of a part is seen by no later part, so only the last end counts. -/

theorem setIntDone_setIntDone (f : BitVec 3) : setIntDone (setIntDone f) = setIntDone f := by
  rw [setIntDone, setIntDone, BitVec.or_assoc, BitVec.or_self]

theorem setIntDegen_setIntDone (f : BitVec 3) : setIntDegen (setIntDone f) = setIntDone (setIntDegen f) := by
  rw [setIntDegen, setIntDone, setIntDone, setIntDegen, BitVec.or_assoc, BitVec.or_assoc, BitVec.or_comm 1#3]

theorem endCmd_endCmd (x : CmdState) (s : State) : endCmd x (endCmd x s) = endCmd x s := by
  rw [endCmd, endCmd, setIntDone_setIntDone]

theorem chanInto_endCmd (x : CmdState) (s : State) (sg : F64) (ps : List (Nat × Nat)) (f : Vector Cplx 32 × Nat) :
    chanInto (endCmd x s) sg ps f = chanInto s sg ps f := by
  induction ps generalizing f with
  | nil => rfl
  | cons p ps ih => exact ih _

theorem combSum_endCmd (x : CmdState) (s : State) (d n : Nat) : combSum (endCmd x s) d n = combSum s d n := by
  induction n with
  | zero => rfl
  | succ n ih =>
    rw [Combiner.combSum_succ, Combiner.combSum_succ, ih]
    rfl

theorem chanBody_endCmd (x : CmdState) (s : State) : chanBody (endCmd x s) = endCmd x (chanBody s) := by
  simp only [chanBody, chanInto_endCmd]
  rfl

theorem combBody_endCmd (x : CmdState) (s : State) : combBody (endCmd x s) = endCmd x (combBody s) := by
  have hint (zero : Bool) (f : BitVec 3) :
      (if zero then setIntDegen (setIntDone f) else setIntDone f) = setIntDone (if zero then setIntDegen f else f) := by
    cases zero
    · rfl
    · exact setIntDegen_setIntDone f
  simp only [combBody, combSum_endCmd, endCmd_intStatus, hint]
  rfl

theorem cwordBody_endCmd (g : Gen) (x : CmdState) (s : State) : cwordBody g (endCmd x s) = endCmd x (cwordBody g s) := by
  have hdrawb (q : State) : drawbBody g (endCmd x q) = endCmd x (drawbBody g q) := rfl
  have hmap (q : State) : mapBody (endCmd x q) = endCmd x (mapBody q) := rfl
  have henc (q : State) : encBody true (endCmd x q) = endCmd x (encBody true q) := rfl
  have hdrawh (q : State) : drawhBody g (endCmd x q) = endCmd x (drawhBody g q) := rfl
  have hdrawn (q : State) : drawnBody g (endCmd x q) = endCmd x (drawnBody g q) := rfl
  have hdet (q : State) : detBody (endCmd x q) = endCmd x (detBody q) := rfl
  rw [cwordBody, hdrawb, hmap, henc, hdrawh, hdrawn, chanBody_endCmd, combBody_endCmd, hdet, cwordBody]

/-- No body reads or writes what the end of a command does, but for COMB's DEGEN bit beside its DONE bit (R204, R262). -/
theorem unitBody_endCmd {body : State → State} (hbody : unitBody i = some body) (x : CmdState) (s : State) :
    body (endCmd x s) = endCmd x (body s) := by
  cases i with
  | chan => cases hbody; exact chanBody_endCmd x s
  | comb => cases hbody; exact combBody_endCmd x s
  | cword => cases hbody; exact cwordBody_endCmd _ x s
  | _ => cases hbody <;> rfl

/-- A command that runs where another has ended ends as if the other had not. -/
theorem exec_endCmd {body : State → State} (hbody : unitBody i = some body) (s : State) :
    exec i (endCmd .done s) = .next (endCmd .done (body s)) := by
  rw [exec_of_unitBody hbody, unitStep, unitBody_endCmd hbody, endCmd_endCmd]

/-- Settles O41. -/
theorem cwordIsItsEightParts : Obligations.CwordIsItsEightParts := fun s =>
  ⟨_, _, _, _, _, _, _, _, exec_of_unitBody (i := .drawb) rfl s, exec_endCmd (i := .map) rfl _, exec_endCmd (i := .enc true) rfl _,
    exec_endCmd (i := .drawh) rfl _, exec_endCmd (i := .drawn) rfl _, exec_endCmd (i := .chan) rfl _, exec_endCmd (i := .comb) rfl _,
    exec_endCmd (i := .det) rfl _, exec_of_unitBody (i := .cword) rfl s⟩

/-! The step of each phase. -/

theorem sequencerStep_of_abort (g : Gen) (sweep : Bool) (habort : s.abortReq = true) (hphase : s.phase ≠ .swStart) :
    sequencerStep g sweep s = .next (endCmd .aborted s) := if_pos ⟨habort, hphase⟩

/-- SW_START comes before the abort check (R266). -/
theorem sequencerStep_swStart (g : Gen) (sweep : Bool) (hphase : s.phase = .swStart) :
    sequencerStep g sweep s = .next (sweepStart s) := by simp [sequencerStep, hphase]

theorem sequencerStep_ptInit (g : Gen) (sweep : Bool) (habort : s.abortReq = false) (hphase : s.phase = .ptInit) :
    sequencerStep g sweep s = .next (pointStart sweep s) := by simp [sequencerStep, habort, hphase]

theorem sequencerStep_ptCw (g : Gen) (sweep : Bool) (habort : s.abortReq = false) (hphase : s.phase = .ptCw) :
    sequencerStep g sweep s = .next (pointCodeword g s) := by simp [sequencerStep, habort, hphase]

theorem sequencerStep_ptFinal (g : Gen) (sweep : Bool) (habort : s.abortReq = false) (hphase : s.phase = .ptFinal) :
    sequencerStep g sweep s = .next (if sweep then sweepFinal s else endCmd .done (finalisePoint s)) := by
  simp [sequencerStep, habort, hphase]

/-- Settles O45. -/
theorem abortEndsTheCommand : Obligations.AbortEndsTheCommand := fun _ habort hphase =>
  ⟨sequencerStep_of_abort _ _ habort hphase, sequencerStep_of_abort _ _ habort hphase⟩

/-! RUNPT. -/

/-- A codeword sets no other INT_STATUS bit than DEGEN (R204, R301). -/
theorem cwordBody_intStatus_done (g : Gen) (s : State) : (cwordBody g s).intStatus.getLsbD 0 = s.intStatus.getLsbD 0 := by
  have hcomb (q : State) : (combBody q).intStatus.getLsbD 0 = q.intStatus.getLsbD 0 := by
    unfold combBody
    dsimp only
    split
    · rw [getLsbD_setIntDegen]
      exact Bool.or_false _
    · rfl
  rw [cwordBody, detBody_intStatus, hcomb]
  simp only [chanBody_intStatus, drawnBody_intStatus, drawhBody_intStatus, encBody_intStatus, mapBody_intStatus, drawbBody_intStatus]

/-- A codeword of a point and CWORD leave the same registers but for CWDONE, PHASE and the end (R240, R261). -/
theorem done_pointCodeword (g : Gen) (s : State) :
    done { pointCodeword g s with cwdone := (cwordBody g s).cwdone } = endCmd .done (cwordBody g s) := by
  simp only [done, endCmd, setIntDone, pointCodeword]

/-- Settles O42. -/
theorem runptStepsThroughItsPhases : Obligations.RunptStepsThroughItsPhases := by
  intro s habort
  refine ⟨sequencerStep_ptInit _ _ habort, fun hphase => ?_, sequencerStep_ptFinal _ _ habort⟩
  refine ⟨_, _, exec_of_unitBody (i := .cword) rfl s, sequencerStep_ptCw _ _ habort hphase, ?_,
    Invariant.pointCodeword_phase_toNat _ hphase, done_pointCodeword _ s, pointCodeword_state _ s, pointCodeword_abortReq _ s, ?_⟩
  · rw [pointCodeword_cwdone, SourceEncoder.ofNat_toNat_add]
  · rw [pointCodeword_intStatus, cwordBody_intStatus_done]

/-! SWEEP. -/

/-- The first point is SNR_START (R250). -/
theorem snrPoint_zero (s : State) : snrPoint s 0 = s.snrStart := by simp [snrPoint]

/-- Settles O43. -/
theorem sweepStepsThroughItsPhases : Obligations.SweepStepsThroughItsPhases := by
  refine fun s => ⟨fun hphase => ?_, sequencerStep_ptInit _ _, fun habort hphase => ?_⟩
  · exact (sequencerStep_swStart _ true hphase).trans (by rw [sweepStart, snrPoint_zero])
  · exact (sequencerStep_ptCw _ true habort hphase).trans (sequencerStep_ptCw _ false habort hphase).symm

/-- The record of a point writes its RESULT entry and RESULT_COUNT (R253). -/
theorem recordPoint_eq (s : State) :
    recordPoint s = { s with result := (recordPoint s).result, resultCount := BitVec.ofNat 64 (s.k + 1) } := by
  dsimp only [recordPoint]

/-- The four words of the entry of point K: SNR, ERR, BER, BITS (R54, R253). -/
theorem readWord_recordPoint (hwf : Memory.wf s.result = true) :
    readWord (recordPoint s).result (resultOffset s.k 0) = s.snrCur.signExtend 64 ∧
    readWord (recordPoint s).result (resultOffset s.k 1) = s.errcnt ∧
    readWord (recordPoint s).result (resultOffset s.k 2) = s.ber ∧
    readWord (recordPoint s).result (resultOffset s.k 3) = s.bitcnt := by
  have hother (m : Memory) (v : Word) {a b : Nat} (hab : a < b) :
      readWord (writeWord m (resultOffset s.k b) v) (resultOffset s.k a) = readWord m (resultOffset s.k a) :=
    readWord_writeWord_other _ _ _ _ (by unfold resultOffset; omega)
  have hwf0 := writeWord_wf _ (resultOffset s.k 0) (s.snrCur.signExtend 64) hwf
  have hwf1 := writeWord_wf _ (resultOffset s.k 1) s.errcnt hwf0
  have hwf2 := writeWord_wf _ (resultOffset s.k 2) s.ber hwf1
  unfold recordPoint
  dsimp only
  refine ⟨?_, ?_, ?_, readWord_writeWord_same _ _ _ hwf2⟩
  · rw [hother _ _ (by decide), hother _ _ (by decide), hother _ _ (by decide), readWord_writeWord_same _ _ _ hwf]
  · rw [hother _ _ (by decide), hother _ _ (by decide), readWord_writeWord_same _ _ _ hwf0]
  · rw [hother _ _ (by decide), readWord_writeWord_same _ _ _ hwf1]

/-- The record writes no byte outside the 32 of its entry. -/
theorem readByte_recordPoint_other {a : Nat} (ha : a < resultOffset s.k 0 ∨ resultOffset s.k 0 + 32 ≤ a) :
    readByte (recordPoint s).result a = readByte s.result a := by
  unfold resultOffset at ha
  unfold recordPoint
  dsimp only
  iterate 4 rw [readByte_writeWord_other _ _ _ _ (by unfold resultOffset; omega)]

/-- Settles O44. -/
theorem sweepRecordsThePoint : Obligations.SweepRecordsThePoint := by
  intro s hwf habort hphase
  obtain ⟨hsnr, herr, hber, hbits⟩ := readWord_recordPoint (s := finalisePoint s) hwf
  refine ⟨sweepFinal s, sequencerStep_ptFinal _ true habort hphase, ?_⟩
  rw [Invariant.sweepFinal_result]
  refine ⟨hsnr, herr, hber, hbits, fun a ha => readByte_recordPoint_other (s := finalisePoint s) ha, ?_⟩
  have hnext : snrPoint s (s.k + 1) = BitVec.ofInt 32 (s.snrStart.toInt + (s.k + 1) * s.snrStep.toInt) := by
    rw [snrPoint, Nat.cast_succ]
  rw [sweepFinal_eq, recordPoint_eq, hnext]
  generalize (recordPoint (finalisePoint s)).result = entries
  rfl

end Sys2Proof.Phases
end

section
/-! PROOFS. The step counts of RUNPT and SWEEP (R263): without an abort and without other turns the core goes through PT_INIT, NBITS/2
codewords and PT_FINAL, once for a RUNPT and once for every point of a SWEEP. -/

namespace Sys2Proof.StepCount
open Sys2Proof Sys2Proof.Machine Sys2Proof.Claims Sys2Proof.CoreFrame Sys2Proof.Invariant Sys2Proof.Phases

variable {s t u : State} {sweep : Bool} {m n : Nat}

/-! Runs. -/

/-- n steps lead from s to t, and the machine is BUSY before each of them. -/
inductive BusyRun : Nat → State → State → Prop
  | refl (s : State) : BusyRun 0 s s
  | step {n : Nat} {s u t : State} (hbusy : s.state = .busy) (hstep : Machine.step s = .next u) (hrun : BusyRun n u t) :
    BusyRun (n + 1) s t

theorem BusyRun.run (h : BusyRun n s t) : Host.Core.run Sys2Proof.core n s = .next t := by
  induction h with
  | refl s => rfl
  | step _ hstep _ ih => exact (SourceEncoder.run_succ (M := Sys2Proof.core) hstep _).trans ih

theorem BusyRun.busy_before (h : BusyRun n s t) :
    ∀ j, j < n → ∃ u, Host.Core.run Sys2Proof.core j s = .next u ∧ u.state = .busy := by
  induction h with
  | refl s => exact fun j hj => absurd hj (Nat.not_lt_zero j)
  | @step n s u t hbusy hstep _ ih =>
    intro j hj
    cases j with
    | zero => exact ⟨s, rfl, hbusy⟩
    | succ j =>
      obtain ⟨v, hv, hvbusy⟩ := ih j (Nat.lt_of_succ_lt_succ hj)
      exact ⟨v, (SourceEncoder.run_succ (M := Sys2Proof.core) hstep _).trans hv, hvbusy⟩

theorem BusyRun.trans (h : BusyRun m s u) (h' : BusyRun n u t) : BusyRun (m + n) s t := by
  induction h with
  | refl s => rwa [Nat.zero_add]
  | step hbusy hstep _ ih =>
    rw [Nat.add_right_comm]
    exact .step hbusy hstep (ih h')

theorem BusyRun.single (hbusy : s.state = .busy) (hstep : Machine.step s = .next t) : BusyRun 1 s t :=
  .step hbusy hstep (.refl t)

/-! A running RUNPT or SWEEP. -/

/-- The command with several steps: SWEEP or RUNPT. -/
def multiStep (sweep : Bool) : Instr := if sweep then .sweep else .runpt

/-- RUNPT or SWEEP runs in a legal state, no abort is requested and no turn is listed. -/
structure Sequencing (sweep : Bool) (s : State) : Prop where
  legal : LegalState s
  busy : s.state = .busy
  command : decode s.cmd = .ok (multiStep sweep)
  noAbort : s.abortReq = false
  noEvents : s.events = []

theorem Sequencing.step_eq_exec (h : Sequencing sweep s) : step s = exec (multiStep sweep) s :=
  (Lifecycle.step_of_no_events h.noEvents).trans (SourceEncoder.coreTurn_of_busy h.busy h.command)

theorem Sequencing.step_eq (h : Sequencing sweep s) : step s = sequencerStep Config.gen sweep s := by
  rw [h.step_eq_exec]
  cases sweep <;> rfl

theorem Sequencing.controlKept (h : Sequencing sweep s) (hstep : step s = .next t) : ControlKept s t :=
  (coreStep_of_exec (h.step_eq_exec ▸ hstep)).controlKept

/-- Until it ends the command goes on running. -/
theorem Sequencing.next (h : Sequencing sweep s) (hstep : step s = .next t) (hbusy : t.state = .busy)
    (habort : t.abortReq = false) : Sequencing sweep t := by
  obtain ⟨hcmd, -, -, -, -, -, -, -, -, -, -, -, -, -, hevents, -⟩ := h.controlKept hstep
  exact ⟨stepKeepsTheInvariant s t h.legal hstep, hbusy, hcmd ▸ h.command, habort, hevents.trans h.noEvents⟩

/-- What the invariant says of both commands. -/
theorem Sequencing.running (h : Sequencing sweep s) : NbitsInv s ∧ NrxInv s ∧ PointInv s := by
  have hrun := running_of_legal h.legal h.busy h.command
  cases sweep with
  | false =>
    obtain ⟨-, -, hnbits, hnrx, hpoint⟩ := hrun
    exact ⟨hnbits, hnrx, hpoint⟩
  | true =>
    obtain ⟨-, hnbits, hnrx, -, hpoint, -⟩ := hrun
    exact ⟨hnbits, hnrx, hpoint⟩

/-- Only RUNPT and SWEEP run with a phase. -/
theorem sequencing_of_phase (hlegal : LegalState s) (hbusy : s.state = .busy) (hphase : s.phase ≠ .none)
    (habort : s.abortReq = false) (hev : s.events = []) : ∃ sweep, Sequencing sweep s := by
  obtain ⟨i, hdec, hrun⟩ := hlegal.sequencer.2 hbusy
  cases i with
  | runpt => exact ⟨false, hlegal, hbusy, hdec, habort, hev⟩
  | sweep => exact ⟨true, hlegal, hbusy, hdec, habort, hev⟩
  | _ => exact absurd hrun.1 hphase

/-! One point. -/

/-- The state in which the last codeword of a point leaves a point that starts in s: PT_INIT and NBITS/2 codewords (R251, R261). -/
def lastCodeword (sweep : Bool) (s : State) : State := (pointCodeword Config.gen)^[s.nbits.toNat / 2] (pointStart sweep s)

/-- What PT_FINAL does (R252, R254, R255). -/
def finalStep (sweep : Bool) (s : State) : State := if sweep then sweepFinal s else endCmd .done (finalisePoint s)

/-- A register that no codeword writes holds through any number of them. -/
theorem iterate_pointCodeword_kept {α : Type} (f : State → α) (hf : ∀ q, f (pointCodeword Config.gen q) = f q) (n : Nat)
    (s : State) : f ((pointCodeword Config.gen)^[n] s) = f s := by
  induction n generalizing s with
  | zero => rfl
  | succ n ih => rw [Function.iterate_succ_apply, ih, hf]

/-- A register that neither point_init nor a codeword writes holds until PT_FINAL. -/
theorem lastCodeword_kept {α : Type} (f : State → α) (hf : ∀ q, f (pointCodeword Config.gen q) = f q)
    (hinit : f (pointStart sweep s) = f s) : f (lastCodeword sweep s) = f s :=
  (iterate_pointCodeword_kept f hf _ _).trans hinit

/-- A point leaves NBITS, K, P and the points of the SWEEP alone. -/
theorem sweepConfig_lastCodeword (sweep : Bool) (s : State) :
    (lastCodeword sweep s).nbits = s.nbits ∧ (lastCodeword sweep s).k = s.k ∧ (lastCodeword sweep s).p = s.p ∧
      snrPoint (lastCodeword sweep s) = snrPoint s :=
  ⟨lastCodeword_kept (·.nbits) (pointCodeword_nbits _) rfl, lastCodeword_kept (·.k) (pointCodeword_k _) rfl,
    lastCodeword_kept (·.p) (pointCodeword_p _) rfl,
    lastCodeword_kept snrPoint (fun q => funext fun k => by simp [snrPoint]) rfl⟩

/-- From PT_CW the codewords that are left come one a step, and lead to PT_FINAL (R261). -/
theorem busyRun_codewords (n : Nat) : ∀ s, Sequencing sweep s → s.phase = .ptCw → s.cwdone.toNat + n = s.nbits.toNat / 2 →
    BusyRun n s ((pointCodeword Config.gen)^[n] s) ∧ Sequencing sweep ((pointCodeword Config.gen)^[n] s) ∧
      ((pointCodeword Config.gen)^[n] s).phase = .ptFinal := by
  induction n with
  | zero =>
    intro s h hphase hn
    obtain ⟨-, -, hpoint⟩ := h.running
    obtain ⟨hcw, -⟩ := hpoint.1 hphase
    omega
  | succ n ih =>
    intro s h hphase hn
    obtain ⟨-, hnrx, hpoint⟩ := h.running
    obtain ⟨hcw, hcounters⟩ := hpoint.1 hphase
    have hstep : step s = .next (pointCodeword Config.gen s) := h.step_eq.trans (sequencerStep_ptCw _ _ h.noAbort hphase)
    have hnext : Sequencing sweep (pointCodeword Config.gen s) :=
      h.next hstep ((pointCodeword_state _ s).trans h.busy) ((pointCodeword_abortReq _ s).trans h.noAbort)
    obtain ⟨hcwdone, -⟩ := countersInv_pointCodeword Config.gen hcw hnrx hcounters
    have hphase' := pointCodeword_next Config.gen hphase hcw
    rw [Function.iterate_succ_apply]
    by_cases hlast : s.cwdone.toNat + 1 = s.nbits.toNat / 2
    · obtain rfl : n = 0 := by omega
      exact ⟨.single h.busy hstep, hnext, by rw [Function.iterate_zero_apply, hphase', if_pos hlast]⟩
    · have hmore : (pointCodeword Config.gen s).phase = .ptCw := by rw [hphase', if_neg hlast]
      have hleft : (pointCodeword Config.gen s).cwdone.toNat + n = (pointCodeword Config.gen s).nbits.toNat / 2 := by
        rw [hcwdone, pointCodeword_nbits]
        omega
      obtain ⟨hrun, hseq, hfinal⟩ := ih _ hnext hmore hleft
      exact ⟨.step h.busy hstep hrun, hseq, hfinal⟩

/-- A point takes NBITS/2 + 1 steps up to PT_FINAL, where the command still runs. -/
theorem busyRun_lastCodeword (h : Sequencing sweep s) (hphase : s.phase = .ptInit) :
    BusyRun (s.nbits.toNat / 2 + 1) s (lastCodeword sweep s) ∧ Sequencing sweep (lastCodeword sweep s) ∧
      (lastCodeword sweep s).phase = .ptFinal := by
  have hstep : step s = .next (pointStart sweep s) := h.step_eq.trans (sequencerStep_ptInit _ _ h.noAbort hphase)
  obtain ⟨hrun, hseq, hfinal⟩ :=
    busyRun_codewords (s.nbits.toNat / 2) (pointStart sweep s) (h.next hstep h.busy h.noAbort) rfl (Nat.zero_add _)
  exact ⟨.step h.busy hstep hrun, hseq, hfinal⟩

/-- With PT_FINAL a point takes NBITS/2 + 2 steps (R263). -/
theorem busyRun_point (h : Sequencing sweep s) (hphase : s.phase = .ptInit) :
    BusyRun (s.nbits.toNat / 2 + 2) s (finalStep sweep (lastCodeword sweep s)) := by
  obtain ⟨hrun, hseq, hfinal⟩ := busyRun_lastCodeword h hphase
  exact hrun.trans (.single hseq.busy (hseq.step_eq.trans (sequencerStep_ptFinal _ _ hseq.noAbort hfinal)))

/-- At PT_FINAL all NBITS bits have been counted, and at most as many errors (R252). -/
theorem counters_lastCodeword (h : Sequencing sweep s) (hphase : s.phase = .ptInit) :
    (lastCodeword sweep s).bitcnt = s.nbits ∧ (lastCodeword sweep s).errcnt.toNat ≤ (lastCodeword sweep s).bitcnt.toNat := by
  obtain ⟨-, hseq, hfinal⟩ := busyRun_lastCodeword h hphase
  obtain ⟨⟨-, heven⟩, -, hpoint⟩ := hseq.running
  obtain ⟨hcwdone, hbitcnt, herrcnt, -, -⟩ := hpoint.2 hfinal
  obtain ⟨hnbits, -⟩ := sweepConfig_lastCodeword sweep s
  refine ⟨BitVec.eq_of_toNat_eq ?_, herrcnt⟩
  rw [hnbits] at hcwdone heven
  omega

/-- Settles O46. -/
theorem runptTakesItsStepCount : Obligations.RunptTakesItsStepCount := by
  rintro s ⟨hlegal, hbusy, hphase, habort, hev⟩ hdec
  have h : Sequencing false s := ⟨hlegal, hbusy, hdec, habort, hev⟩
  have hrun := busyRun_point h hphase
  obtain ⟨hbitcnt, herrcnt⟩ := counters_lastCodeword h hphase
  exact ⟨hrun.busy_before, _, hrun.run, rfl, hbitcnt, herrcnt, rfl⟩

/-! The points of a SWEEP. -/

/-- Before the last point PT_FINAL leads to the next point's PT_INIT, with the SWEEP still running. -/
theorem sequencing_nextPoint (h : Sequencing true s) (hphase : s.phase = .ptFinal) (hmore : s.k + 1 ≠ s.p) :
    Sequencing true (sweepFinal s) ∧ (sweepFinal s).phase = .ptInit ∧ (sweepFinal s).k = s.k + 1 := by
  have hstep : step s = .next (sweepFinal s) := h.step_eq.trans (sequencerStep_ptFinal _ _ h.noAbort hphase)
  obtain ⟨hstate, hinit, hk, -, -, habort⟩ := sweepFinal_of_more hmore
  exact ⟨h.next hstep (hstate.trans h.busy) (habort.trans h.noAbort), hinit, hk⟩

/-- After the last point PT_FINAL ends the SWEEP, with SNR_CUR and STREAM as that point had them (R255). -/
theorem sweepFinal_of_last (hlast : s.k + 1 = s.p) :
    (sweepFinal s).state = .done ∧ (sweepFinal s).resultCount = BitVec.ofNat 64 s.p ∧ (sweepFinal s).stream = s.stream ∧
      (sweepFinal s).snrCur = s.snrCur := by
  rw [sweepFinal_eq, if_pos hlast, ← hlast]
  simp

/-- A SWEEP with n points to go takes n times the steps of a point, and ends at its last point (R263). -/
theorem busyRun_points (n : Nat) : ∀ s, Sequencing true s → s.phase = .ptInit → s.k + n = s.p →
    ∃ t, BusyRun (n * (s.nbits.toNat / 2 + 2)) s t ∧ t.state = .done ∧ t.resultCount = BitVec.ofNat 64 s.p ∧
      t.stream = BitVec.ofNat 64 (s.p - 1) ∧ t.snrCur = snrPoint s (s.p - 1) := by
  induction n with
  | zero =>
    intro s h hphase hn
    obtain ⟨-, -, -, -, -, hcurrent⟩ := running_of_legal h.legal h.busy h.command
    obtain ⟨hk, -⟩ := hcurrent (by simp [hphase])
    omega
  | succ n ih =>
    intro s h hphase hn
    have hpoint := busyRun_point h hphase
    obtain ⟨-, hseq, hfinal⟩ := busyRun_lastCodeword h hphase
    obtain ⟨hnbits, hk, hp, hpoints⟩ := sweepConfig_lastCodeword true s
    by_cases hlast : s.k + 1 = s.p
    · obtain rfl : n = 0 := by omega
      obtain ⟨-, -, -, -, -, hcurrent⟩ := running_of_legal hseq.legal hseq.busy hseq.command
      obtain ⟨-, -, hstream, hsnr⟩ := hcurrent (by simp [hfinal])
      obtain ⟨hdone, hcount, hstream', hsnr'⟩ := sweepFinal_of_last (s := lastCodeword true s) (by rw [hk, hp, hlast])
      have hpred : s.k = s.p - 1 := by omega
      refine ⟨_, by rwa [Nat.zero_add, Nat.one_mul], hdone, hp ▸ hcount, ?_, ?_⟩
      · rw [← hpred, ← hk]
        exact hstream'.trans hstream
      · rw [← hpred, ← hk, ← hpoints]
        exact hsnr'.trans hsnr
    · obtain ⟨hnext, hinit, hk'⟩ := sequencing_nextPoint hseq hfinal (by rwa [hk, hp])
      have hkept := sweepFinal_controlKept (lastCodeword true s)
      obtain ⟨-, -, -, hp', hpoints'⟩ := validated_of_controlKept hkept
      obtain ⟨-, -, -, -, -, -, hnbits', -⟩ := hkept
      obtain ⟨t, hrun, hend⟩ := ih _ hnext hinit (by rw [hk', hk, hp', hp]; omega)
      rw [hnbits', hnbits] at hrun
      rw [hp', hp, hpoints', hpoints] at hend
      refine ⟨t, ?_, hend⟩
      rw [Nat.succ_mul, Nat.add_comm]
      exact hpoint.trans hrun

/-- Settles O47: SW_START comes before the points. -/
theorem sweepTakesItsStepCount : Obligations.SweepTakesItsStepCount := by
  intro s hlegal hbusy hphase habort hev
  obtain ⟨sweep, h⟩ := sequencing_of_phase hlegal hbusy (by simp [hphase]) habort hev
  cases sweep with
  | false => exact absurd hphase (runpt_phase_of_legal hlegal hbusy h.command)
  | true =>
    obtain ⟨-, -, -, ⟨hpos, hle, hp, -⟩, -, -⟩ := running_of_legal hlegal hbusy h.command
    have hstep : step s = .next (sweepStart s) := h.step_eq.trans (sequencerStep_swStart _ _ hphase)
    obtain ⟨t, hrun, hdone, hcount, hstream, hsnr⟩ :=
      busyRun_points s.p (sweepStart s) (h.next hstep hbusy habort) rfl (Nat.zero_add _)
    have hwhole : BusyRun (1 + s.p * (s.nbits.toNat / 2 + 2)) s t := (BusyRun.single hbusy hstep).trans hrun
    have hp1 : 1 ≤ s.p := hp ▸ pointCount_pos hpos hle
    refine ⟨hwhole.busy_before, t, hwhole.run, hdone, hcount, hstream, hsnr.trans ?_⟩
    rw [snrPoint, sweepStart_snrStart, sweepStart_snrStep, sweepStart_p, Nat.cast_sub hp1, Nat.cast_one]

end Sys2Proof.StepCount
end

section
/-! PROOFS. The results of a point depend on its keys only (R256, R257): a codeword reads nothing an earlier one drew, and what is left of
the free values, the sign and payload of NaNs, passes through every operation without reaching a comparison. -/

namespace Sys2Proof.PointKeys
open Sys2Proof Sys2Proof.Machine Sys2Proof.Claims Sys2Proof.Invariant Sys2Proof.StepCount

variable {a b a' b' k k' : F64} {z w z' w' : Cplx} {s s' : State} {d d' : Nat}

/-! Values alike but for which NaN they are. -/

/-- Two patterns stand for the same value, or both are NaNs (R13). -/
def Alike (a b : F64) : Prop := fview a = fview b

/-- The value of the negated pattern (R14). -/
def negView : FVal → FVal
  | .nan => .nan
  | .inf neg => .inf !neg
  | .fin neg units => .fin (!neg) units

theorem fview_fneg (a : F64) : fview (fneg a) = negView (fview a) := by
  rcases Rounding.class_cases a with h | h | h
  · rw [Rounding.fview_of_isNaN h, Rounding.fview_of_isNaN ((Rounding.isNaN_fneg a).2 h), negView]
  · rw [Rounding.fview_of_infinite h, Rounding.fview_of_infinite ((Rounding.infinite_fneg a).2 h), negView, Rounding.msb_fneg]
  · rw [Rounding.fview_of_finite h, Rounding.fview_of_finite ((Rounding.finite_fneg a).2 h), negView, Rounding.msb_fneg,
      Rounding.magOf_fneg]

theorem Alike.refl (a : F64) : Alike a a := rfl

theorem Alike.fneg (h : Alike a b) : Alike (fneg a) (fneg b) := by
  rw [Alike, fview_fneg, fview_fneg, h]

/-- A sum, and below a product and a quotient, is decided by the values of the operands, but for which NaN it is. -/
theorem Alike.fadd (d d' : Nat) (ha : Alike a a') (hb : Alike b b') : Alike (fadd d a b) (fadd d' a' b') := by
  unfold Alike Machine.fadd
  rw [ha, hb]
  cases fview a' <;> cases fview b' <;> simp only [fview_quietNaN]
  split <;> simp only [fview_quietNaN]

theorem Alike.fsub (d d' : Nat) (ha : Alike a a') (hb : Alike b b') : Alike (fsub d a b) (fsub d' a' b') :=
  ha.fadd d d' hb.fneg

theorem Alike.fmul (d d' : Nat) (ha : Alike a a') (hb : Alike b b') : Alike (fmul d a b) (fmul d' a' b') := by
  unfold Alike Machine.fmul
  rw [ha, hb]
  cases fview a' <;> cases fview b' <;> simp only [fview_quietNaN] <;> split <;> simp only [fview_quietNaN]

theorem Alike.fdiv (d d' : Nat) (ha : Alike a a') (hb : Alike b b') : Alike (fdiv d a b) (fdiv d' a' b') := by
  unfold Alike Machine.fdiv
  rw [ha, hb]
  cases fview a' <;> cases fview b' <;> simp only [fview_quietNaN]
  split
  · split <;> simp only [fview_quietNaN]
  · rfl

/-- The comparisons do not tell one NaN from another (R16, R201). -/
theorem Alike.fgt0_eq (h : Alike a b) : fgt0 a = fgt0 b := by rw [fgt0, fgt0, h]

theorem Alike.feq0_eq (h : Alike a b) : feq0 a = feq0 b := by rw [feq0, feq0, h]

/-! Complex values. -/

/-- The parts of two complex values are alike. -/
structure CAlike (z w : Cplx) : Prop where
  re : Alike z.re w.re
  im : Alike z.im w.im

theorem CAlike.refl (z : Cplx) : CAlike z z := ⟨rfl, rfl⟩

theorem CAlike.of_eq (h : z = w) : CAlike z w := h ▸ .refl z

theorem CAlike.conj (h : CAlike z z') : CAlike (conj z) (conj z') := ⟨h.re, h.im.fneg⟩

theorem CAlike.cadd (d d' : Nat) (hz : CAlike z z') (hw : CAlike w w') : CAlike (cadd d z w) (cadd d' z' w') :=
  ⟨hz.re.fadd _ _ hw.re, hz.im.fadd _ _ hw.im⟩

theorem CAlike.csub (d d' : Nat) (hz : CAlike z z') (hw : CAlike w w') : CAlike (csub d z w) (csub d' z' w') :=
  ⟨hz.re.fsub _ _ hw.re, hz.im.fsub _ _ hw.im⟩

theorem CAlike.cmul (d d' : Nat) (hz : CAlike z z') (hw : CAlike w w') : CAlike (cmul d z w) (cmul d' z' w') :=
  ⟨(hz.re.fmul _ _ hw.re).fsub _ _ (hz.im.fmul _ _ hw.im), (hz.re.fmul _ _ hw.im).fadd _ _ (hz.im.fmul _ _ hw.re)⟩

theorem CAlike.rscale (d d' : Nat) (hk : Alike k k') (hz : CAlike z z') : CAlike (rscale d k z) (rscale d' k' z') :=
  ⟨hk.fmul _ _ hz.re, hk.fmul _ _ hz.im⟩

theorem CAlike.cdivr (d d' : Nat) (hz : CAlike z z') (hk : Alike k k') : CAlike (cdivr d z k) (cdivr d' z' k') :=
  ⟨hz.re.fdiv _ _ hk, hz.im.fdiv _ _ hk⟩

theorem CAlike.abs2 (d d' : Nat) (hz : CAlike z z') : Alike (abs2 d z) (abs2 d' z') :=
  (hz.re.fmul _ _ hz.re).fadd _ _ (hz.im.fmul _ _ hz.im)

theorem CAlike.dec_eq (h : CAlike z z') : dec z = dec z' := h.re.fgt0_eq

/-! The source and the encoder. -/

/-- What a codeword is determined by: SEED, STREAM, SNR_CUR, NRX, the draw indices, and the counters it adds to (R256). -/
structure SameKeys (s s' : State) : Prop where
  seed : s.seed = s'.seed
  stream : s.stream = s'.stream
  snrCur : s.snrCur = s'.snrCur
  nrx : s.nrx = s'.nrx
  bitIdx : s.bitIdx = s'.bitIdx
  gaussIdx : s.gaussIdx = s'.gaussIdx
  errcnt : s.errcnt = s'.errcnt
  bitcnt : s.bitcnt = s'.bitcnt

/-- The state after DRAWB, MAP and ENC (R240). -/
def encoded (s : State) : State := encBody true (mapBody (drawbBody Config.gen s))

theorem encoded_bits (h : SameKeys s s') : (encoded s).bits = (encoded s').bits := by
  simp [encoded, h.seed, h.stream, h.bitIdx]

theorem SameKeys.encoded (h : SameKeys s s') : SameKeys (encoded s) (encoded s') where
  seed := by simp [PointKeys.encoded, h.seed]
  stream := by simp [PointKeys.encoded, h.stream]
  snrCur := by simp [PointKeys.encoded, h.snrCur]
  nrx := by simp [PointKeys.encoded, h.nrx]
  bitIdx := by simp [PointKeys.encoded, h.bitIdx]
  gaussIdx := by simp [PointKeys.encoded, h.gaussIdx]
  errcnt := by simp [PointKeys.encoded, h.errcnt]
  bitcnt := by simp [PointKeys.encoded, h.bitcnt]

/-- The code matrix is alike, its entries being products of KN and the symbols of the same bits (R143, R145). -/
theorem xAt_encoded (h : SameKeys s s') (i t : Nat) : CAlike (xAt (encoded s) i t) (xAt (encoded s') i t) := by
  have hbits : (drawbBody Config.gen s).bits = (drawbBody Config.gen s').bits := by simp [h.seed, h.stream, h.bitIdx]
  have hs1 : (mapBody (drawbBody Config.gen s)).s1 = (mapBody (drawbBody Config.gen s')).s1 := by rw [mapBody_s1, mapBody_s1, hbits]
  have hs2 : (mapBody (drawbBody Config.gen s)).s2 = (mapBody (drawbBody Config.gen s')).s2 := by rw [mapBody_s2, mapBody_s2, hbits]
  have hscale (d d' : Nat) {z z' : Cplx} (hz : z = z') : CAlike (scaleSym true d z) (scaleSym true d' z') :=
    CAlike.rscale d d' (.refl kn) (.of_eq hz)
  unfold xAt encoded
  split
  · exact hscale _ _ hs1
  · exact hscale _ _ (by rw [hs2])
  · exact hscale _ _ hs2
  · exact hscale _ _ (by rw [hs1])

/-! The channel. -/

theorem antennas_eq_of_nrx (h : s.nrx = s'.nrx) : antennas s = antennas s' := by rw [antennas, h, antennas]

theorem scaledGauss_eq (h : SameKeys s s') (n : Nat) : ChannelSimulator.scaledGauss s n = ChannelSimulator.scaledGauss s' n := by
  rw [ChannelSimulator.scaledGauss, h.seed, h.stream, h.gaussIdx, ChannelSimulator.scaledGauss]

theorem SameKeys.drawh (h : SameKeys s s') : SameKeys (drawhBody Config.gen s) (drawhBody Config.gen s') where
  seed := h.seed
  stream := h.stream
  snrCur := h.snrCur
  nrx := h.nrx
  bitIdx := h.bitIdx
  gaussIdx := by
    rw [ChannelSimulator.drawhBody_eq s, ChannelSimulator.drawhBody_eq s']
    simp only [h.gaussIdx, antennas_eq_of_nrx h.nrx]
  errcnt := h.errcnt
  bitcnt := h.bitcnt

/-- A sample is alike when the columns of the code matrix are. -/
theorem received_alike (d d' : Nat) {h₀ h₁ x₀ x₀' x₁ x₁' n : Cplx} {sg : F64} (hx₀ : CAlike x₀ x₀') (hx₁ : CAlike x₁ x₁') :
    CAlike (received d h₀ h₁ x₀ x₁ sg n) (received d' h₀ h₁ x₀' x₁' sg n) :=
  (((CAlike.refl h₀).cmul _ _ hx₀).cadd _ _ ((CAlike.refl h₁).cmul _ _ hx₁)).cadd d d' (.rscale _ _ (.refl sg) (.refl n))

/-- The state after DRAWN (R240). -/
def noisy (s : State) : State := drawnBody Config.gen (drawhBody Config.gen (encoded s))

theorem antennas_noisy (s : State) : antennas (noisy s) = antennas s := antennas_eq_of_nrx (by simp [noisy, encoded])

theorem snrCur_noisy (s : State) : (noisy s).snrCur = s.snrCur := by simp [noisy, encoded]

/-- The draws leave the code matrix as ENC wrote it. -/
theorem xAt_noisy (s : State) (i t : Nat) : xAt (noisy s) i t = xAt (encoded s) i t := by
  simp only [noisy, xAt, drawnBody_x00, drawnBody_x01, drawnBody_x10, drawnBody_x11, drawhBody_x00, drawhBody_x01, drawhBody_x10,
    drawhBody_x11]

/-- The coefficients of the antennas in use are drawn anew (R173). -/
theorem hAt_noisy (h : SameKeys s s') {i r : Nat} (hi : i < 2) (hr : r < antennas s) : hAt (noisy s) i r = hAt (noisy s') i r := by
  have hR : antennas (encoded s) = antennas s := antennas_eq_of_nrx (by simp [encoded])
  have hR' : antennas (encoded s') = antennas s := antennas_eq_of_nrx (by simp [encoded, h.nrx])
  rw [hAt, hAt, noisy, noisy, drawnBody_h, drawnBody_h, ChannelSimulator.drawhBody_visited _ hi (by rwa [hR]),
    ChannelSimulator.drawhBody_visited _ hi (by rwa [hR']), scaledGauss_eq h.encoded, scaledGauss_eq h.encoded]

/-- So is their noise (R174). -/
theorem nzAt_noisy (h : SameKeys s s') {r t : Nat} (hr : r < antennas s) (ht : t < 2) : nzAt (noisy s) r t = nzAt (noisy s') r t := by
  have hkeys := h.encoded.drawh
  have hR : antennas (drawhBody Config.gen (encoded s)) = antennas s := antennas_eq_of_nrx (by simp [encoded])
  have hR' : antennas (drawhBody Config.gen (encoded s')) = antennas s := antennas_eq_of_nrx (by simp [encoded, h.nrx])
  rw [nzAt, nzAt, noisy, noisy, ChannelSimulator.drawnBody_visited _ (by rwa [hR]) ht,
    ChannelSimulator.drawnBody_visited _ (by rwa [hR']) ht, scaledGauss_eq hkeys, scaledGauss_eq hkeys]

/-- The state after CHAN (R240). -/
def sampled (s : State) : State := chanBody (noisy s)

@[simp] theorem sampled_nrx (s : State) : (sampled s).nrx = s.nrx := by simp [sampled, noisy, encoded]

@[simp] theorem sampled_errcnt (s : State) : (sampled s).errcnt = s.errcnt := by simp [sampled, noisy, encoded]

@[simp] theorem sampled_bits (s : State) : (sampled s).bits = (encoded s).bits := by simp [sampled, noisy]

@[simp] theorem sampled_sigma (s : State) : (sampled s).sigma = Machine.sigma s.snrCur := by simp [sampled, snrCur_noisy]

theorem hAt_sampled (s : State) (i r : Nat) : hAt (sampled s) i r = hAt (noisy s) i r := by rw [hAt, hAt, sampled, chanBody_h]

/-- The samples of the antennas in use are formed anew (R180). -/
theorem yAt_sampled (h : SameKeys s s') {r t : Nat} (hr : r < antennas s) (ht : t < 2) :
    CAlike (yAt (sampled s) r t) (yAt (sampled s') r t) := by
  have hr' : r < antennas s' := by rwa [← antennas_eq_of_nrx h.nrx]
  rw [yAt, yAt, sampled, sampled, ChannelSimulator.chanBody_visited _ (by rwa [antennas_noisy]) ht,
    ChannelSimulator.chanBody_visited _ (by rwa [antennas_noisy]) ht, xAt_noisy, xAt_noisy, xAt_noisy, xAt_noisy, snrCur_noisy,
    snrCur_noisy, h.snrCur, hAt_noisy h (by decide) hr, hAt_noisy h (by decide) hr, nzAt_noisy h hr ht]
  exact received_alike _ _ (xAt_encoded h 0 t) (xAt_encoded h 1 t)

/-- What COMB reads of antenna r is alike (R201). -/
structure AntennaAlike (s s' : State) (r : Nat) : Prop where
  h₀ : CAlike (hAt s 0 r) (hAt s' 0 r)
  h₁ : CAlike (hAt s 1 r) (hAt s' 1 r)
  y₀ : CAlike (yAt s r 0) (yAt s' r 0)
  y₁ : CAlike (yAt s r 1) (yAt s' r 1)

theorem antennaAlike_sampled (h : SameKeys s s') {r : Nat} (hr : r < antennas s) : AntennaAlike (sampled s) (sampled s') r where
  h₀ := .of_eq (by rw [hAt_sampled, hAt_sampled, hAt_noisy h (by decide) hr])
  h₁ := .of_eq (by rw [hAt_sampled, hAt_sampled, hAt_noisy h (by decide) hr])
  y₀ := yAt_sampled h hr (by decide)
  y₁ := yAt_sampled h hr (by decide)

/-! The combiner. -/

/-- The numerators and the divisor are alike. -/
structure SumsAlike (x y : Cplx × Cplx × F64) : Prop where
  num₁ : CAlike x.1 y.1
  num₂ : CAlike x.2.1 y.2.1
  den : Alike x.2.2 y.2.2

theorem combTerm_alike (d d' : Nat) {r : Nat} (h : AntennaAlike s s' r) : SumsAlike (combTerm s d r) (combTerm s' d' r) where
  num₁ := (h.h₀.conj.cmul _ _ h.y₀).cadd d d' (h.h₁.cmul _ _ h.y₁.conj)
  num₂ := (h.h₁.conj.cmul _ _ h.y₀).csub _ _ (h.h₀.cmul _ _ h.y₁.conj)
  den := (h.h₀.abs2 _ _).fadd _ _ (h.h₁.abs2 _ _)

theorem combSum_alike (d d' n : Nat) (h : ∀ r ≤ n, AntennaAlike s s' r) : SumsAlike (combSum s d n) (combSum s' d' n) := by
  induction n with
  | zero => exact combTerm_alike d d' (h 0 (Nat.le_refl 0))
  | succ n ih =>
    have hsum := ih fun r hr => h r (Nat.le_succ_of_le hr)
    have hterm := combTerm_alike (d + 40 * (n + 1)) (d' + 40 * (n + 1)) (h (n + 1) (Nat.le_refl _))
    rw [Combiner.combSum_succ, Combiner.combSum_succ]
    exact ⟨hsum.num₁.cadd _ _ hterm.num₁, hsum.num₂.cadd _ _ hterm.num₂, hsum.den.fadd _ _ hterm.den⟩

/-- Both statistics are alike, by the division and on the degenerate path (R201, R204). -/
theorem statistics_alike (hR : antennas s = antennas s')
    (h : SumsAlike (combSum s s.draws (antennas s - 1)) (combSum s' s'.draws (antennas s - 1))) :
    CAlike (combBody s).z1 (combBody s').z1 ∧ CAlike (combBody s).z2 (combBody s').z2 := by
  simp only [combBody, ← hR, h.den.feq0_eq]
  split
  · exact ⟨.refl _, .refl _⟩
  · exact ⟨h.num₁.cdivr _ _ h.den, h.num₂.cdivr _ _ h.den⟩

theorem statistics_sampled (h : SameKeys s s') (hpos : 0 < antennas s) :
    CAlike (combBody (sampled s)).z1 (combBody (sampled s')).z1 ∧ CAlike (combBody (sampled s)).z2 (combBody (sampled s')).z2 := by
  have hR : antennas (sampled s) = antennas s := antennas_eq_of_nrx (sampled_nrx s)
  have hR' : antennas (sampled s') = antennas s' := antennas_eq_of_nrx (sampled_nrx s')
  refine statistics_alike (by rw [hR, hR', antennas_eq_of_nrx h.nrx]) (combSum_alike _ _ _ fun r hr => antennaAlike_sampled h ?_)
  rw [hR] at hr
  omega

/-! A codeword, a point. -/

theorem cwordBody_eq (s : State) : cwordBody Config.gen s = detBody (combBody (sampled s)) := rfl

theorem cwordBody_bits (s : State) : (cwordBody Config.gen s).bits = (encoded s).bits := by simp [cwordBody_eq]

theorem cwordBody_sigma (s : State) : (cwordBody Config.gen s).sigma = Machine.sigma s.snrCur := by simp [cwordBody_eq]

theorem cwordBody_bhat (s : State) :
    (cwordBody Config.gen s).bhat = pairBits (dec (combBody (sampled s)).z1) (dec (combBody (sampled s)).z2) := detBody_bhat _

theorem cwordBody_errcnt (s : State) :
    (cwordBody Config.gen s).errcnt = s.errcnt +
      BitVec.ofNat 64 (mismatches (dec (combBody (sampled s)).z1) (dec (combBody (sampled s)).z2) (encoded s).bits) := by
  rw [cwordBody_eq, detBody_errcnt, combBody_errcnt, combBody_bits, sampled_errcnt, sampled_bits]

/-- What a codeword of two states with the same keys leaves the same beside the keys. -/
structure SameResults (s s' : State) : Prop where
  bits : s.bits = s'.bits
  bhat : s.bhat = s'.bhat
  sigma : s.sigma = s'.sigma

theorem sameResults_pointCodeword (h : SameKeys s s') (hpos : 0 < antennas s) :
    SameResults (pointCodeword Config.gen s) (pointCodeword Config.gen s') := by
  obtain ⟨hz1, hz2⟩ := statistics_sampled h hpos
  refine ⟨?_, ?_, ?_⟩
  · rw [pointCodeword_bits, pointCodeword_bits, cwordBody_bits, cwordBody_bits, encoded_bits h]
  · rw [pointCodeword_bhat, pointCodeword_bhat, cwordBody_bhat, cwordBody_bhat, hz1.dec_eq, hz2.dec_eq]
  · rw [pointCodeword_sigma, pointCodeword_sigma, cwordBody_sigma, cwordBody_sigma, h.snrCur]

theorem sameKeys_pointCodeword (h : SameKeys s s') (hpos : 0 < antennas s) :
    SameKeys (pointCodeword Config.gen s) (pointCodeword Config.gen s') where
  seed := by simp [h.seed]
  stream := by simp [h.stream]
  snrCur := by simp [h.snrCur]
  nrx := by simp [h.nrx]
  bitIdx := by simp [cwordBody_bitIdx, h.bitIdx]
  gaussIdx := by simp [cwordBody_gaussIdx, h.gaussIdx, antennas_eq_of_nrx h.nrx]
  errcnt := by
    obtain ⟨hz1, hz2⟩ := statistics_sampled h hpos
    rw [pointCodeword_errcnt, pointCodeword_errcnt, cwordBody_errcnt, cwordBody_errcnt, hz1.dec_eq, hz2.dec_eq, h.errcnt,
      encoded_bits h]
  bitcnt := by simp [cwordBody_bitcnt, h.bitcnt]

theorem sameKeys_iterate (n : Nat) (h : SameKeys s s') (hpos : 0 < antennas s) :
    SameKeys ((pointCodeword Config.gen)^[n] s) ((pointCodeword Config.gen)^[n] s') := by
  induction n generalizing s s' with
  | zero => exact h
  | succ n ih =>
    rw [Function.iterate_succ_apply, Function.iterate_succ_apply]
    exact ih (sameKeys_pointCodeword h hpos) (by rwa [antennas_eq_of_nrx (pointCodeword_nrx _ s)])

/-- After at least one codeword the results are the same too. -/
theorem sameResults_iterate (n : Nat) (h : SameKeys s s') (hpos : 0 < antennas s) :
    SameResults ((pointCodeword Config.gen)^[n + 1] s) ((pointCodeword Config.gen)^[n + 1] s') := by
  rw [Function.iterate_succ_apply', Function.iterate_succ_apply']
  refine sameResults_pointCodeword (sameKeys_iterate n h hpos) ?_
  rwa [antennas_eq_of_nrx (iterate_pointCodeword_kept (·.nrx) (pointCodeword_nrx _) n s)]

/-- point_init clears what a point counts and draws, so the keys of R256 are left (R251). -/
theorem sameKeys_pointStart (sweep sweep' : Bool) (hseed : s.seed = s'.seed) (hstream : s.stream = s'.stream)
    (hsnr : s.snrCur = s'.snrCur) (hnrx : s.nrx = s'.nrx) : SameKeys (pointStart sweep s) (pointStart sweep' s') :=
  ⟨hseed, hstream, hsnr, hnrx, rfl, rfl, rfl, rfl⟩

/-- PT_FINAL computes BER and leaves the results of the point's codewords, whichever command ends the point (R252). -/
theorem results_finalStep (sweep : Bool) (s : State) :
    (finalStep sweep s).errcnt = s.errcnt ∧ (finalStep sweep s).bitcnt = s.bitcnt ∧
      (finalStep sweep s).ber = Machine.ber s.errcnt s.bitcnt ∧ (finalStep sweep s).bitIdx = s.bitIdx ∧
      (finalStep sweep s).gaussIdx = s.gaussIdx ∧ (finalStep sweep s).sigma = s.sigma ∧ (finalStep sweep s).bhat = s.bhat ∧
      (finalStep sweep s).bits = s.bits := by
  cases sweep with
  | false => exact ⟨rfl, rfl, rfl, rfl, rfl, rfl, rfl, rfl⟩
  | true =>
    rw [finalStep, if_pos rfl, sweepFinal_eq]
    split <;> simp

/-- Settles O48: the codewords of both points go from the same keys to the same keys and results. -/
theorem pointResultsDependOnItsKeysOnly : Obligations.PointResultsDependOnItsKeysOnly := by
  rintro s s' ⟨hlegal, hbusy, hphase, habort, hev⟩ ⟨hlegal', hbusy', hphase', habort', hev'⟩ hseed hstream hsnr hnbits hnrx
  obtain ⟨sweep, hseq⟩ := sequencing_of_phase hlegal hbusy (by simp [hphase]) habort hev
  obtain ⟨sweep', hseq'⟩ := sequencing_of_phase hlegal' hbusy' (by simp [hphase']) habort' hev'
  obtain ⟨⟨hpos, heven⟩, ⟨hmin, hmax⟩, -⟩ := hseq.running
  have hR : 0 < antennas (pointStart sweep s) := by
    rw [antennas_eq_of_nrx (pointStart_nrx sweep s), antennas_eq s hmax]
    exact hmin
  have hstart := sameKeys_pointStart sweep sweep' hseed hstream hsnr hnrx
  obtain ⟨n, hn⟩ : ∃ n, s.nbits.toNat / 2 = n + 1 := ⟨s.nbits.toNat / 2 - 1, by omega⟩
  have hkeys : SameKeys (lastCodeword sweep s) (lastCodeword sweep' s') := by
    rw [lastCodeword, lastCodeword, ← hnbits]
    exact sameKeys_iterate _ hstart hR
  have hresults : SameResults (lastCodeword sweep s) (lastCodeword sweep' s') := by
    rw [lastCodeword, lastCodeword, ← hnbits, hn]
    exact sameResults_iterate n hstart hR
  have hrun' := (busyRun_point hseq' hphase').run
  rw [← hnbits] at hrun'
  obtain ⟨herrcnt, hbitcnt, hber, hbitIdx, hgauss, hsigma, hbhat, hbits⟩ := results_finalStep sweep (lastCodeword sweep s)
  obtain ⟨herrcnt', hbitcnt', hber', hbitIdx', hgauss', hsigma', hbhat', hbits'⟩ :=
    results_finalStep sweep' (lastCodeword sweep' s')
  refine ⟨_, _, (busyRun_point hseq hphase).run, hrun', ?_⟩
  rw [herrcnt, herrcnt', hbitcnt, hbitcnt', hber, hber', hbitIdx, hbitIdx', hgauss, hgauss', hsigma, hsigma', hbhat, hbhat', hbits,
    hbits', hkeys.errcnt, hkeys.bitcnt]
  exact ⟨rfl, rfl, rfl, hkeys.bitIdx, hkeys.gaussIdx, hresults.sigma, hresults.bhat, hresults.bits⟩

end Sys2Proof.PointKeys
end

section
/-! PROOFS. Errors and interrupts: which check an issue reports (R281, R282, R287, R290), commands written in ERROR (R296), the interrupt
output (R300), and that a legal state has no error left over for a later step (R286, R292). -/

namespace Sys2Proof.Exceptions
open Sys2Proof Sys2Proof.Machine Sys2Proof.Claims Sys2Proof.CoreFrame

variable {s : State} {i : Instr}

/-! The interrupt output. -/

theorem bitVec3_ne_zero (x : BitVec 3) : (x != 0#3) = (x.getLsbD 0 || x.getLsbD 1 || x.getLsbD 2) := by
  revert x
  decide

/-- Settles O24. -/
theorem irqIsTheEnabledLevel : Obligations.IrqIsTheEnabledLevel := fun s => by
  rw [irq, bitVec3_ne_zero, BitVec.getLsbD_and, BitVec.getLsbD_and, BitVec.getLsbD_and]

/-! Commands in ERROR. -/

theorem issue_of_error (w : Word) (herror : s.state = .error) : issue w s = { s with drop := true } := if_pos (.inr herror)

/-- Settles O29. -/
theorem commandsInErrorAreDropped : Obligations.CommandsInErrorAreDropped := by
  intro s rest w herror hev
  have hfree : s.state ≠ .busy := by simp [herror]
  rw [Aperture.step_write_reg (r := .cmd) rfl (.inl hfree) hev, writeReg,
    issue_of_error (s := { s with events := rest, resp := none }) w herror]

/-! The check that an issue reports. R281's causes fall into the three groups that the commands check, and the first failure of groups in
a row is that of the first group that fails. -/

/-- A cause and its value as the error record holds them. -/
def errorRecord (failure : Nat × Word) : BitVec 8 × Word := (BitVec.ofNat 8 failure.1, failure.2)

/-- The record of the first cause of a list that applies. -/
def firstRecord (causes : List (Bool × Nat × Word)) : Option (BitVec 8 × Word) :=
  (causes.find? fun c => c.1).map fun c => errorRecord c.2

theorem firstRecord_append (xs ys : List (Bool × Nat × Word)) :
    firstRecord (xs ++ ys) = (firstRecord xs).or (firstRecord ys) := by
  rw [firstRecord, List.find?_append, Option.map_or]
  rfl

theorem firstRecord_cons (p : Prop) [Decidable p] (c : Nat) (v : Word) (causes : List (Bool × Nat × Word)) :
    firstRecord ((decide p, c, v) :: causes) = if p then some (BitVec.ofNat 8 c, v) else firstRecord causes := by
  by_cases hp : p <;> simp [firstRecord, errorRecord, hp]

theorem firstFailure_record (i : Instr) (s : State) :
    (firstFailure i s).map errorRecord = firstRecord ((sizeCauses s).filter fun c => (checkedCauses i).contains c.2.1) := by
  rw [firstRecord, List.find?_filter, firstFailure, Option.map_map]
  simp only [Bool.decide_and, Bool.decide_eq_true, Bool.and_comm]
  rfl

/-- The causes 1 and 2. -/
def nbitsCauses (s : State) : List (Bool × Nat × Word) := (sizeCauses s).take 2

/-- The causes 3 and 4. -/
def nrxCauses (s : State) : List (Bool × Nat × Word) := ((sizeCauses s).drop 2).take 2

/-- The causes 5 to 7. -/
def rangeCauses (s : State) : List (Bool × Nat × Word) := (sizeCauses s).drop 4

theorem checkNbits_eq (s : State) : checkNbits s = firstRecord (nbitsCauses s) := by
  have hodd : s.nbits.getLsbD 0 = true ↔ s.nbits.toNat % 2 = 1 := by simp [BitVec.getLsbD, Nat.testBit_zero]
  simp only [checkNbits, BitVec.toNat_eq, hodd, nbitsCauses, sizeCauses, List.take, firstRecord_cons]
  rfl

theorem checkNrx_eq (s : State) : checkNrx s = firstRecord (nrxCauses s) := by
  simp only [checkNrx, BitVec.toNat_eq, nrxCauses, sizeCauses, List.drop, List.take, firstRecord_cons]
  rfl

/-- Where the range has too many points, their whole number is a natural number, so both give the same value of cause 7. -/
theorem checkRange_eq (s : State) : checkRange s = firstRecord (rangeCauses s) := by
  have hmany : Config.maxPoints < pointCount s ↔ 256 < (s.snrEnd.toInt - s.snrStart.toInt) / s.snrStep.toInt + 1 := by
    simp only [Config.maxPoints, pointCount]
    omega
  have hvalue (h : Config.maxPoints < pointCount s) :
      BitVec.ofInt 64 ((s.snrEnd.toInt - s.snrStart.toInt) / s.snrStep.toInt + 1) = BitVec.ofNat 64 (pointCount s) := by
    have hpos := hmany.1 h
    rw [pointCount, ← BitVec.ofInt_natCast, Int.toNat_of_nonneg (by omega)]
  simp only [checkRange, rangeCauses, sizeCauses, List.drop, firstRecord_cons, ← hmany]
  split_ifs with hstep hempty hpoints
  · rfl
  · rfl
  · rw [hvalue hpoints]
  · rfl

/-- The model's checks report the first failing cause of R281 that R282 lists for the command. -/
theorem validate_eq_firstFailure (i : Instr) (s : State) : validate i s = (firstFailure i s).map errorRecord := by
  rw [firstFailure_record]
  cases i with
  | nop | drawb | map | enc | det | clracc => rfl
  | drawh | drawn | chan | comb | cword => exact checkNrx_eq s
  | runpt =>
    rw [validate, checkNbits_eq, checkNrx_eq, ← firstRecord_append]
    rfl
  | sweep =>
    rw [validate, checkNbits_eq, checkNrx_eq, checkRange_eq, ← firstRecord_append, ← firstRecord_append]
    rfl

/-- A legal word with a failing check enters ERROR wherever commands are taken (R260, R290). -/
theorem issue_of_invalid {w : Word} {cause : BitVec 8} {info : Word} (hs : takesCommands s) (hdec : decode w = .ok i)
    (hfail : validate i { s with cmd := w, degen := false } = some (cause, info)) :
    issue w s = raiseError codeInvalidInputSize cause info { s with cmd := w, degen := false } := by
  obtain ⟨hdropped, -⟩ | ⟨-, -, ⟨e, he, -⟩ | ⟨j, c, v, hj, hfail', hissue⟩ | ⟨j, hj, hvalid, -⟩⟩ := issue_cases w s
  · rcases hs with h | h | h <;> simp [h] at hdropped
  · cases hdec.symm.trans he
  · cases hdec.symm.trans hj
    cases hfail.symm.trans hfail'
    exact hissue
  · cases hdec.symm.trans hj
    cases hfail.symm.trans hvalid

/-- Settles O27. -/
theorem invalidInputIsRejectedAtIssue : Obligations.InvalidInputIsRejectedAtIssue := by
  intro s rest w i c v hs hdec hfirst hev
  have hidle : s.state ≠ .busy := by rcases hs with h | h | h <;> simp [h]
  have hfail : validate i { s with events := rest, resp := none, cmd := w, degen := false } = some (BitVec.ofNat 8 c, v) :=
    (validate_eq_firstFailure i _).trans (congrArg (Option.map errorRecord) hfirst)
  rw [Aperture.step_write_reg (r := .cmd) rfl (.inl hidle) hev, writeReg,
    issue_of_invalid (s := { s with events := rest, resp := none }) hs hdec hfail]
  rfl

/-! Progress. A command that was accepted has no phase without a step. -/

theorem phase_ne_none_of_running (hmulti : unitBody i = none) (hrun : RunningInv i s) : s.phase ≠ .none := by
  cases i with
  | runpt => exact hrun.1
  | sweep => exact hrun.1
  | _ => cases hmulti

theorem sequencerStep_progress (g : Gen) (sweep : Bool) (hphase : s.phase ≠ .none) : ∃ t, sequencerStep g sweep s = .next t := by
  by_cases habort : s.abortReq = true ∧ s.phase ≠ .swStart
  · exact ⟨_, if_pos habort⟩
  · rw [sequencerStep, if_neg habort]
    cases hp : s.phase with
    | none => exact absurd hp hphase
    | swStart | ptInit | ptCw | ptFinal => exact ⟨_, rfl⟩

theorem exec_progress (hrun : RunningInv i s) : ∃ t, exec i s = .next t := by
  cases hbody : unitBody i with
  | some body => exact ⟨_, exec_of_unitBody hbody s⟩
  | none =>
    have hphase := phase_ne_none_of_running hbody hrun
    cases i with
    | runpt => exact sequencerStep_progress Config.gen false hphase
    | sweep => exact sequencerStep_progress Config.gen true hphase
    | _ => cases hbody

theorem coreTurn_progress (h : LegalState s) : ∃ t, coreTurn s = .next t := by
  by_cases hbusy : s.state = .busy
  · obtain ⟨i, hdec, hrun⟩ := h.sequencer.2 hbusy
    rw [SourceEncoder.coreTurn_of_busy hbusy hdec]
    exact exec_progress hrun
  · exact ⟨s, Lifecycle.coreTurn_of_not_busy hbusy⟩

theorem hostStep_progress {a : Access} (hadmitted : a.wellFormed = true) (s : State) : ∃ t, hostStep a s = .next t := by
  cases a with
  | read | write => exact ⟨_, if_pos hadmitted⟩

/-- Settles O11: each agent's turn goes on, the host's because its access is admitted. -/
theorem legalStateStepsOn : Obligations.LegalStateStepsOn := by
  intro s h hadmitted
  cases hev : s.events with
  | nil =>
    rw [Lifecycle.step_of_no_events hev]
    exact coreTurn_progress h
  | cons e rest =>
    rw [Aperture.step_of_events hev]
    cases e with
    | host a => exact hostStep_progress (hadmitted a rest hev) _
    | core => exact coreTurn_progress (Invariant.legal_of_host_side h rest s.resp s.draws s.drop s.intStatus s.intEnable)
    | reset => exact ⟨_, rfl⟩

end Sys2Proof.Exceptions
end

section
/-! PROOFS. The reset (R330, R331): the values of the reset state, the reset input, and that the invariant holds of the reset state. -/

namespace Sys2Proof.Reset
open Sys2Proof Sys2Proof.Machine Sys2Proof.Claims

variable {s : State} {rest : List Event} {i : Instr} {w : Word}

/-! The reset state. -/

theorem resetRegisters_reset : resetRegisters State.reset := by
  unfold resetRegisters
  decide

/-- NBITS_ZERO is the first cause in the order, so it is what a command that checks NBITS reports (R281, R287). -/
theorem firstFailure_of_nbits_zero (hnbits : s.nbits = 0#64) (hchecked : 1 ∈ checkedCauses i) :
    firstFailure i s = some (1, 0#64) := by
  simp [firstFailure, sizeCauses, hnbits, hchecked]

theorem step_command_from_reset (hdec : decode w = .ok i) (hchecked : 1 ∈ checkedCauses i) :
    step { State.reset with events := [.host (.write 8 0x018 w)] } =
      .next { State.reset with
        cmd := w, state := .error, errCode := 1#8, errCause := 1#8, errInfo := 0#64, intStatus := 2#3 } := by
  have herror : State.reset.intStatus ||| 2#3 = 2#3 := BitVec.zero_or
  rw [Exceptions.invalidInputIsRejectedAtIssue _ [] w i 1 0#64 (.inl rfl) hdec (firstFailure_of_nbits_zero rfl hchecked) rfl,
    herror]
  rfl

/-- Settles O7: NBITS is 0 in the reset state, and RUNPT and SWEEP both check it. -/
theorem resetStateHasTheStatedValues : Obligations.ResetStateHasTheStatedValues := by
  refine ⟨resetRegisters_reset, rfl, rfl, rfl, ?_⟩
  rintro w (rfl | rfl)
  · exact step_command_from_reset (i := .runpt) (by decide) (by decide)
  · exact step_command_from_reset (i := .sweep) (by decide) (by decide)

/-! The reset input. -/

theorem step_of_reset_first (hev : s.events = .reset :: rest) : step s = .next (applyReset { s with events := rest }) :=
  Aperture.step_of_events hev

/-- Settles O8: what the reset input leaves differs from the reset state in the model's own fields only. -/
theorem resetInputEntersTheResetState : Obligations.ResetInputEntersTheResetState := fun _ _ hev =>
  ⟨_, step_of_reset_first hev, resetRegisters_reset, rfl⟩

/-! The invariant. -/

/-- The reset input changes nothing in the reset state. -/
theorem applyReset_reset : applyReset State.reset = State.reset := rfl

/-- Settles O9: the reset state is what the reset input makes of itself. -/
theorem resetStateIsLegal : Obligations.ResetStateIsLegal := by
  unfold Obligations.ResetStateIsLegal
  rw [← applyReset_reset]
  exact Invariant.legal_applyReset State.reset

end Sys2Proof.Reset
end
